-- ==== Sys2Proof/Word.lean ====
section
/-! DEFINITION. The words of the machine: frame buffer bytes, line levels, line events, and the requests that stand
at the controller's ports. -/

namespace Sys2Proof

/-- One frame buffer cell: 8 bits, bit 7 the modified flag (R14). -/
abbrev Byte := BitVec 8

/-- A line or select-stage level: `0`, `1` or `X`, never driven or unknown (R19, R46). -/
inductive Level where
  | low
  | high
  | unknown
  deriving DecidableEq, Repr

/-- The level a driven bit puts on a line. -/
def Level.ofBool : Bool → Level
  | false => .low
  | true => .high

/-- The bit a level stands for, when it stands for one. -/
def Level.toBool? : Level → Option Bool
  | .low => some false
  | .high => some true
  | .unknown => none

/-- The four digital output lines (R19). -/
inductive Line where
  | data
  | clk
  | wr
  | cs
  deriving DecidableEq, Repr

/-- One value for each of the four lines. -/
structure Lines (α : Type) where
  data : α
  clk : α
  wr : α
  cs : α
  deriving DecidableEq, Repr

/-- The value a line has. -/
def Lines.get {α : Type} (v : Lines α) : Line → α
  | .data => v.data
  | .clk => v.clk
  | .wr => v.wr
  | .cs => v.cs

/-- The lines with one of them given a new value. -/
def Lines.put {α : Type} (v : Lines α) (l : Line) (x : α) : Lines α :=
  match l with
  | .data => { v with data := x }
  | .clk => { v with clk := x }
  | .wr => { v with wr := x }
  | .cs => { v with cs := x }

/-- A line event (R10, R21): `cfg L`, the line is configured as an output; `set L b`, it is driven to level `b`. -/
inductive Event where
  | cfg (l : Line)
  | set (l : Line) (b : Bool)
  deriving DecidableEq, Repr

/-- What waits for the machine's next step.
`host w`: a host command word (R54).
`frame k bits`: one bus transaction of the encoder, the select number `k` and the frame's bits, first bit sent first
(R58, R59, R61); the host cannot issue it, the model runs one on its own so that each row of the opcode table has a
step (log entry 4).
`reset`: the reset event (R127). -/
inductive Request where
  | host (w : Nat)
  | frame (k : Nat) (bits : List Bool)
  | reset
  deriving DecidableEq, Repr

end Sys2Proof
end

