-- ==== Sys2Proof/Config.lean ====
section
/-! DEFINITION. The static configuration (R5, R9, R23), its derived constants, and the free values of the model. The
default instance stands in Decode.lean. -/

namespace Sys2Proof

/-- What a PLOT with `y = H` does once the range check has let it pass (R9, R78). -/
inductive YEqH where
  | fault
  | aliasFlat
  | ignore
  deriving DecidableEq, Repr

/-- The static configuration: the six parameters of R5 and those of R9, hardwired for the life of the instance (R23).
The opcode and payload fields carry their widths in their types, and the record cannot be built with
OP_COMMAND = OP_WRITE (R9; U8 of 93_implementation_defined.md). -/
structure Config where
  w : Nat
  h : Nat
  chipsX : Nat
  chipsY : Nat
  colors : Nat
  ledsPerCell : Nat
  idBits : Nat
  cmdPayloadBits : Nat
  cmdPadBits : Nat
  addrBits : Nat
  opCommand : BitVec idBits
  opWrite : BitVec idBits
  idsDiffer : opCommand ≠ opWrite
  cmdSysDisable : BitVec cmdPayloadBits
  cmdPanelConfig : BitVec cmdPayloadBits
  cmdMasterMode : BitVec cmdPayloadBits
  cmdSysEnable : BitVec cmdPayloadBits
  cmdLedOn : BitVec cmdPayloadBits
  padValue : BitVec 1
  sentinel : Byte
  coordBits : Nat
  yEqH : YEqH
  deriving DecidableEq, Repr

namespace Config

/-- CHIPS (R5). -/
def chips (c : Config) : Nat := c.chipsX * c.chipsY

/-- CW, the width of one chip's region (R5). -/
def cw (c : Config) : Nat := c.w / c.chipsX

/-- CHh, the height of one chip's region (R5). -/
def chh (c : Config) : Nat := c.h / c.chipsY

/-- CPC, the cells in one column of one chip's region (R5). -/
def cpc (c : Config) : Nat := c.h / (c.chipsY * c.ledsPerCell)

/-- CELLS, the cells of one chip (R5). -/
def cells (c : Config) : Nat := c.w * c.h * c.colors / (c.ledsPerCell * c.chips)

/-- BAND, the cells of one colour channel of one chip (R5). -/
def band (c : Config) : Nat := c.cells / c.colors

/-- DATA_MASK = 2^LEDS_PER_CELL - 1 (R5). -/
def dataMask (c : Config) : Byte := BitVec.ofNat 8 (2 ^ c.ledsPerCell - 1)

/-- The number of frame buffer cells, CELLS * CHIPS (R13). -/
def size (c : Config) : Nat := c.cells * c.chips

/-- Length of the host command word (R53). -/
def hostBits (c : Config) : Nat := 2 + c.colors + 2 * c.coordBits

/-- Length of a command frame (R53). -/
def cmdFrameBits (c : Config) : Nat := c.idBits + c.cmdPayloadBits + c.cmdPadBits

/-- Length of a write frame (R53, R60). -/
def writeFrameBits (c : Config) : Nat := c.idBits + c.addrBits + c.ledsPerCell

/-- The five configuration payloads in the order INIT sends them (R62, R110). -/
def initPayloads (c : Config) : List Nat :=
  [c.cmdSysDisable.toNat, c.cmdPanelConfig.toNat, c.cmdMasterMode.toNat, c.cmdSysEnable.toNat, c.cmdLedOn.toNat]

/-- MOD_FLAG, bit 7 of a cell (R5, R14). -/
def modFlag : Byte := 0x80#8

/-! ### OPEN parameters (R9; D15, D16 of 92_eei_decisions.md): free values, no proof can see one. -/

/-- The OPEN value of OP_COMMAND (its low ID_BITS bits are used). -/
opaque openOpCommand : Nat

/-- Which of the values other than OP_COMMAND the OPEN parameter OP_WRITE takes. -/
opaque openOpWriteChoice : Nat

/-- The OPEN value of CMD_SYS_DISABLE. -/
opaque openSysDisable : Nat

/-- The OPEN value of CMD_PANEL_CONFIG. -/
opaque openPanelConfig : Nat

/-- The OPEN value of CMD_MASTER_MODE. -/
opaque openMasterMode : Nat

/-- The OPEN value of CMD_SYS_ENABLE. -/
opaque openSysEnable : Nat

/-- The OPEN value of CMD_LED_ON. -/
opaque openLedOn : Nat

/-! ### Other free values: what the reference receiver's rules call unspecified (R46, R49, R50, R136, U7), and the frame
buffer after a reset event (R27, U11). The first argument is a counter of the state that each use advances. -/

/-- Stage value of the chip with index `k` after a CLK pulse whose line level was unknown (R46): 0, 1 or X, taken
modulo 3. -/
opaque freeStage (n k : Nat) : Nat

/-- Whether the chip with index `k` latches the stray bit of a `Set(WR, 1)` whose line had an unknown level (R136): it
does when the value is odd. -/
opaque freeStrayLatch (n k : Nat) : Nat

/-- Display RAM cell `a` of the chip with index `k` after an unspecified frame effect (R49, R50, U7). -/
opaque freeRamCell (n k a : Nat) : Nat

/-- How many entries the command log of the chip with index `k` has after an unspecified frame effect (U7). -/
opaque freeLogLength (n k : Nat) : Nat

/-- Entry `j` of the command log of the chip with index `k` after an unspecified frame effect (U7). -/
opaque freeLogEntry (n k j : Nat) : Nat

/-- Frame buffer cell `key` after the reset event number `n` (R27, U11). -/
opaque freeCell (n key : Nat) : Nat

end Config

end Sys2Proof
end

