-- ==== Sys2Proof/Syntax.lean ====
section
/-! DEFINITION. The instructions: one constructor for each row of spec/opcode_table.json. The four host operations
(R8) are what the host issues; the seven frames are the transactions the bus encoder sends to one chip (R58, R59). -/

namespace Sys2Proof

/-- The instructions. `k` is the select number of the chip a frame goes to: a frame does not carry it, the SELECT
sequence before the frame does (R53, R61). -/
inductive Instr where
  /-- INIT, the source's `construct` (R112). -/
  | init
  /-- PLOT x, y, color (R77); x and y are signed, color has one bit a channel. -/
  | plot (x y : Int) (color : Nat)
  /-- CLEAR (R82). -/
  | clear
  /-- COMMIT (R90). -/
  | commit
  /-- A command frame with any payload to chip `k` (R58, R100). -/
  | cmd (k payload : Nat)
  /-- The command frame of system-disable (R62, R110). -/
  | sysdis (k : Nat)
  /-- The command frame of the panel configuration (R62, R110). -/
  | panelcfg (k : Nat)
  /-- The command frame of the master-clock-mode select (R62, R110). -/
  | master (k : Nat)
  /-- The command frame of system-enable (R62, R110). -/
  | sysen (k : Nat)
  /-- The command frame of LED-driver-enable (R62, R110). -/
  | ledon (k : Nat)
  /-- A write frame: data `d` to cell address `a` of chip `k` (R59, R101). -/
  | write (k a d : Nat)
  deriving DecidableEq, Repr

/-- The four operations the host can issue (R8); the other instructions are internal procedures of the encoder. -/
def Instr.isHostOp : Instr → Bool
  | .init => true
  | .plot _ _ _ => true
  | .clear => true
  | .commit => true
  | .cmd _ _ => false
  | .sysdis _ => false
  | .panelcfg _ => false
  | .master _ => false
  | .sysen _ => false
  | .ledon _ => false
  | .write _ _ _ => false

/-- The select number a frame instruction goes to. -/
def Instr.select? : Instr → Option Nat
  | .init => none
  | .plot _ _ _ => none
  | .clear => none
  | .commit => none
  | .cmd k _ => some k
  | .sysdis k => some k
  | .panelcfg k => some k
  | .master k => some k
  | .sysen k => some k
  | .ledon k => some k
  | .write k _ _ => some k

end Sys2Proof
end

