-- ==== Sys2Proof/WellFormed.lean ====
section
/-! DEFINITION. Well-formed configurations (R7, R9) and well-formed instructions of a configuration. -/

namespace Sys2Proof

namespace Config

/-- The six parameters of R5 are positive (R7). -/
def parametersPositive (c : Config) : Bool :=
  decide (0 < c.w) && decide (0 < c.h) && decide (0 < c.chipsX) && decide (0 < c.chipsY) && decide (0 < c.colors)
    && decide (0 < c.ledsPerCell)

/-- The panel divides into equal chip regions, and those into whole cells (R7). -/
def regionsEqual (c : Config) : Bool :=
  decide (c.w % c.chipsX = 0) && decide (c.h % c.chipsY = 0) && decide (c.chh % c.ledsPerCell = 0)

/-- The data bits fit below the modified flag (R7). -/
def cellFits (c : Config) : Bool := decide (c.ledsPerCell ≤ 7)

/-- Every cell address fits the address field (R7). -/
def addressFits (c : Config) : Bool := decide (c.cells ≤ 2 ^ c.addrBits)

/-- W and H are positive signed COORD_BITS-bit values (R7, R9). -/
def panelFits (c : Config) : Bool := decide (c.w < 2 ^ (c.coordBits - 1)) && decide (c.h < 2 ^ (c.coordBits - 1))

/-- SENTINEL has the flag or non-zero data bits, so that every cell counts as changed (R9, R109). -/
def sentinelAdmissible (c : Config) : Bool := c.sentinel.msb || decide (c.sentinel &&& c.dataMask ≠ 0)

/-- The configuration is well-formed (R7, with R9's condition on SENTINEL). OP_COMMAND ≠ OP_WRITE and the widths of
the opcodes and payloads hold by the record's type; CHIPS ≥ 1 follows from the positive parameters. -/
def wf (c : Config) : Bool :=
  c.parametersPositive && c.regionsEqual && c.cellFits && c.addressFits && c.panelFits && c.sentinelAdmissible

end Config

/-- A coordinate is a signed COORD_BITS-bit value (R54, R77). -/
def coordInRange (c : Config) (v : Int) : Bool :=
  decide (-(2 : Int) ^ (c.coordBits - 1) ≤ v) && decide (v < (2 : Int) ^ (c.coordBits - 1))

/-- A select number of a chip: 1 to CHIPS (R96, R100, R101). -/
def selectInRange (c : Config) (k : Nat) : Bool := decide (1 ≤ k) && decide (k ≤ c.chips)

/-- The instruction's operands are ones the configuration's encodings can carry (R54, R100, R101). -/
def Instr.wf (c : Config) : Instr → Bool
  | .init => true
  | .plot x y color => coordInRange c x && coordInRange c y && decide (color < 2 ^ c.colors)
  | .clear => true
  | .commit => true
  | .cmd k payload => selectInRange c k && decide (payload < 2 ^ c.cmdPayloadBits)
  | .sysdis k => selectInRange c k
  | .panelcfg k => selectInRange c k
  | .master k => selectInRange c k
  | .sysen k => selectInRange c k
  | .ledon k => selectInRange c k
  | .write k a d => selectInRange c k && decide (a < c.cells) && decide (d < 2 ^ c.ledsPerCell)

end Sys2Proof
end

