-- ==== Sys2Proof/Decode.lean ====
section
/-! DEFINITION. The default instance of the configuration (R5, R9), and decoding and encoding: the host command word
(R54, R55), the bus frames (R57 to R60), and the decoder of a line-event sequence (R67). -/

namespace Sys2Proof

namespace Config

/-! ### The default instance -/

/-- OP_WRITE of the default instance, any of the seven 3-bit values other than OP_COMMAND, differs from it (R9). -/
theorem openIds_differ :
    BitVec.ofNat 3 openOpCommand ≠ BitVec.ofNat 3 (openOpCommand + 1 + openOpWriteChoice % 7) := by
  intro h
  have h' := congrArg BitVec.toNat h
  simp only [BitVec.toNat_ofNat] at h'
  omega

/-- The default instance (R5, R9): 32 by 16 pixels, four chips, two colours, four LEDs a cell. The OPEN parameters
are free values. -/
def standard : Config where
  w := 32
  h := 16
  chipsX := 2
  chipsY := 2
  colors := 2
  ledsPerCell := 4
  idBits := 3
  cmdPayloadBits := 7
  cmdPadBits := 1
  addrBits := 6
  opCommand := BitVec.ofNat 3 openOpCommand
  opWrite := BitVec.ofNat 3 (openOpCommand + 1 + openOpWriteChoice % 7)
  idsDiffer := openIds_differ
  cmdSysDisable := BitVec.ofNat 7 openSysDisable
  cmdPanelConfig := BitVec.ofNat 7 openPanelConfig
  cmdMasterMode := BitVec.ofNat 7 openMasterMode
  cmdSysEnable := BitVec.ofNat 7 openSysEnable
  cmdLedOn := BitVec.ofNat 7 openLedOn
  padValue := 0
  sentinel := 0xFF
  coordBits := 8
  yEqH := .fault

end Config

/-- Why a request names no instruction. Each is raised by `decodeRequest` (or `decodeBus`) and is safe: the machine
stops where the hardware could not be presented such a request. -/
inductive DecodeError where
  /-- The word has more bits than the host port (R53). -/
  | hostWordTooWide
  /-- The select number is no chip's (R96). -/
  | selectOutOfRange
  /-- The bits are too few to hold an id (R67). -/
  | frameTooShort
  /-- The id is OP_COMMAND or OP_WRITE and the length is not that frame's (R53, R67). -/
  | frameLength
  /-- The id is neither OP_COMMAND nor OP_WRITE: never sent (R63). -/
  | unknownFrameId
  /-- The pad bits are not PAD_VALUE: never sent (R58). -/
  | padMismatch
  /-- The address is no cell's: never sent (R63). -/
  | addressOutOfRange
  /-- A bit was latched while DATA had never been driven (R67). -/
  | undrivenBit
  deriving DecidableEq, Repr

/-! ### Fields of a number -/

/-- `v[lo+len-1 : lo]` as an unsigned integer (R10). -/
def field (v lo len : Nat) : Nat := v / 2 ^ lo % 2 ^ len

/-- `sext_n v` (R10): the n-bit field read as a two's-complement integer. -/
def sext (n v : Nat) : Int := if v < 2 ^ (n - 1) then (v : Int) else (v : Int) - (2 : Int) ^ n

/-- The n-bit two's-complement field of an integer. -/
def unsext (n : Nat) (v : Int) : Nat := (v % (2 : Int) ^ n).toNat

/-- The low `n` bits of `v`, most significant first (R57). -/
def bitsMsb (v : Nat) : Nat → List Bool
  | 0 => []
  | n + 1 => v.testBit n :: bitsMsb v n

/-- A bit string read most significant first, on from `acc`. -/
def natOfBitsFrom (acc : Nat) : List Bool → Nat
  | [] => acc
  | b :: bs => natOfBitsFrom (2 * acc + b.toNat) bs

/-- A bit string read most significant first (R67). -/
def natOfBits (bs : List Bool) : Nat := natOfBitsFrom 0 bs

/-- The bits a list of levels stands for, when every level was driven. -/
def bitsOfLevels : List Level → Option (List Bool)
  | [] => some []
  | l :: ls =>
    match l.toBool?, bitsOfLevels ls with
    | some b, some bs => some (b :: bs)
    | _, _ => none

/-! ### The host command word -/

/-- The host command word with the given fields (R54). -/
def packHost (c : Config) (op color y x : Nat) : Nat :=
  op * 2 ^ (2 * c.coordBits + c.colors) + color * 2 ^ (2 * c.coordBits) + y * 2 ^ c.coordBits + x

/-- The operation a host word's fields name (R54, R55): every `op` names one, and the operations without operands
ignore the other fields. -/
def hostInstr (c : Config) (op color y x : Nat) : Instr :=
  if op = 0 then .init
  else if op = 1 then .plot (sext c.coordBits x) (sext c.coordBits y) color
  else if op = 2 then .clear
  else .commit

/-- Decode a host command word (R54). -/
def decodeHost (c : Config) (w : Nat) : Except DecodeError Instr :=
  if w < 2 ^ c.hostBits then
    .ok (hostInstr c (field w (2 * c.coordBits + c.colors) 2) (field w (2 * c.coordBits) c.colors)
      (field w c.coordBits c.coordBits) (field w 0 c.coordBits))
  else .error .hostWordTooWide

/-! ### The bus frames -/

/-- The fields of a bus frame (R58, R59). -/
inductive FrameFields where
  | command (payload pad : Nat)
  | write (address data : Nat)
  deriving DecidableEq, Repr

/-- The pad field as sent: the low CMD_PAD_BITS bits of PAD_VALUE (R58, R99). -/
def padField (c : Config) : Nat := c.padValue.toNat % 2 ^ c.cmdPadBits

/-- The bits of a command frame, first sent first (R58). -/
def commandBits (c : Config) (payload : Nat) : List Bool :=
  bitsMsb c.opCommand.toNat c.idBits ++ bitsMsb payload c.cmdPayloadBits ++ bitsMsb c.padValue.toNat c.cmdPadBits

/-- The bits of a write frame, first sent first (R59, R60). -/
def writeBits (c : Config) (a d : Nat) : List Bool :=
  bitsMsb c.opWrite.toNat c.idBits ++ bitsMsb a c.addrBits ++ bitsMsb d c.ledsPerCell

/-- The fields of a frame's bits, by the id and the length (R67). -/
def frameFields (c : Config) (bits : List Bool) : Except DecodeError FrameFields :=
  let rest := bits.drop c.idBits
  if bits.length < c.idBits then .error .frameTooShort
  else if natOfBits (bits.take c.idBits) = c.opCommand.toNat then
    if bits.length = c.cmdFrameBits then
      .ok (.command (natOfBits (rest.take c.cmdPayloadBits)) (natOfBits (rest.drop c.cmdPayloadBits)))
    else .error .frameLength
  else if natOfBits (bits.take c.idBits) = c.opWrite.toNat then
    if bits.length = c.writeFrameBits then
      .ok (.write (natOfBits (rest.take c.addrBits)) (natOfBits (rest.drop c.addrBits)))
    else .error .frameLength
  else .error .unknownFrameId

/-- The instruction a command frame to chip `k` stands for: the row of its payload's name where it has one (R62), in
the order of R62, and the general command frame otherwise. -/
def commandInstr (c : Config) (k payload : Nat) : Instr :=
  if payload = c.cmdSysDisable.toNat then .sysdis k
  else if payload = c.cmdPanelConfig.toNat then .panelcfg k
  else if payload = c.cmdMasterMode.toNat then .master k
  else if payload = c.cmdSysEnable.toNat then .sysen k
  else if payload = c.cmdLedOn.toNat then .ledon k
  else .cmd k payload

/-- Decode one bus transaction: the select number and the frame's bits (R58, R59, R61, R63). -/
def decodeFrame (c : Config) (k : Nat) (bits : List Bool) : Except DecodeError Instr :=
  if selectInRange c k then
    match frameFields c bits with
    | .error e => .error e
    | .ok (.command payload pad) => if pad = padField c then .ok (commandInstr c k payload) else .error .padMismatch
    | .ok (.write a d) => if a < c.cells then .ok (.write k a d) else .error .addressOutOfRange
  else .error .selectOutOfRange

/-- Decode a request; `none` is the reset event, which is no instruction (R127). -/
def decodeRequest (c : Config) : Request → Except DecodeError (Option Instr)
  | .host w => (decodeHost c w).map some
  | .frame k bits => (decodeFrame c k bits).map some
  | .reset => .ok none

/-- The levels of DATA at each rising edge of WR, in order (R67): `data` is the level DATA has, `wrLow` says that the
latest WR event drove it low. -/
def strobedLevels (data : Level) (wrLow : Bool) : List Event → List Level
  | [] => []
  | .set .data b :: es => strobedLevels (Level.ofBool b) wrLow es
  | .set .wr false :: es => strobedLevels data true es
  | .set .wr true :: es => if wrLow then data :: strobedLevels data false es else strobedLevels data false es
  | .set .clk _ :: es => strobedLevels data wrLow es
  | .set .cs _ :: es => strobedLevels data wrLow es
  | .cfg _ :: es => strobedLevels data wrLow es

/-- The decoder of the bus (R67): the fields of the frame that the events of one selection carry. -/
def decodeBus (c : Config) (es : List Event) : Except DecodeError FrameFields :=
  match bitsOfLevels (strobedLevels .unknown false es) with
  | some bits => frameFields c bits
  | none => .error .undrivenBit

/-! ### The encoder -/

/-- The canonical request of an instruction: the canonical host word (R55, R56), or the frame's bits with the select
number (R58, R59, R61). -/
def encode (c : Config) : Instr → Request
  | .init => .host (packHost c 0 0 0 0)
  | .plot x y color => .host (packHost c 1 color (unsext c.coordBits y) (unsext c.coordBits x))
  | .clear => .host (packHost c 2 0 0 0)
  | .commit => .host (packHost c 3 0 0 0)
  | .cmd k payload => .frame k (commandBits c payload)
  | .sysdis k => .frame k (commandBits c c.cmdSysDisable.toNat)
  | .panelcfg k => .frame k (commandBits c c.cmdPanelConfig.toNat)
  | .master k => .frame k (commandBits c c.cmdMasterMode.toNat)
  | .sysen k => .frame k (commandBits c c.cmdSysEnable.toNat)
  | .ledon k => .frame k (commandBits c c.cmdLedOn.toNat)
  | .write k a d => .frame k (writeBits c a d)

/-- The instruction a request of `i` decodes to: `i` itself, but for command frames with equal payloads, which are one
and the same frame and decode to the first name of R62 that has the payload. -/
def Instr.canonical (c : Config) : Instr → Instr
  | .init => .init
  | .plot x y color => .plot x y color
  | .clear => .clear
  | .commit => .commit
  | .cmd k payload => commandInstr c k payload
  | .sysdis k => commandInstr c k c.cmdSysDisable.toNat
  | .panelcfg k => commandInstr c k c.cmdPanelConfig.toNat
  | .master k => commandInstr c k c.cmdMasterMode.toNat
  | .sysen k => commandInstr c k c.cmdSysEnable.toNat
  | .ledon k => commandInstr c k c.cmdLedOn.toNat
  | .write k a d => .write k a d

/-! ### Words numbered as spec/opcode_table.json numbers them -/

/-- The request that stands for a word of the opcode table: the host rows have 20 bits, three whole bytes; the frame
rows have 11 and 13 bits, two whole bytes, and are told apart by the id (R64). The table gives a frame no select
number: 1 is taken. A word that is no command frame is read as a write frame, and one with a bit set above the 13 keeps
all its bits, so that the decoder refuses it (DESIGN CHOICE, log entry 5). -/
def tableRequest (c : Config) (nbits w : Nat) : Request :=
  if 16 < nbits then .host w
  else if w / 2 ^ (c.cmdFrameBits - c.idBits) = c.opCommand.toNat then .frame 1 (bitsMsb w c.cmdFrameBits)
  else .frame 1 (bitsMsb w (max c.writeFrameBits (w.log2 + 1)))

/-- The instruction the decoder reads from a word of the opcode table, in the default instance. -/
def decodeTableWord (nbits w : Nat) : Option Instr :=
  match decodeRequest Config.standard (tableRequest Config.standard nbits w) with
  | .ok i => i
  | .error _ => none

end Sys2Proof
end

