-- ==== Sys2Proof/Machine/State.lean ====
section
/-! DEFINITION. The state: the controller's own (R13 to R24), its static configuration (R23), the reference receiver
at the far end of the bus (R25, R46 to R52), the requests that wait, and the reasons a step can stop. -/

namespace Sys2Proof.Machine

open Sys2Proof

/-- Cells by key, in one canonical form (`Memory.wf`): keys strictly rising, no entry equal to what an unlisted key
reads as. The frame buffer's key of cell (a, c) is `a * CHIPS + c` (R32); a display RAM's key is the address. -/
abbrev Memory := List Host.Cell

/-- What an unlisted cell reads as: 0x00, the value every cell has after INIT (R113); what a cell holds before INIT is
unspecified (R27, R51; log entry 6). -/
def Memory.unlisted : Byte := 0#8

/-- The canonical form. -/
abbrev Memory.wf (m : Memory) : Prop :=
  m.Pairwise (fun p q => p.1 < q.1) ∧ ∀ p ∈ m, p.2 ≠ Memory.unlisted

/-- One display-driver chip of the reference receiver: its select stage (R46), the bits latched since it was selected
(R48), its display RAM (R31, R49) and its command log, oldest first (R50). -/
structure Chip where
  stage : Level
  acc : List Level
  ram : Memory
  log : List Nat
  deriving DecidableEq, Repr

/-- The reference receiver: the chips in chain order, the head being select number 1 (R97), and a counter of the
model's own from which the values its rules call unspecified are taken (log entry 9). -/
structure Receiver where
  chips : List Chip
  free : Nat
  deriving DecidableEq, Repr

/-- The machine's state. -/
structure State where
  /-- The static configuration: read-only, no step changes it (R23). -/
  cfg : Config
  /-- The frame buffer FB (R13, R14). -/
  fb : Memory
  /-- `level[L]` (R19). -/
  levels : Lines Level
  /-- `configured[L]` (R20). -/
  configured : Lines Bool
  /-- The trace T since reset, oldest first (R21). -/
  trace : List Event
  /-- INIT has completed since reset (R22). -/
  inited : Bool
  /-- `sel`, the select number last established; `none` is X, unknown (R24). -/
  sel : Option Nat
  /-- The reference receiver (R25). -/
  rx : Receiver
  /-- The requests the host has issued and the machine has not taken, oldest first (R18, R41). -/
  pending : List Request
  /-- How many reset events there have been: the model's own, the free contents of the frame buffer after a reset
  depend on it (R27; log entry 9). -/
  resets : Nat
  deriving DecidableEq, Repr

/-- The faults of a model (R118): they mark cases the source gives no meaning, and are safe. -/
inductive Fault where
  /-- Code 1, raised by PLOT, CLEAR and COMMIT while `inited` = 0; records the operation (R118). Safe. -/
  | useBeforeInit (op : Instr)
  /-- Code 2, raised by PLOT when y = H passes the range check and names no cell; records x, y and the chip index
  (R78, R118). Safe. -/
  | chipIndexOutOfRange (x y : Int) (chip : Nat)
  deriving DecidableEq, Repr

/-- The code of a fault (R118). -/
def Fault.code : Fault → Nat
  | .useBeforeInit _ => 1
  | .chipIndexOutOfRange _ _ _ => 2

/-- Why a step has no meaning. -/
inductive Refusal where
  /-- The instruction has no meaning yet; raised by exec's arms. Safe. -/
  | notModelled (mnemonic : String)
  /-- The configuration is not well-formed: nothing runs (R7, U8, R118); raised by step and by every meaning. Safe. -/
  | illFormedConfig
  /-- The request decodes to no instruction; raised by step. Safe. -/
  | undecodable (why : DecodeError)
  deriving DecidableEq, Repr

/-- A chip as the model resets it: what the spec leaves unspecified (R27, R51) is X, empty or 0 (log entry 6). -/
def Chip.reset : Chip where
  stage := .unknown
  acc := []
  ram := []
  log := []

/-- The state right after the first reset, in the default instance (R27): no line driven or configured, an empty
trace, `inited` = 0, `sel` unknown; the frame buffer and the chips hold values the spec leaves unspecified (log
entry 6); the host has issued nothing. -/
def State.reset : State where
  cfg := Config.standard
  fb := []
  levels := ⟨.unknown, .unknown, .unknown, .unknown⟩
  configured := ⟨false, false, false, false⟩
  trace := []
  inited := false
  sel := none
  rx := ⟨List.replicate Config.standard.chips Chip.reset, 0⟩
  pending := []
  resets := 0

end Sys2Proof.Machine
end

