-- ==== Sys2Proof/Machine/Receiver.lean ====
section
/-! DEFINITION. The reference receiver: the chain of select stages, the bit
accumulators and the frames the chips take (R46 to R51). The controller never reads any of it (R25, R117). -/

namespace Sys2Proof.Machine

open Sys2Proof

/-! ### The chain of select stages -/

/-- A chip whose stage takes a value: a change to or from 0 empties the accumulator (R48), and X, which may be 0,
counts as 0 there (R51, R136); a chip whose stage keeps its value keeps its accumulator, whatever R51 says of every
one (log entry 18). -/
def Chip.setStage (v : Level) (c : Chip) : Chip :=
  if c.stage = v then c else { c with stage := v, acc := [] }

/-- A rising edge of CLK: each stage takes the one before it, the first takes the level of CS (R46). -/
def shiftChain (inp : Level) : List Chip → List Chip
  | [] => []
  | c :: cs => c.setStage inp :: shiftChain c.stage cs

/-- A free stage value (R46, log entry 9). -/
def freeStageLevel (n k : Nat) : Level :=
  if Config.freeStage n k % 3 = 0 then .low else if Config.freeStage n k % 3 = 1 then .high else .unknown

/-- `Set(CLK, 1)` while the level of CLK is X: the effect on the stages is unspecified (R46). -/
def scrambleChain (n : Nat) (k : Nat) : List Chip → List Chip
  | [] => []
  | c :: cs => c.setStage (freeStageLevel n k) :: scrambleChain n (k + 1) cs

/-! ### Frames at a chip -/

/-- What a chip does when its accumulator has just taken a bit (R49, R50). -/
inductive FrameEffect where
  | nothing
  | writeRam (a d : Nat)
  | logCommand (payload : Nat)
  | unspecified
  deriving DecidableEq, Repr

/-- The number a list of levels is, most significant first, when every level is known. -/
def levelsToNat (ls : List Level) : Option Nat := (bitsOfLevels ls).map natOfBits

/-- The write frame at the receiver (R49): complete at its last data bit; an address that is no cell's writes nothing;
bits after that have an unspecified effect. -/
def writeFrameEffect (c : Config) (acc : List Level) : FrameEffect :=
  let rest := acc.drop c.idBits
  if acc.length < c.writeFrameBits then .nothing
  else if acc.length = c.writeFrameBits then
    match levelsToNat (rest.take c.addrBits), levelsToNat (rest.drop c.addrBits) with
    | some a, some d => if a < c.cells then .writeRam a d else .nothing
    | _, _ => .unspecified
  else .unspecified

/-- The command frame at the receiver (R50): complete with its pad bits, which are ignored. -/
def commandFrameEffect (c : Config) (acc : List Level) : FrameEffect :=
  if acc.length = c.cmdFrameBits then
    match levelsToNat ((acc.drop c.idBits).take c.cmdPayloadBits) with
    | some p => .logCommand p
    | none => .unspecified
  else .nothing

/-- The effect of the bit just latched (R49, R50): by the id, once the id is complete; an id that is neither
opcode has an unspecified effect (R50, U7). -/
def frameEffect (c : Config) (acc : List Level) : FrameEffect :=
  if acc.length < c.idBits then .nothing
  else match levelsToNat (acc.take c.idBits) with
    | some id =>
      if id = c.opWrite.toNat then writeFrameEffect c acc
      else if id = c.opCommand.toNat then commandFrameEffect c acc
      else .unspecified
    | none => .unspecified

/-- Free display RAM contents of a chip (U7): any LEDS_PER_CELL-bit value in each of its cells. -/
def freeRam (c : Config) (n k : Nat) : Memory :=
  (List.range c.cells).foldl
    (fun m a => Memory.write a (BitVec.ofNat 8 (Config.freeRamCell n k a % 2 ^ c.ledsPerCell)) m) []

/-- A free command log of a chip (U7). -/
def freeLog (c : Config) (n k : Nat) : List Nat :=
  (List.range (Config.freeLogLength n k)).map (fun j => Config.freeLogEntry n k j % 2 ^ c.cmdPayloadBits)

/-- The chip with index `k` takes a frame's effect. -/
def Chip.takeEffect (c : Config) (n k : Nat) (ch : Chip) : FrameEffect → Chip
  | .nothing => ch
  | .writeRam a d => { ch with ram := Memory.write a (BitVec.ofNat 8 d) ch.ram }
  | .logCommand p => { ch with log := ch.log ++ [p] }
  | .unspecified => { ch with ram := freeRam c n k, log := freeLog c n k }

/-- A rising edge of WR at the chip with index `k`: a selected chip latches the level of DATA (R47, R48). -/
def Chip.latch (c : Config) (n k : Nat) (d : Level) (ch : Chip) : Chip :=
  if ch.stage = .low then
    { ch with acc := ch.acc ++ [d] }.takeEffect c n k (frameEffect c (ch.acc ++ [d]))
  else ch

/-- The chips at a rising edge of WR, from chip index `k` on. -/
def latchChips (c : Config) (n : Nat) (d : Level) (k : Nat) : List Chip → List Chip
  | [] => []
  | ch :: cs => ch.latch c n k d :: latchChips c n d (k + 1) cs

/-- A `Set(WR, 1)` whose line had an unknown level, at the chip with index `k`: a chip that may be selected (stage 0 or
X) may latch the level of DATA, by a free value (R136, log entry 8). The bit is in the accumulator alone: it completes no
frame, since the flush that follows discards it (R136) and INIT's commands alone make the log grow (R113). -/
def Chip.strayLatch (n k : Nat) (d : Level) (ch : Chip) : Chip :=
  if ch.stage = .high then ch
  else { ch with acc := if Config.freeStrayLatch n k % 2 = 1 then ch.acc ++ [d] else ch.acc }

/-- The chips at a `Set(WR, 1)` whose line had an unknown level, from chip index `k` on (R136). -/
def strayChips (n : Nat) (d : Level) (k : Nat) : List Chip → List Chip
  | [] => []
  | ch :: cs => ch.strayLatch n k d :: strayChips n d (k + 1) cs

/-- Some selected chip's effect at this rising edge of WR is unspecified. -/
def latchIsFree (c : Config) (d : Level) (chips : List Chip) : Bool :=
  chips.any (fun ch => decide (ch.stage = .low) && decide (frameEffect c (ch.acc ++ [d]) = .unspecified))

/-! ### One event at the receiver -/

/-- `Set(CLK, 1)` at the receiver, by the level CLK had (R46). -/
def Receiver.clkHigh (lv : Lines Level) (r : Receiver) : Receiver :=
  match lv.clk with
  | .low => { r with chips := shiftChain lv.cs r.chips }
  | .high => r
  | .unknown => { chips := scrambleChain r.free 0 r.chips, free := r.free + 1 }

/-- `Set(WR, 1)` at the receiver, by the level WR had (R48; R136 for the unknown level WR has after a reset). -/
def Receiver.wrHigh (c : Config) (lv : Lines Level) (r : Receiver) : Receiver :=
  match lv.wr with
  | .low =>
    { chips := latchChips c r.free lv.data 0 r.chips
      free := if latchIsFree c lv.data r.chips then r.free + 1 else r.free }
  | .high => r
  | .unknown => { chips := strayChips r.free lv.data 0 r.chips, free := r.free + 1 }

/-- One line event at the receiver, `lv` being the levels before it (R46, R48): no other event changes it. -/
def Receiver.take (c : Config) (lv : Lines Level) (r : Receiver) : Event → Receiver
  | .set .clk true => r.clkHigh lv
  | .set .wr true => r.wrHigh c lv
  | .set .clk false => r
  | .set .wr false => r
  | .set .data _ => r
  | .set .cs _ => r
  | .cfg _ => r

end Sys2Proof.Machine
end

