-- ==== Sys2Proof/Machine/Ops.lean ====
section
/-! DEFINITION. The named operations over the state: cells, line events, the shared guards of every meaning, and the
reset event. A fault ends an operation before it has changed anything, and there is no trap entry and no return
(R120): `Guard` below is all there is to taking an exception on this hardware. -/

namespace Sys2Proof.Machine

open Sys2Proof

/-- A step's answer on this machine. -/
abbrev Result := Host.Outcome State Fault Refusal

/-! ### Frame buffer cells -/

/-- The key of cell (a, c): its place in the linear row-major array (R32). -/
def cellKey (c : Config) (a chip : Nat) : Nat := a * c.chips + chip

/-- `FB[a][c]` (R10, R13). -/
def State.cell (s : State) (a chip : Nat) : Byte := Memory.read s.fb (cellKey s.cfg a chip)

/-- `FB[a][c] <- v` (R10). -/
def State.setCell (s : State) (a chip : Nat) (v : Byte) : State :=
  { s with fb := Memory.write (cellKey s.cfg a chip) v s.fb }

/-! ### Line events -/

/-- The levels after an event (R10, R19). -/
def levelsAfter (lv : Lines Level) : Event → Lines Level
  | .set l b => lv.put l (Level.ofBool b)
  | .cfg _ => lv

/-- The levels and the receiver after an event. -/
def busStep (c : Config) (b : Lines Level × Receiver) (e : Event) : Lines Level × Receiver :=
  (levelsAfter b.1 e, b.2.take c b.1 e)

/-- The levels and the receiver after a list of events, taken in order (R42). -/
def busRun (c : Config) (b : Lines Level × Receiver) (es : List Event) : Lines Level × Receiver :=
  es.foldl (busStep c) b

/-- `emit`, for a list of events in order (R10): each is appended to the trace, sets its line's level, and is seen by
the reference receiver. -/
def State.emit (s : State) (es : List Event) : State :=
  let b := busRun s.cfg (s.levels, s.rx) es
  { s with trace := s.trace ++ es, levels := b.1, rx := b.2 }

/-- Configure a line as an output and drive it to its idle level (R108). -/
def State.configureLine (s : State) (l : Line) (idle : Bool) : State :=
  { s.emit [.cfg l, .set l idle] with configured := s.configured.put l true }

/-! ### Guards -/

/-- A configuration that is not well-formed is refused before anything runs (R7, R118, U8). -/
def Guard.config (s : State) (k : Result) : Result :=
  if s.cfg.wf then k else .refused .illFormedConfig

/-- PLOT, CLEAR and COMMIT fault while `inited` = 0, before anything else (R22, R118, R119, R120). -/
def Guard.inited (op : Instr) (s : State) (k : Result) : Result :=
  if s.inited then k else .fault (.useBeforeInit op)

/-! ### The reset event -/

/-- The frame buffer after a reset event: any 8-bit value in each cell (R27, U11). -/
def freeFrameBuffer (c : Config) (n : Nat) : Memory :=
  (List.range c.size).foldl (fun m key => Memory.write key (BitVec.ofNat 8 (Config.freeCell n key)) m) []

/-- The reset event (R27, R127): the controller takes its reset values; the configuration, the chips and the host's
requests are not touched. -/
def State.resetEvent (s : State) : State :=
  { s with
    fb := freeFrameBuffer s.cfg s.resets
    levels := ⟨.unknown, .unknown, .unknown, .unknown⟩
    configured := ⟨false, false, false, false⟩
    trace := []
    inited := false
    sel := none
    resets := s.resets + 1 }

end Sys2Proof.Machine
end

