-- ==== Sys2Proof/Machine/Operands.lean ====
section
/-! DEFINITION. The operands of PLOT: the range check, the coordinate mapper and the colour's channels (R72 to R75),
and the pixel function that inverts the mapping (R81). -/

namespace Sys2Proof.Machine

open Sys2Proof

/-- The range check rejects the pixel (R72): `y > H`, not `y >= H`. -/
def rangeRejects (c : Config) (x y : Int) : Bool :=
  decide (x < 0) || decide ((c.w : Int) ≤ x) || decide (y < 0) || decide ((c.h : Int) < y)

/-- Chip index of an accepted pixel (R73). -/
def chipIndex (c : Config) (x y : Nat) : Nat := x / c.cw + c.chipsX * (y / c.chh)

/-- Base cell address of an accepted pixel (R73, R74). -/
def baseAddress (c : Config) (x y : Nat) : Nat := x % c.cw * c.cpc + y % c.chh / c.ledsPerCell

/-- Bit position inside the cell (R74). -/
def bitPosition (c : Config) (y : Nat) : Nat := c.ledsPerCell - 1 - y % c.ledsPerCell

/-- Bit mask inside the cell (R74). -/
def bitMask (c : Config) (y : Nat) : Byte := 1#8 <<< bitPosition c y

/-- Channel `ch` is lit in a colour (R11). -/
def channelLit (color ch : Nat) : Bool := color.testBit ch

/-- Target cell address of channel `ch` (R75). -/
def channelAddress (c : Config) (base ch : Nat) : Nat := base + ch * c.band

/-- The colours by name (R11); ORANGE is BOTH (R66). -/
def colorOff : Nat := 0
def colorPrimary : Nat := 1
def colorSecondary : Nat := 2
def colorBoth : Nat := 3

/-- The pixel function (R81): the colour the frame buffer shows at an in-panel pixel. The controller has no operation
that computes it. -/
def pixel (s : State) (x y : Nat) : Nat :=
  (List.range s.cfg.colors).foldl
    (fun n ch =>
      n + (if s.cell (channelAddress s.cfg (baseAddress s.cfg x y) ch) (chipIndex s.cfg x y) &&& bitMask s.cfg y = 0#8
        then 0 else 2 ^ ch)) 0

end Sys2Proof.Machine
end

