-- ==== Sys2Proof/Machine/Flags.lean ====
section
/-! DEFINITION. The flags of the machine, one modified flag M per frame buffer cell (R14, R15): how it is read, set by
the cell updater (R75, R76) and cleared (R89). There are no other flags. -/

namespace Sys2Proof.Machine

open Sys2Proof

/-- `data(v)`, the LED data of a cell (R14). -/
def cellData (c : Config) (v : Byte) : Byte := v &&& c.dataMask

/-- `mod(v)`, the modified flag of a cell (R14). -/
def modified (v : Byte) : Bool := v.msb

/-- What the cell updater leaves in a cell that holds `old`, for the candidate data `v` (R76). -/
def updatedCell (c : Config) (old v : Byte) : Byte :=
  if cellData c old = v then old else v ||| Config.modFlag

/-- CellUpdate on the cell with the given key (R76): a store only when the data differs. -/
def cellUpdate (c : Config) (key : Nat) (v : Byte) (fb : Memory) : Memory :=
  if cellData c (Memory.read fb key) = v then fb else Memory.write key (v ||| Config.modFlag) fb

/-- The new data of one channel (R75): the mask's bit set when the channel is lit, cleared when it is not. -/
def plottedData (c : Config) (old mask : Byte) (lit : Bool) : Byte :=
  if lit then cellData c old ||| mask else cellData c old &&& ~~~mask &&& c.dataMask

/-- What one channel of a PLOT leaves in its cell (R75, R76). -/
def plottedCell (c : Config) (mask : Byte) (lit : Bool) (old : Byte) : Byte :=
  updatedCell c old (plottedData c old mask lit)

/-- A cell as COMMIT leaves it once its frame is sent: the data bits only (R89). -/
def committedCell (c : Config) (v : Byte) : Byte := cellData c v

end Sys2Proof.Machine
end

