-- ==== Sys2Proof/Machine/Bus.lean ====
section
/-! DEFINITION. The chip bus protocol encoder (R94 to R102) and the seven frame rows of the opcode table. -/

namespace Sys2Proof.Machine

open Sys2Proof

/-! ### Event sequences -/

/-- CLKPULSE (R94). -/
def clkPulse : List Event := [.set .clk true, .set .clk false]

/-- `n` clock pulses. -/
def clkPulses : Nat → List Event
  | 0 => []
  | n + 1 => clkPulse ++ clkPulses n

/-- The events of SELECT(0) (R95). -/
def flushEvents (chips : Nat) : List Event := .set .cs true :: clkPulses chips

/-- The events of SELECT(k) (R95, R96). -/
def selectEvents (chips : Nat) : Nat → List Event
  | 0 => flushEvents chips
  | k + 1 => flushEvents chips ++ .set .cs false :: clkPulse ++ .set .cs true :: clkPulses k

/-- The events that send one bit (R99). -/
def bitEvents (b : Bool) : List Event := [.set .data b, .set .wr false, .set .wr true]

/-- The events that send a bit string, first bit first. -/
def bitsEvents : List Bool → List Event
  | [] => []
  | b :: bs => bitEvents b ++ bitsEvents bs

/-- The events of SENDBITS(v, n) (R99). -/
def sendBitsEvents (v n : Nat) : List Event := bitsEvents (bitsMsb v n)

/-- The events of SENDCMD(k, p) (R100). -/
def sendCmdEvents (c : Config) (k p : Nat) : List Event :=
  selectEvents c.chips k ++ sendBitsEvents c.opCommand.toNat c.idBits ++ sendBitsEvents p c.cmdPayloadBits
    ++ sendBitsEvents c.padValue.toNat c.cmdPadBits ++ selectEvents c.chips 0

/-- The events of SENDDATA(k, a, d) (R101): no deselect at the end (R102). -/
def sendDataEvents (c : Config) (k a d : Nat) : List Event :=
  selectEvents c.chips k ++ sendBitsEvents c.opWrite.toNat c.idBits ++ sendBitsEvents a c.addrBits
    ++ sendBitsEvents d c.ledsPerCell

/-! ### Procedures -/

/-- SELECT(k) (R95, R96). -/
def State.select (s : State) (k : Nat) : State :=
  { s.emit (selectEvents s.cfg.chips k) with sel := some k }

/-- SENDBITS(v, n) (R99). -/
def State.sendBits (s : State) (v n : Nat) : State := s.emit (sendBitsEvents v n)

/-- SENDCMD(k, p) (R100). -/
def State.sendCmd (s : State) (k p : Nat) : State :=
  ((((s.select k).sendBits s.cfg.opCommand.toNat s.cfg.idBits).sendBits p s.cfg.cmdPayloadBits).sendBits
    s.cfg.padValue.toNat s.cfg.cmdPadBits).select 0

/-- SENDDATA(k, a, d) (R101). -/
def State.sendData (s : State) (k a d : Nat) : State :=
  (((s.select k).sendBits s.cfg.opWrite.toNat s.cfg.idBits).sendBits a s.cfg.addrBits).sendBits d s.cfg.ledsPerCell

/-! ### The frame rows of the opcode table: internal procedures, which fault on nothing (R100, R101) -/

/-- CMD: a command frame with the payload given, to chip `k` (R58, R100). -/
def execCmd (k payload : Nat) (s : State) : Result :=
  Guard.config s (.next (s.sendCmd k payload))

/-- SYSDIS: system-disable to chip `k` (R62, R110). -/
def execSysdis (k : Nat) (s : State) : Result :=
  Guard.config s (.next (s.sendCmd k s.cfg.cmdSysDisable.toNat))

/-- PANELCFG: the panel configuration to chip `k` (R62, R110). -/
def execPanelcfg (k : Nat) (s : State) : Result :=
  Guard.config s (.next (s.sendCmd k s.cfg.cmdPanelConfig.toNat))

/-- MASTER: the master-clock-mode select to chip `k` (R62, R110). -/
def execMaster (k : Nat) (s : State) : Result :=
  Guard.config s (.next (s.sendCmd k s.cfg.cmdMasterMode.toNat))

/-- SYSEN: system-enable to chip `k` (R62, R110). -/
def execSysen (k : Nat) (s : State) : Result :=
  Guard.config s (.next (s.sendCmd k s.cfg.cmdSysEnable.toNat))

/-- LEDON: LED-driver-enable to chip `k` (R62, R110). -/
def execLedon (k : Nat) (s : State) : Result :=
  Guard.config s (.next (s.sendCmd k s.cfg.cmdLedOn.toNat))

/-- WRITE: data `d` to cell address `a` of chip `k` (R59, R101). -/
def execWrite (k a d : Nat) (s : State) : Result :=
  Guard.config s (.next (s.sendData k a d))

end Sys2Proof.Machine
end

