-- ==== Sys2Proof/Machine/Commit.lean ====
section
/-! DEFINITION. COMMIT (R87 to R92). -/

namespace Sys2Proof.Machine

open Sys2Proof

/-- The cells (a, c) in the order COMMIT visits them (R88): chips, then base addresses, then colour bands. -/
def scanOrder (c : Config) : List (Nat × Nat) :=
  (List.range c.chips).flatMap fun chip =>
    (List.range c.band).flatMap fun b =>
      (List.range c.colors).map fun ch => (b + ch * c.band, chip)

/-- The action of COMMIT on one visited cell (R89): send it and clear its flag when the flag is set, skip it when it is
not. -/
def State.commitCell (s : State) (p : Nat × Nat) : State :=
  if modified (s.cell p.1 p.2) then
    (s.sendData (p.2 + 1) p.1 (cellData s.cfg (s.cell p.1 p.2)).toNat).setCell p.1 p.2
      (committedCell s.cfg (s.cell p.1 p.2))
  else s

/-- The body of COMMIT (R90, R111). -/
def State.commitBody (s : State) : State := (scanOrder s.cfg).foldl State.commitCell s

/-- COMMIT (R90). -/
def execCommit (s : State) : Result :=
  Guard.config s (Guard.inited .commit s (.next s.commitBody))

end Sys2Proof.Machine
end

