-- ==== Sys2Proof/Machine/Plot.lean ====
section
/-! DEFINITION. The two buffer-only host operations, PLOT and CLEAR (R71 to R83). -/

namespace Sys2Proof.Machine

open Sys2Proof

/-- One channel of a PLOT on the cell with the given key (R75, R76). -/
def plotChannel (c : Config) (key : Nat) (mask : Byte) (lit : Bool) (fb : Memory) : Memory :=
  cellUpdate c key (plottedData c (Memory.read fb key) mask lit) fb

/-- The channel loop of a PLOT (R75, R77): channels in ascending order, on the keys of the cells (base + ch*BAND,
chip). -/
def plotChannels (c : Config) (base chip : Nat) (mask : Byte) (color : Nat) (fb : Memory) : Memory :=
  (List.range c.colors).foldl
    (fun m ch => plotChannel c (cellKey c (channelAddress c base ch) chip) mask (channelLit color ch) m) fb

/-- The frame buffer after a PLOT that names cells (R77). -/
def plotPixel (c : Config) (x y color : Nat) (fb : Memory) : Memory :=
  plotChannels c (baseAddress c x y) (chipIndex c x y) (bitMask c y) color fb

/-- The largest linear index of a PLOT's channels (R78). -/
def lastLinearIndex (c : Config) (x y : Nat) : Nat :=
  cellKey c (channelAddress c (baseAddress c x y) (c.colors - 1)) (chipIndex c x y)

/-- A PLOT whose chip index is no chip's, that is y = H (R78), by the parameter Y_EQ_H. Under `aliasFlat` the linear
index of R32 is the key itself, so the update is the one of an in-panel PLOT. -/
def plotBeyond (x y color : Nat) (s : State) : Result :=
  match s.cfg.yEqH with
  | .fault => .fault (.chipIndexOutOfRange x y (chipIndex s.cfg x y))
  | .aliasFlat =>
    if s.cfg.size ≤ lastLinearIndex s.cfg x y then .fault (.chipIndexOutOfRange x y (chipIndex s.cfg x y))
    else .next { s with fb := plotPixel s.cfg x y color s.fb }
  | .ignore => .next s

/-- PLOT after the `inited` test (R77, R119): the range check, then the mapping, then the chip index test. -/
def plotBody (x y : Int) (color : Nat) (s : State) : Result :=
  if rangeRejects s.cfg x y then .next s
  else if s.cfg.chips ≤ chipIndex s.cfg x.toNat y.toNat then plotBeyond x.toNat y.toNat color s
  else .next { s with fb := plotPixel s.cfg x.toNat y.toNat color s.fb }

/-- PLOT x, y, color (R77). -/
def execPlot (x y : Int) (color : Nat) (s : State) : Result :=
  Guard.config s (Guard.inited (.plot x y color) s (plotBody x y color s))

/-- The in-panel pixels in the order CLEAR visits them (R82): x outside, y inside, both ascending. -/
def panelPixels (c : Config) : List (Nat × Nat) :=
  (List.range c.w).flatMap (fun x => (List.range c.h).map (fun y => (x, y)))

/-- The body of CLEAR on the frame buffer (R82): PLOT with OFF on every in-panel pixel. -/
def clearBuffer (c : Config) (fb : Memory) : Memory :=
  (panelPixels c).foldl (fun m p => plotPixel c p.1 p.2 colorOff m) fb

/-- The body of CLEAR (R82, R111). -/
def State.clearBody (s : State) : State := { s with fb := clearBuffer s.cfg s.fb }

/-- CLEAR (R82). -/
def execClear (s : State) : Result :=
  Guard.config s (Guard.inited .clear s (.next s.clearBody))

end Sys2Proof.Machine
end

