-- ==== Sys2Proof/Machine/Init.lean ====
section
/-! DEFINITION. INIT (R107 to R114). -/

namespace Sys2Proof.Machine

open Sys2Proof

/-- The four lines configured and idle, in the order CS, WR, CLK, DATA (R108). -/
def State.idleLines (s : State) : State :=
  (((s.configureLine .cs true).configureLine .wr true).configureLine .clk false).configureLine .data false

/-- Every cell takes SENTINEL (R109). -/
def filledBuffer (c : Config) (fb : Memory) : Memory :=
  (List.range c.cells).foldl
    (fun m a => (List.range c.chips).foldl (fun m' chip => Memory.write (cellKey c a chip) c.sentinel m') m) fb

/-- The fill of INIT (R109). -/
def State.fillBody (s : State) : State := { s with fb := filledBuffer s.cfg s.fb }

/-- The five configuration commands to chip `k`, in order (R110). -/
def State.configureChip (s : State) (k : Nat) : State := s.cfg.initPayloads.foldl (fun s' p => s'.sendCmd k p) s

/-- The configuration commands to every chip in turn (R110). -/
def State.configureChips (s : State) : State :=
  (List.range s.cfg.chips).foldl (fun s' i => s'.configureChip (i + 1)) s

/-- The body of INIT (R112). -/
def State.initBody (s : State) : State :=
  { ({ s with inited := false } : State).idleLines.fillBody.configureChips.clearBody.commitBody with inited := true }

/-- INIT (R112): in any state, and without a fault. -/
def execInit (s : State) : Result := Guard.config s (.next s.initBody)

end Sys2Proof.Machine
end

