-- ==== Sys2Proof/Machine/Dispatch.lean ====
section
/-! DEFINITION. exec: one arm for each constructor of Instr. -/

namespace Sys2Proof.Machine

open Sys2Proof

def exec (i : Instr) (s : State) : Host.Outcome State Fault Refusal :=
  match i with
  | .init => Sys2Proof.Machine.execInit s
  | .plot x y color => Sys2Proof.Machine.execPlot x y color s
  | .clear => Sys2Proof.Machine.execClear s
  | .commit => Sys2Proof.Machine.execCommit s
  | .cmd k payload => Sys2Proof.Machine.execCmd k payload s
  | .sysdis k => Sys2Proof.Machine.execSysdis k s
  | .panelcfg k => Sys2Proof.Machine.execPanelcfg k s
  | .master k => Sys2Proof.Machine.execMaster k s
  | .sysen k => Sys2Proof.Machine.execSysen k s
  | .ledon k => Sys2Proof.Machine.execLedon k s
  | .write k a d => Sys2Proof.Machine.execWrite k a d s

end Sys2Proof.Machine
end

