-- ==== Sys2Proof/Machine/Step.lean ====
section
/-! DEFINITION. One step: the machine takes the oldest request and runs it to completion (R18, R41); with none
pending it waits for the host (R128). -/

namespace Sys2Proof.Machine

open Sys2Proof

/-- One step. A configuration that is not well-formed is refused as a whole: no step runs in it, be it an operation, the
reset event or a wait (R7, U8). A host operation is one atomic step (R41); a request that names no instruction is
refused; the reset event is taken (R127). -/
def step (s : State) : Host.Outcome State Fault Refusal :=
  Guard.config s <|
    match s.pending with
    | [] => .next s
    | r :: rest =>
      match decodeRequest s.cfg r with
      | .ok (some i) => exec i { s with pending := rest }
      | .ok none => .next ({ s with pending := rest } : State).resetEvent
      | .error e => .refused (.undecodable e)

/-- The state with a word of the opcode table as the request the next step takes. -/
def State.withFetchWord (s : State) (nbits w : Nat) : State :=
  { s with pending := tableRequest s.cfg nbits w :: s.pending }

end Sys2Proof.Machine
end

