-- ==== Sys2Proof/Safety.lean ====
section
/-! DEFINITION. What claims are stated in: the machine invariant, coherence of the frame buffer with the display RAM,
the trace's own properties, and the event lists the rules of COMMIT and INIT name. -/

namespace Sys2Proof.Machine

open Sys2Proof

/-! ### Views of the state -/

/-- `RAM_k[a]` of the reference receiver (R31, R49), by select number. -/
def State.ram (s : State) (k a : Nat) : Byte :=
  match s.rx.chips[k - 1]? with
  | some ch => Memory.read ch.ram a
  | none => Memory.unlisted

/-- The command log of the chip with chip index `c` (R50). -/
def State.cmdlog (s : State) (c : Nat) : List Nat :=
  match s.rx.chips[c]? with
  | some ch => ch.log
  | none => []

/-- The select stages, S[1] first (R46). -/
def Receiver.stages (r : Receiver) : List Level := r.chips.map (·.stage)

/-- The stages when exactly the chip with select number `k` is selected, and none when `k` = 0 (R98). -/
def selectedOnly (chips k : Nat) : List Level :=
  (List.range chips).map (fun i => if i + 1 = k then Level.low else Level.high)

/-- The chip and payload of a command frame instruction (R62, R100, R110). -/
def commandOf (c : Config) : Instr → Option (Nat × Nat)
  | .init => none
  | .plot _ _ _ => none
  | .clear => none
  | .commit => none
  | .cmd k payload => some (k, payload)
  | .sysdis k => some (k, c.cmdSysDisable.toNat)
  | .panelcfg k => some (k, c.cmdPanelConfig.toNat)
  | .master k => some (k, c.cmdMasterMode.toNat)
  | .sysen k => some (k, c.cmdSysEnable.toNat)
  | .ledon k => some (k, c.cmdLedOn.toNat)
  | .write _ _ _ => none

/-! ### Event lists of the operations -/

/-- The cells whose flag M is set, in scan order (R88, R92). -/
def dirtyCells (s : State) : List (Nat × Nat) := (scanOrder s.cfg).filter (fun p => modified (s.cell p.1 p.2))

/-- What COMMIT puts on the bus: one write transaction a dirty cell, in scan order (R89, R91, R92). -/
def commitEvents (s : State) : List Event :=
  (dirtyCells s).flatMap (fun p => sendDataEvents s.cfg (p.2 + 1) p.1 (cellData s.cfg (s.cell p.1 p.2)).toNat)

/-- The first eight events of INIT (R108). -/
def idleEvents : List Event :=
  [.cfg .cs, .set .cs true, .cfg .wr, .set .wr true, .cfg .clk, .set .clk false, .cfg .data, .set .data false]

/-- What INIT puts on the bus: idle levels, five commands to every chip, a write of 0 to every cell (R108, R110,
R111). -/
def initEvents (c : Config) : List Event :=
  idleEvents
    ++ (List.range c.chips).flatMap (fun i => c.initPayloads.flatMap (fun p => sendCmdEvents c (i + 1) p))
    ++ (scanOrder c).flatMap (fun p => sendDataEvents c (p.2 + 1) p.1 0)

/-! ### The trace -/

/-- The event configures a line (R21). -/
def isCfgEvent : Event → Bool
  | .cfg _ => true
  | .set _ _ => false

/-- The event drives a line (R21). -/
def isSetEvent : Event → Bool
  | .cfg _ => false
  | .set _ _ => true

/-- The level a line has after a trace: that of its last Set, X when it has none (R19, R21). -/
def levelFrom (start : Level) (l : Line) : List Event → Level
  | [] => start
  | .set l' b :: es => levelFrom (if l' = l then Level.ofBool b else start) l es
  | .cfg _ :: es => levelFrom start l es

/-- Every line's level is the one its last Set in the trace gave it (R19). -/
def LevelsTraced (s : State) : Prop := ∀ l : Line, s.levels.get l = levelFrom .unknown l s.trace

/-- The lines configured by a trace, on from `seen`. -/
def configuredFrom (seen : Lines Bool) : List Event → Lines Bool
  | [] => seen
  | .cfg l :: es => configuredFrom (seen.put l true) es
  | .set _ _ :: es => configuredFrom seen es

/-- No line is driven before it is configured (R20). -/
def drivenConfigured (seen : Lines Bool) : List Event → Bool
  | [] => true
  | .cfg l :: es => drivenConfigured (seen.put l true) es
  | .set l _ :: es => seen.get l && drivenConfigured seen es

/-- The transition trace (R21): the trace without its Cfg events and without the Sets that repeat their line's
level. -/
def transitionsFrom (lv : Lines Level) : List Event → List Event
  | [] => []
  | .cfg _ :: es => transitionsFrom lv es
  | .set l b :: es =>
    if lv.get l = Level.ofBool b then transitionsFrom lv es
    else .set l b :: transitionsFrom (lv.put l (Level.ofBool b)) es

/-- All lines with one value. -/
def allLines {α : Type} (x : α) : Lines α := ⟨x, x, x, x⟩

/-! ### Invariants -/

/-- Every key of a memory is below `n`. -/
abbrev Memory.below (n : Nat) (m : Memory) : Prop := ∀ p ∈ m, p.1 < n

/-- A display RAM of the configuration: canonical, its addresses cells, its values LEDS_PER_CELL bits (R31). -/
abbrev ramWf (c : Config) (m : Memory) : Prop :=
  Memory.wf m ∧ Memory.below c.cells m ∧ ∀ p ∈ m, cellData c p.2 = p.2

/-- The state is one of the configuration: well-formed configuration, a canonical frame buffer of CELLS * CHIPS cells,
CHIPS chips with well-formed display RAMs (R7, R13, R31). -/
abbrev State.wf (s : State) : Prop :=
  s.cfg.wf = true ∧ Memory.wf s.fb ∧ Memory.below s.cfg.size s.fb ∧ s.rx.chips.length = s.cfg.chips
    ∧ ∀ ch ∈ s.rx.chips, ramWf s.cfg ch.ram

/-- The lines as they rest between operations (R104). -/
abbrev State.linesIdle (s : State) : Prop :=
  s.levels.clk = .low ∧ s.levels.wr = .high ∧ s.levels.cs = .high ∧ s.levels.data ≠ .unknown

/-- The select number is known and one of 0 to CHIPS (R24). -/
def State.selKnown (s : State) : Bool :=
  match s.sel with
  | some k => decide (k ≤ s.cfg.chips)
  | none => false

/-- The unused bits of every cell are 0 (R14, R16 (a)). -/
abbrev State.unusedBitsZero (s : State) : Prop := ∀ p ∈ s.fb, p.2 &&& ~~~(s.cfg.dataMask ||| Config.modFlag) = 0#8

/-- The machine invariant: the state is well-formed, and once INIT has completed the lines are configured and idle, the
select number is known and no cell has an unused bit set (R13, R14, R16 (a), R20, R24, R104). -/
abbrev State.Inv (s : State) : Prop :=
  s.wf ∧ (s.inited = true → s.linesIdle ∧ s.configured = allLines true ∧ s.selKnown = true ∧ s.unusedBitsZero)

/-- A cell whose flag is clear holds what its chip holds (R16 (b)). -/
abbrev State.cleanCellsMatch (s : State) : Prop :=
  ∀ a < s.cfg.cells, ∀ c < s.cfg.chips, modified (s.cell a c) = false → s.ram (c + 1) a = cellData s.cfg (s.cell a c)

/-- No request is a bus frame: the host issues its own operations only (R8). -/
def hostRequestsOnly (rs : List Request) : Bool :=
  rs.all (fun r => match r with
    | .host _ => true
    | .frame _ _ => false
    | .reset => true)

/-- The invariant of a machine whose host issues host operations only (R16). -/
abbrev State.Coherent (s : State) : Prop :=
  s.Inv ∧ hostRequestsOnly s.pending = true ∧ (s.inited = true → s.cleanCellsMatch)

/-- No line has been driven before it was configured, and `configured` says what the trace says (R20). -/
abbrev State.ConfiguredFirst (s : State) : Prop :=
  hostRequestsOnly s.pending = true ∧ drivenConfigured (allLines false) s.trace = true
    ∧ s.configured = configuredFrom (allLines false) s.trace
    ∧ (s.inited = true → s.configured = allLines true)

/-- A step's answer with the reference receiver left out of the state: what the controller alone did. -/
def controllerPart : Result → Result
  | .next t => .next { t with rx := ⟨[], 0⟩ }
  | .fault f => .fault f
  | .refused r => .refused r

end Sys2Proof.Machine
end

