-- ==== Sys2Proof/Certificates/Slice0/Obligations.lean ====
section
/-! DEFINITION. The statements about the model, for the provers. Each docstring names the rule it formalises. -/

open Sys2Proof Sys2Proof.Machine

/-! ### Encodings -/

/-- R54, R55: a host word decodes by its fields; every value of every field is legal, and INIT, CLEAR and COMMIT
ignore color, y and x, which their canonical words have 0. -/
def Obligations.HostWordsDecodeByTheirFields : Prop :=
  ∀ c : Config, c.wf = true →
    (∀ op color y x : Nat, op < 4 → color < 2 ^ c.colors → y < 2 ^ c.coordBits → x < 2 ^ c.coordBits →
      decodeRequest c
          (.host (op * 2 ^ (2 * c.coordBits + c.colors) + color * 2 ^ (2 * c.coordBits) + y * 2 ^ c.coordBits + x))
        = .ok (some
            (if op = 0 then Instr.init
             else if op = 1 then
               Instr.plot (if x < 2 ^ (c.coordBits - 1) then (x : Int) else (x : Int) - (2 : Int) ^ c.coordBits)
                 (if y < 2 ^ (c.coordBits - 1) then (y : Int) else (y : Int) - (2 : Int) ^ c.coordBits) color
             else if op = 2 then Instr.clear
             else Instr.commit)))
    ∧ (∀ w < 2 ^ c.hostBits, ∃ i : Instr,
        decodeRequest c (.host w) = .ok (some i) ∧ i.isHostOp = true ∧ i.wf c = true)
    ∧ encode c .init = .host 0
    ∧ encode c .clear = .host (2 * 2 ^ (2 * c.coordBits + c.colors))
    ∧ encode c .commit = .host (3 * 2 ^ (2 * c.coordBits + c.colors))

/-- R56: the canonical host words of the default instance, and the rule's examples. -/
def Obligations.CanonicalHostWords : Prop :=
  encode Config.standard .init = .host 0x00000
  ∧ encode Config.standard .clear = .host 0x80000
  ∧ encode Config.standard .commit = .host 0xC0000
  ∧ (∀ (x y : Int) (color : Nat), Instr.wf Config.standard (.plot x y color) = true →
      encode Config.standard (.plot x y color)
        = .host (0x40000 ||| (color <<< 16) ||| ((y % 256).toNat <<< 8) ||| (x % 256).toNat))
  ∧ encode Config.standard (.plot 0 0 colorBoth) = .host 0x70000
  ∧ encode Config.standard (.plot 31 15 colorPrimary) = .host 0x50F1F
  ∧ encode Config.standard (.plot (-1) 0 colorBoth) = .host 0x700FF
  ∧ encode Config.standard (.plot 0 16 colorOff) = .host 0x41000

/-- V1 of 95_test_vectors.md (R54, R55): host words written out from the encoding decode to their operations. -/
def Obligations.TableWordsDecode : Prop :=
  decodeTableWord 24 0x00000 = some .init
  ∧ decodeTableWord 24 0x50F1F = some (.plot 31 15 colorPrimary)
  ∧ decodeTableWord 24 0x60810 = some (.plot 16 8 colorSecondary)
  ∧ decodeTableWord 24 0x48080 = some (.plot (-128) (-128) colorOff)
  ∧ decodeTableWord 24 0x7FFFF = some (.plot (-1) (-1) colorBoth)
  ∧ decodeTableWord 24 0x80000 = some .clear
  ∧ decodeTableWord 24 0xC0000 = some .commit
  ∧ decodeTableWord 24 0x3FFFF = some .init
  ∧ decodeTableWord 24 0xBFFFF = some .clear
  ∧ decodeTableWord 24 0xFFFFF = some .commit

/-- R58, R59: the frames as numbers. A command frame is {OP_COMMAND, payload, PAD_VALUE} and a write frame
{OP_WRITE, address, data}, each sent from its most significant bit. The pad of a configuration with CMD_PAD_BITS other
than 1 is the model's reading (log entry 17). -/
def Obligations.FramesAreTheirFieldsInOrder : Prop :=
  ∀ (c : Config) (k p a d : Nat), p < 2 ^ c.cmdPayloadBits → a < 2 ^ c.addrBits → d < 2 ^ c.ledsPerCell →
    encode c (.cmd k p)
      = .frame k (bitsMsb (c.opCommand.toNat * 2 ^ (c.cmdPayloadBits + c.cmdPadBits) + p * 2 ^ c.cmdPadBits
          + padField c) c.cmdFrameBits)
    ∧ encode c (.write k a d)
      = .frame k (bitsMsb (c.opWrite.toNat * 2 ^ (c.addrBits + c.ledsPerCell) + a * 2 ^ c.ledsPerCell + d)
          c.writeFrameBits)
    ∧ sendCmdEvents c k p
      = selectEvents c.chips k
          ++ bitsEvents (bitsMsb (c.opCommand.toNat * 2 ^ (c.cmdPayloadBits + c.cmdPadBits) + p * 2 ^ c.cmdPadBits
              + padField c) c.cmdFrameBits)
          ++ selectEvents c.chips 0
    ∧ sendDataEvents c k a d
      = selectEvents c.chips k
          ++ bitsEvents (bitsMsb (c.opWrite.toNat * 2 ^ (c.addrBits + c.ledsPerCell) + a * 2 ^ c.ledsPerCell + d)
              c.writeFrameBits)

/-- Decode and encode agree for every instruction. Command frames with one payload are one frame, and decode to its
first name (`Instr.canonical`, log entry 4). -/
def Obligations.DecodeEncodeRoundTrip : Prop :=
  ∀ (c : Config) (i : Instr), c.wf = true → i.wf c = true →
    decodeRequest c (encode c i) = .ok (some (i.canonical c))

/-- When the five configuration payloads differ, decode and encode agree to the letter, the general command frame
standing for the payloads that have no name. -/
def Obligations.DistinctCommandsRoundTripExactly : Prop :=
  ∀ (c : Config) (i : Instr), c.wf = true → i.wf c = true → c.initPayloads.Nodup →
    (∀ k p : Nat, i = .cmd k p → p ∉ c.initPayloads) →
    decodeRequest c (encode c i) = .ok (some i)

/-- A frame that decodes is the one frame its instruction encodes to: no bit of it is dropped. -/
def Obligations.DecodedFramesAreCanonical : Prop :=
  ∀ (c : Config) (k : Nat) (bits : List Bool) (i : Instr),
    decodeRequest c (.frame k bits) = .ok (some i) → encode c i = .frame k bits ∧ i.select? = some k

/-- R67: decoding the events of one selection returns the fields the encoder was given. -/
def Obligations.BusDecoderRecoversTheFields : Prop :=
  ∀ (c : Config) (k p a d : Nat), p < 2 ^ c.cmdPayloadBits → a < 2 ^ c.addrBits → d < 2 ^ c.ledsPerCell →
    decodeBus c (sendCmdEvents c k p) = .ok (.command p (padField c))
    ∧ decodeBus c (sendDataEvents c k a d) = .ok (.write a d)

/-! ### The step, the guards and the faults -/

/-- A step runs the decoded instruction on the state whose oldest request is taken; in a well-formed configuration it
waits with nothing pending (R18, R41, R128), takes the reset event, and refuses a request that names no instruction; in
another it is refused, as the instruction is (R7). That the reset event leaves the further requests, and that a request
which names no instruction is
refused, is the model's choice (log entries 3 and 7). -/
def Obligations.StepRunsTheDecodedInstruction : Prop :=
  ∀ s : State,
    (∀ (r : Request) (rest : List Request) (i : Instr),
      s.pending = r :: rest → decodeRequest s.cfg r = .ok (some i) → step s = exec i { s with pending := rest })
    ∧ (s.cfg.wf = false → step s = .refused .illFormedConfig)
    ∧ (s.cfg.wf = true → s.pending = [] → step s = .next s)
    ∧ (s.cfg.wf = true → ∀ rest : List Request, s.pending = .reset :: rest →
        ∃ t : State, step s = .next t ∧ t.pending = rest)
    ∧ (s.cfg.wf = true → ∀ (r : Request) (rest : List Request) (e : DecodeError),
        s.pending = r :: rest → decodeRequest s.cfg r = .error e → step s = .refused (.undecodable e))

/-- R7, with R9's and U8's condition on SENTINEL counted in, and U8's `refuse`: what a well-formed configuration is, and
that nothing runs in another: no instruction, and no step, be it the reset event or a wait. That the refusal is one of
each instruction and each step is the model's form of it (log entry 13). -/
def Obligations.IllFormedConfigurationsAreRefused : Prop :=
  (∀ c : Config, c.wf = true ↔
    (0 < c.w ∧ 0 < c.h ∧ 0 < c.chipsX ∧ 0 < c.chipsY ∧ 0 < c.colors ∧ 0 < c.ledsPerCell)
    ∧ c.chipsX ∣ c.w ∧ c.chipsY ∣ c.h ∧ c.ledsPerCell ∣ c.h / c.chipsY
    ∧ c.ledsPerCell ≤ 7
    ∧ c.w * c.h * c.colors / (c.ledsPerCell * (c.chipsX * c.chipsY)) ≤ 2 ^ c.addrBits
    ∧ c.w < 2 ^ (c.coordBits - 1) ∧ c.h < 2 ^ (c.coordBits - 1)
    ∧ (c.sentinel.msb = true ∨ c.sentinel &&& BitVec.ofNat 8 (2 ^ c.ledsPerCell - 1) ≠ 0#8))
  ∧ ∀ s : State, s.cfg.wf = false →
      step s = .refused .illFormedConfig ∧ ∀ i : Instr, exec i s = .refused .illFormedConfig

/-- R118, R119: the two faults, exactly when each is raised and what it records; nothing is refused in a well-formed
configuration, and the range check comes between the two tests; in an ill-formed configuration every operation is
refused, which is not a fault. -/
def Obligations.FaultsAreExactlyTheTwo : Prop :=
  (∀ (s : State) (i : Instr), s.cfg.wf = false → exec i s = .refused .illFormedConfig)
  ∧ ∀ s : State, s.cfg.wf = true →
    (∀ (i : Instr) (f : Fault), exec i s = .fault f ↔
      (s.inited = false ∧ ((∃ x y color, i = .plot x y color) ∨ i = .clear ∨ i = .commit) ∧ f = .useBeforeInit i)
      ∨ (s.inited = true ∧ ∃ x color : Nat, x < s.cfg.w ∧ i = .plot x s.cfg.h color
          ∧ f = .chipIndexOutOfRange x s.cfg.h (x / s.cfg.cw + s.cfg.chips)
          ∧ (s.cfg.yEqH = .fault
            ∨ (s.cfg.yEqH = .aliasFlat
              ∧ s.cfg.cells * s.cfg.chips
                ≤ (x % s.cfg.cw * s.cfg.cpc + (s.cfg.colors - 1) * s.cfg.band) * s.cfg.chips
                  + (x / s.cfg.cw + s.cfg.chips)))))
    ∧ (∀ (i : Instr) (r : Refusal), exec i s ≠ .refused r)
    ∧ (∀ i : Instr, (Fault.useBeforeInit i).code = 1)
    ∧ (∀ (x y : Int) (chip : Nat), (Fault.chipIndexOutOfRange x y chip).code = 2)
    ∧ (∀ (x : Int) (color : Nat), s.inited = true → (x < 0 ∨ (s.cfg.w : Int) ≤ x) →
        exec (.plot x s.cfg.h color) s = .next s)

/-- R27, R127: what the reset event leaves in a well-formed configuration, and that it touches neither the configuration nor the chips. -/
def Obligations.ResetEventLeavesTheResetValues : Prop :=
  (∀ (s : State) (rest : List Request), s.cfg.wf = true → s.pending = .reset :: rest →
    ∃ t : State, step s = .next t ∧ t.inited = false ∧ t.levels = allLines .unknown ∧ t.configured = allLines false
      ∧ t.trace = [] ∧ t.sel = none ∧ t.cfg = s.cfg ∧ t.rx = s.rx)
  ∧ State.reset.inited = false ∧ State.reset.levels = allLines .unknown ∧ State.reset.configured = allLines false
  ∧ State.reset.trace = [] ∧ State.reset.sel = none

/-! ### PLOT and CLEAR -/

/-- R72: the range check, and that what it rejects is a no-op with no state change of any kind. -/
def Obligations.OutOfRangePlotIsSilent : Prop :=
  ∀ (s : State) (x y : Int) (color : Nat), s.cfg.wf = true → s.inited = true →
    (rangeRejects s.cfg x y = true ↔ x < 0 ∨ (s.cfg.w : Int) ≤ x ∨ y < 0 ∨ (s.cfg.h : Int) < y)
    ∧ (x < 0 ∨ (s.cfg.w : Int) ≤ x ∨ y < 0 ∨ (s.cfg.h : Int) < y → exec (.plot x y color) s = .next s)

/-- R73 to R76: an in-panel PLOT completes, gives each channel's cell the updated value, and changes nothing else. -/
def Obligations.PlotUpdatesItsCells : Prop :=
  ∀ (s : State) (x y color : Nat), s.wf → s.inited = true → x < s.cfg.w → y < s.cfg.h →
    let chip := x / (s.cfg.w / s.cfg.chipsX) + s.cfg.chipsX * (y / (s.cfg.h / s.cfg.chipsY))
    let base := x % (s.cfg.w / s.cfg.chipsX) * (s.cfg.h / (s.cfg.chipsY * s.cfg.ledsPerCell))
      + y % (s.cfg.h / s.cfg.chipsY) / s.cfg.ledsPerCell
    let mask : Byte := 1#8 <<< (s.cfg.ledsPerCell - 1 - y % s.cfg.ledsPerCell)
    ∃ t : State, exec (.plot x y color) s = .next t ∧ t = { s with fb := t.fb }
      ∧ chip < s.cfg.chips
      ∧ (∀ ch < s.cfg.colors,
          let old := s.cell (base + ch * s.cfg.band) chip
          let new : Byte :=
            if color.testBit ch then (old &&& s.cfg.dataMask) ||| mask
            else (old &&& s.cfg.dataMask) &&& ~~~mask &&& s.cfg.dataMask
          t.cell (base + ch * s.cfg.band) chip
            = if old &&& s.cfg.dataMask = new then old else new ||| Config.modFlag)
      ∧ ∀ key : Nat, (∀ ch < s.cfg.colors, key ≠ (base + ch * s.cfg.band) * s.cfg.chips + chip) →
          Memory.read t.fb key = Memory.read s.fb key

/-- R78: a PLOT with y = H, under each of the three settings of Y_EQ_H; the read-back holds under `aliasFlat`, and in
the default instance its index is always in range. -/
def Obligations.PlotAtThePanelHeight : Prop :=
  (∀ x < 32, lastLinearIndex Config.standard x 16 < 256) ∧
  ∀ (s : State) (x color : Nat), s.wf → s.inited = true → x < s.cfg.w →
    let chip := x / s.cfg.cw + s.cfg.chips
    let base := x % s.cfg.cw * s.cfg.cpc
    let mask : Byte := 1#8 <<< (s.cfg.ledsPerCell - 1)
    let last := (base + (s.cfg.colors - 1) * s.cfg.band) * s.cfg.chips + chip
    (s.cfg.yEqH = .fault → exec (.plot x s.cfg.h color) s = .fault (.chipIndexOutOfRange x s.cfg.h chip))
    ∧ (s.cfg.yEqH = .ignore → exec (.plot x s.cfg.h color) s = .next s)
    ∧ (s.cfg.yEqH = .aliasFlat → s.cfg.cells * s.cfg.chips ≤ last →
        exec (.plot x s.cfg.h color) s = .fault (.chipIndexOutOfRange x s.cfg.h chip))
    ∧ (s.cfg.yEqH = .aliasFlat → last < s.cfg.cells * s.cfg.chips →
        ∃ t : State, exec (.plot x s.cfg.h color) s = .next t ∧ t = { s with fb := t.fb }
          ∧ (color < 2 ^ s.cfg.colors → pixel t x s.cfg.h = color)
          ∧ (∀ ch < s.cfg.colors,
              let old := s.cell (base + ch * s.cfg.band + 1) (x / s.cfg.cw)
              let new : Byte :=
                if color.testBit ch then (old &&& s.cfg.dataMask) ||| mask
                else (old &&& s.cfg.dataMask) &&& ~~~mask &&& s.cfg.dataMask
              t.cell (base + ch * s.cfg.band + 1) (x / s.cfg.cw)
                = if old &&& s.cfg.dataMask = new then old else new ||| Config.modFlag)
          ∧ ∀ key : Nat,
              (∀ ch < s.cfg.colors, key ≠ (base + ch * s.cfg.band + 1) * s.cfg.chips + x / s.cfg.cw) →
              Memory.read t.fb key = Memory.read s.fb key)

/-- R79: read-back of a plotted pixel with every other pixel unchanged, out-of-range PLOTs, idempotence, and no bus
traffic. -/
def Obligations.PlotReadsBack : Prop :=
  ∀ (s : State) (color : Nat), s.wf → s.inited = true → color < 2 ^ s.cfg.colors →
    (∀ x < s.cfg.w, ∀ y < s.cfg.h,
      ∃ t : State, exec (.plot x y color) s = .next t ∧ pixel t x y = color
        ∧ ∀ x' < s.cfg.w, ∀ y' < s.cfg.h, (x' ≠ x ∨ y' ≠ y) → pixel t x' y' = pixel s x' y')
    ∧ (∀ x y : Int, (x < 0 ∨ (s.cfg.w : Int) ≤ x ∨ y < 0 ∨ (s.cfg.h : Int) < y) →
        exec (.plot x y color) s = .next s)
    ∧ ∀ (x y : Int) (t : State), exec (.plot x y color) s = .next t →
        exec (.plot x y color) t = .next t ∧ t.trace = s.trace

/-- R80: the coordinate mapping is a bijection from the panel's pixels and channels onto the data bits of the frame
buffer. -/
def Obligations.MappingIsABijection : Prop :=
  ∀ c : Config, c.wf = true →
    let cellOf := fun (x y ch : Nat) => channelAddress c (baseAddress c x y) ch
    (∀ x < c.w, ∀ y < c.h, ∀ ch < c.colors,
      cellOf x y ch < c.cells ∧ chipIndex c x y < c.chips ∧ bitPosition c y < c.ledsPerCell)
    ∧ (∀ x < c.w, ∀ y < c.h, ∀ ch < c.colors, ∀ x' < c.w, ∀ y' < c.h, ∀ ch' < c.colors,
        cellOf x y ch = cellOf x' y' ch' → chipIndex c x y = chipIndex c x' y' →
        bitPosition c y = bitPosition c y' → x = x' ∧ y = y' ∧ ch = ch')
    ∧ ∀ a < c.cells, ∀ chip < c.chips, ∀ b < c.ledsPerCell,
        ∃ x < c.w, ∃ y < c.h, ∃ ch < c.colors,
          cellOf x y ch = a ∧ chipIndex c x y = chip ∧ bitPosition c y = b

/-- R84: the ranges of PLOT's arithmetic for every accepted pixel, y = H among them; no divisor is zero. -/
def Obligations.PlotArithmeticStaysInRange : Prop :=
  ∀ c : Config, c.wf = true →
    0 < c.cw ∧ 0 < c.chh ∧ 0 < c.ledsPerCell ∧ 0 < c.cpc ∧ 0 < c.band
    ∧ ∀ x < c.w, ∀ y ≤ c.h, ∀ ch < c.colors,
        chipIndex c x y ≤ c.chips + c.chipsX - 1 ∧ x % c.cw < c.cw ∧ y % c.chh < c.chh ∧ baseAddress c x y < c.band
        ∧ channelAddress c (baseAddress c x y) ch < c.cells
        ∧ (∃ b < c.ledsPerCell, bitMask c y = BitVec.ofNat 8 (2 ^ b))
        ∧ ∀ (old : Byte) (lit : Bool),
            cellData c old ≤ c.dataMask ∧ plottedData c old (bitMask c y) lit ≤ c.dataMask

/-- R82, R83: CLEAR completes with the closed form's cells, and changes nothing else. -/
def Obligations.ClearBlanksTheBuffer : Prop :=
  ∀ s : State, s.wf → s.inited = true →
    ∃ t : State, exec .clear s = .next t ∧ t = { s with fb := t.fb }
      ∧ (∀ a < s.cfg.cells, ∀ c < s.cfg.chips,
          t.cell a c = if s.cell a c &&& s.cfg.dataMask ≠ 0#8 then Config.modFlag else s.cell a c)
      ∧ ∀ key : Nat, s.cfg.cells * s.cfg.chips ≤ key → Memory.read t.fb key = Memory.read s.fb key

/-- R15: PLOT and CLEAR never clear a flag M, and set one only where they store data that differs. -/
def Obligations.PlotAndClearOnlySetFlags : Prop :=
  ∀ (s t : State) (i : Instr), s.wf → ((∃ x y color, i = .plot x y color) ∨ i = .clear) → exec i s = .next t →
    ∀ key : Nat,
      Memory.read t.fb key = Memory.read s.fb key
      ∨ (modified (Memory.read t.fb key) = true
        ∧ Memory.read t.fb key &&& s.cfg.dataMask ≠ Memory.read s.fb key &&& s.cfg.dataMask)

/-- R40, R43: PLOT and CLEAR, in every form, produce no bus activity: they change the frame buffer at most, and the
display RAM stays. -/
def Obligations.PlotAndClearAreSilent : Prop :=
  ∀ (s t : State) (i : Instr), ((∃ x y color, i = .plot x y color) ∨ i = .clear) → exec i s = .next t →
    t = { s with fb := t.fb } ∧ ∀ k a : Nat, t.ram k a = s.ram k a

/-! ### The bus encoder -/

/-- R94, R95, R96, R99: the event sequences of the encoder's procedures, written out. -/
def Obligations.EncoderEventSequences : Prop :=
  clkPulse = [.set .clk true, .set .clk false]
  ∧ (∀ n : Nat, selectEvents n 0 = .set .cs true :: (List.replicate n clkPulse).flatten)
  ∧ (∀ n k : Nat, 1 ≤ k → selectEvents n k
      = selectEvents n 0 ++ [.set .cs false] ++ clkPulse ++ [.set .cs true] ++ (List.replicate (k - 1) clkPulse).flatten)
  ∧ ∀ v n : Nat, sendBitsEvents v n
      = (List.range n).reverse.flatMap (fun i => [.set .data (v.testBit i), .set .wr false, .set .wr true])

/-- R105: the event counts, in general and in the default instance. -/
def Obligations.EventCounts : Prop :=
  (∀ n : Nat, (selectEvents n 0).length = 2 * n + 1)
  ∧ (selectEvents Config.standard.chips 0).length = 9
  ∧ [1, 2, 3, 4].map (fun k => (selectEvents Config.standard.chips k).length) = [13, 15, 17, 19]
  ∧ (∀ n k : Nat, 1 ≤ k → (selectEvents n k).length = 2 * n + 5 + 2 * (k - 1))
  ∧ (∀ v n : Nat, (sendBitsEvents v n).length = 3 * n)
  ∧ (∀ (c : Config) (k p : Nat), 1 ≤ k → (sendCmdEvents c k p).length
      = (2 * c.chips + 5 + 2 * (k - 1)) + 3 * (c.idBits + c.cmdPayloadBits + c.cmdPadBits) + (2 * c.chips + 1))
  ∧ (∀ (c : Config) (k a d : Nat), 1 ≤ k → (sendDataEvents c k a d).length
      = (2 * c.chips + 5 + 2 * (k - 1)) + 3 * (c.idBits + c.addrBits + c.ledsPerCell))
  ∧ (∀ k p : Nat, 1 ≤ k → (sendCmdEvents Config.standard k p).length = 55 + 2 * (k - 1))
  ∧ ∀ k a d : Nat, 1 ≤ k → (sendDataEvents Config.standard k a d).length = 52 + 2 * (k - 1)

/-- R98: what SELECT guarantees whatever the chain held before: after SELECT(0) no chip is selected, after SELECT(k)
the chip with select number k and no other; nothing is latched meanwhile. -/
def Obligations.SelectEstablishesOneChip : Prop :=
  ∀ (c : Config) (lv : Lines Level) (r : Receiver) (k : Nat),
    lv.clk = .low → r.chips.length = c.chips → k ≤ c.chips →
    let b := busRun c (lv, r) (selectEvents c.chips k)
    b.2.stages = selectedOnly c.chips k ∧ b.2.free = r.free
    ∧ b.2.chips.map (·.ram) = r.chips.map (·.ram) ∧ b.2.chips.map (·.log) = r.chips.map (·.log)
    ∧ (∀ ch ∈ b.2.chips, ch.stage = .low → ch.acc = [])
    ∧ b.1 = { lv with clk := .low, cs := .high }

/-- R100, R110: a command frame row completes in every state of a well-formed configuration: its events, the lines
they leave, `sel` = 0, and nothing else of the controller. -/
def Obligations.CommandFramesComplete : Prop :=
  ∀ (s : State) (i : Instr) (k p : Nat), s.cfg.wf = true → commandOf s.cfg i = some (k, p) →
    ∃ t : State, exec i s = .next t
      ∧ t = { s with trace := t.trace, levels := t.levels, rx := t.rx, sel := some 0 }
      ∧ t.trace = s.trace ++ selectEvents s.cfg.chips k ++ sendBitsEvents s.cfg.opCommand.toNat s.cfg.idBits
          ++ sendBitsEvents p s.cfg.cmdPayloadBits ++ sendBitsEvents s.cfg.padValue.toNat s.cfg.cmdPadBits
          ++ selectEvents s.cfg.chips 0
      ∧ t.levels.clk = .low ∧ t.levels.wr = .high ∧ t.levels.cs = .high ∧ t.levels.data ≠ .unknown

/-- R50, R98, R100: at the reference receiver a command frame is logged by its chip and by no other, no display RAM
changes, and no chip stays selected. -/
def Obligations.CommandReachesOneChip : Prop :=
  ∀ (s : State) (i : Instr) (k p : Nat), s.wf → i.wf s.cfg = true → commandOf s.cfg i = some (k, p) →
    s.levels.clk = .low →
    ∃ t : State, exec i s = .next t
      ∧ (∀ c < s.cfg.chips, t.cmdlog c = s.cmdlog c ++ (if c + 1 = k then [p] else []))
      ∧ (∀ j a : Nat, t.ram j a = s.ram j a)
      ∧ t.rx.stages = selectedOnly s.cfg.chips 0

/-- R101, R102: a write frame row completes in every state of a well-formed configuration: its events, with no deselect
at the end, the lines they leave, `sel` = k, and nothing else of the controller. -/
def Obligations.WriteFrameCompletes : Prop :=
  ∀ (s : State) (k a d : Nat), s.cfg.wf = true →
    ∃ t : State, exec (.write k a d) s = .next t
      ∧ t = { s with trace := t.trace, levels := t.levels, rx := t.rx, sel := some k }
      ∧ t.trace = s.trace ++ selectEvents s.cfg.chips k ++ sendBitsEvents s.cfg.opWrite.toNat s.cfg.idBits
          ++ sendBitsEvents a s.cfg.addrBits ++ sendBitsEvents d s.cfg.ledsPerCell
      ∧ t.levels = ⟨Level.ofBool (d.testBit 0), .low, .high, .high⟩

/-- R49, R98: at the reference receiver a write frame sets one cell of one display RAM, and its chip alone is left
selected. -/
def Obligations.WriteReachesOneCell : Prop :=
  ∀ (s : State) (k a d : Nat), s.wf → Instr.wf s.cfg (.write k a d) = true → s.levels.clk = .low →
    ∃ t : State, exec (.write k a d) s = .next t
      ∧ t.ram k a = BitVec.ofNat 8 d
      ∧ (∀ c < s.cfg.chips, ∀ a' : Nat, (c + 1 ≠ k ∨ a' ≠ a) → t.ram (c + 1) a' = s.ram (c + 1) a')
      ∧ (∀ c : Nat, t.cmdlog c = s.cmdlog c)
      ∧ t.rx.stages = selectedOnly s.cfg.chips k

/-! ### The reference receiver, event by event -/

/-- R46, R47: a rising edge of CLK shifts the chain, the level of CS going into the first stage; no other event changes
a stage (the unspecified case, a rising CLK of unknown level, apart). -/
def Obligations.ChainShiftsOnClkRise : Prop :=
  ∀ (c : Config) (lv : Lines Level) (r : Receiver),
    (lv.clk = .low → (r.take c lv (.set .clk true)).stages = (lv.cs :: r.stages).take r.stages.length)
    ∧ (lv.clk = .high → (r.take c lv (.set .clk true)).stages = r.stages)
    ∧ ∀ e : Event, e ≠ .set .clk true → (r.take c lv e).stages = r.stages

/-- R47, R48, R136: the accumulators. A stage that changes empties its chip's, X counting as 0 (log entry 18); a rising
edge of WR appends the level of DATA to those of the selected chips; a WR driven high from an unknown level may do so to
a chip that may be selected, leaving that chip's display RAM and command log (log entry 8); nothing else changes an
accumulator. -/
def Obligations.AccumulatorsLatchOnWrRise : Prop :=
  ∀ (c : Config) (lv : Lines Level) (r : Receiver) (e : Event) (j : Nat) (ch ch' : Chip),
    r.chips[j]? = some ch → (r.take c lv e).chips[j]? = some ch' →
    (ch'.stage ≠ ch.stage → ch'.acc = [])
    ∧ (ch'.stage = ch.stage →
        (e = .set .wr true → lv.wr = .low → ch.stage = .low → ch'.acc = ch.acc ++ [lv.data])
        ∧ (e = .set .wr true → lv.wr = .unknown → ch.stage ≠ .high →
            ch'.acc = ch.acc ∨ ch'.acc = ch.acc ++ [lv.data])
        ∧ (e = .set .wr true → lv.wr = .unknown → ch'.ram = ch.ram ∧ ch'.log = ch.log)
        ∧ ((e ≠ .set .wr true ∨ lv.wr = .high ∨ ch.stage = .high ∨ (lv.wr = .low ∧ ch.stage = .unknown)) →
            ch'.acc = ch.acc))

/-- R51, R136: a SELECT from any chain state with CLK low empties every accumulator, stray bits among them, where no
chip of stage 1 holds bits. R48 lets such a chip keep them, against R51's word (log entry 18): the premise is the
model's. -/
def Obligations.SelectEmptiesTheAccumulators : Prop :=
  ∀ (c : Config) (lv : Lines Level) (r : Receiver) (k : Nat),
    lv.clk = .low → r.chips.length = c.chips → k ≤ c.chips → (∀ ch ∈ r.chips, ch.stage = .high → ch.acc = []) →
    ∀ ch ∈ (busRun c (lv, r) (selectEvents c.chips k)).2.chips, ch.acc = []

/-! ### COMMIT and INIT -/

/-- R88: COMMIT visits every cell once, chip by chip, in a chip by base address, and at a base address by colour
band. -/
def Obligations.ScanOrderVisitsEveryCellOnce : Prop :=
  ∀ c : Config, c.wf = true →
    (∀ a chip : Nat, (a, chip) ∈ scanOrder c ↔ a < c.cells ∧ chip < c.chips)
    ∧ (scanOrder c).Pairwise (fun p q =>
        p.2 < q.2 ∨ (p.2 = q.2 ∧ (p.1 % c.band < q.1 % c.band
          ∨ (p.1 % c.band = q.1 % c.band ∧ p.1 / c.band < q.1 / c.band))))

/-- R89, R90, R92: COMMIT completes; it sends each dirty cell in scan order as one write transaction, clears every flag,
keeps every cell's data, leaves the last dirty cell's chip selected, and changes nothing else. -/
def Obligations.CommitSendsTheDirtyCells : Prop :=
  ∀ s : State, s.wf → s.inited = true →
    ∃ t : State, exec .commit s = .next t
      ∧ t = { s with fb := t.fb, trace := t.trace, levels := t.levels, rx := t.rx, sel := t.sel }
      ∧ t.trace = s.trace ++ commitEvents s
      ∧ (∀ a < s.cfg.cells, ∀ c < s.cfg.chips,
          t.cell a c = (if modified (s.cell a c) then s.cell a c &&& s.cfg.dataMask else s.cell a c)
          ∧ modified (t.cell a c) = false ∧ t.cell a c &&& s.cfg.dataMask = s.cell a c &&& s.cfg.dataMask)
      ∧ (∀ key : Nat, s.cfg.cells * s.cfg.chips ≤ key → Memory.read t.fb key = Memory.read s.fb key)
      ∧ (match (dirtyCells s).getLast? with
        | none => t.sel = s.sel ∧ t.levels = s.levels ∧ t.rx = s.rx
        | some p => t.sel = some (p.2 + 1)
            ∧ t.levels = ⟨Level.ofBool ((s.cell p.1 p.2).getLsbD 0), .low, .high, .high⟩)

/-- R43, R49, R89, at the reference receiver: COMMIT brings exactly the dirty cells to the display RAMs of their chips,
changes no other display RAM cell and no command log, and leaves the last one's chip selected (R133). -/
def Obligations.CommitReachesExactlyTheDirtyCells : Prop :=
  ∀ s : State, s.wf → s.inited = true → s.levels.clk = .low →
    ∃ t : State, exec .commit s = .next t
      ∧ (∀ c < s.cfg.chips, ∀ a : Nat,
          t.ram (c + 1) a
            = if a < s.cfg.cells ∧ modified (s.cell a c) = true then s.cell a c &&& s.cfg.dataMask
              else s.ram (c + 1) a)
      ∧ (∀ c : Nat, t.cmdlog c = s.cmdlog c)
      ∧ ∀ p : Nat × Nat, (dirtyCells s).getLast? = some p → t.rx.stages = selectedOnly s.cfg.chips (p.2 + 1)

/-- R90, a corner case: with no dirty cell COMMIT changes nothing. -/
def Obligations.CommitOfACleanBufferIsEmpty : Prop :=
  ∀ s : State, s.wf → s.inited = true →
    (∀ a < s.cfg.cells, ∀ c < s.cfg.chips, modified (s.cell a c) = false) → exec .commit s = .next s

/-- R90, a corner case: two COMMITs in a row make the second one empty. -/
def Obligations.SecondCommitIsEmpty : Prop :=
  ∀ s : State, s.wf → s.inited = true → ∃ t : State, exec .commit s = .next t ∧ exec .commit t = .next t

/-- R92 (d): the number of events of a COMMIT. -/
def Obligations.CommitEventCount : Prop :=
  ∀ s : State, s.wf → s.inited = true →
    ∃ t : State, exec .commit s = .next t
      ∧ t.trace.length = s.trace.length
          + ((dirtyCells s).map (fun p =>
              (2 * s.cfg.chips + 5 + 2 * p.2) + 3 * (s.cfg.idBits + s.cfg.addrBits + s.cfg.ledsPerCell))).sum

/-- R52: after COMMIT every display RAM holds the frame buffer's data and every flag is clear. -/
def Obligations.CommitMakesTheChipsCoherent : Prop :=
  ∀ s : State, s.Inv → s.inited = true → s.cleanCellsMatch →
    ∃ t : State, exec .commit s = .next t
      ∧ ∀ a < s.cfg.cells, ∀ c < s.cfg.chips,
          t.ram (c + 1) a = t.cell a c &&& s.cfg.dataMask ∧ modified (t.cell a c) = false

/-- R108 to R113, the controller's part: INIT completes from every state, emits its events, and leaves the blank
state. -/
def Obligations.InitReachesTheBlankState : Prop :=
  ∀ s : State, s.wf →
    ∃ t : State, exec .init s = .next t
      ∧ t = { s with
          fb := t.fb
          levels := ⟨.low, .low, .high, .high⟩
          configured := ⟨true, true, true, true⟩
          trace := s.trace ++ initEvents s.cfg
          inited := true
          sel := some s.cfg.chips
          rx := t.rx }
      ∧ (∀ a c : Nat, t.cell a c = 0#8) ∧ t.fb = []

/-- R113, the reference receiver's part, from every state: after INIT every display RAM cell is 0, only the last chip is
selected, and each command log has grown by the five payloads in order. The stray bit of R136 changes no log (log entry
8). A WR line at 0, as R104 says it never rests, is a rise there, whose bit may complete a frame (R48 to R50): from
such a state the log has grown on from what it was after the idle levels. -/
def Obligations.InitBlanksTheChips : Prop :=
  ∀ s : State, s.wf →
    ∃ t : State, exec .init s = .next t
      ∧ (∀ c < s.cfg.chips, ∀ a < s.cfg.cells, t.ram (c + 1) a = 0#8)
      ∧ t.rx.stages = selectedOnly s.cfg.chips s.cfg.chips
      ∧ (∀ c < s.cfg.chips, t.cmdlog c = s.idleLines.cmdlog c ++ s.cfg.initPayloads)
      ∧ (s.levels.wr ≠ .low ∨ (∀ ch ∈ s.rx.chips, ch.acc.length + 1 < s.cfg.idBits) →
          ∀ c < s.cfg.chips, t.cmdlog c = s.cmdlog c ++ s.cfg.initPayloads)

/-- R112's count of INIT's events, Cfg and Set events apart: in general, and 4 and 15244 in the default instance. -/
def Obligations.InitEventCount : Prop :=
  (∀ c : Config, c.wf = true →
    (initEvents c).countP isCfgEvent = 4
    ∧ (initEvents c).countP isSetEvent
      = 4 + 5 * ((List.range c.chips).map (fun i =>
            (2 * c.chips + 5 + 2 * i) + 3 * (c.idBits + c.cmdPayloadBits + c.cmdPadBits) + (2 * c.chips + 1))).sum
        + c.cells * ((List.range c.chips).map (fun i =>
            (2 * c.chips + 5 + 2 * i) + 3 * (c.idBits + c.addrBits + c.ledsPerCell))).sum)
  ∧ (initEvents Config.standard).countP isCfgEvent = 4
  ∧ (initEvents Config.standard).countP isSetEvent = 15244

/-- R112, R114: INIT does not depend on the controller's prior state: from two states of one configuration it appends
the same events and ends in the same controller state, the trace's past apart. -/
def Obligations.InitForgetsTheController : Prop :=
  ∀ s₁ s₂ : State, s₁.wf → s₂.wf → s₁.cfg = s₂.cfg →
    ∃ (t₁ t₂ : State) (es : List Event), exec .init s₁ = .next t₁ ∧ exec .init s₂ = .next t₂
      ∧ t₁.trace = s₁.trace ++ es ∧ t₂.trace = s₂.trace ++ es
      ∧ t₁.fb = t₂.fb ∧ t₁.levels = t₂.levels ∧ t₁.configured = t₂.configured ∧ t₁.inited = t₂.inited
      ∧ t₁.sel = t₂.sel

/-- R109: neither the trace of INIT nor the state after it depends on SENTINEL, as long as it is admissible. -/
def Obligations.SentinelIsNotObservable : Prop :=
  ∀ (s : State) (v : Byte), s.wf → ({ s.cfg with sentinel := v } : Config).wf = true →
    ∃ t : State, exec .init s = .next t
      ∧ exec .init { s with cfg := { s.cfg with sentinel := v } }
        = .next { t with cfg := { s.cfg with sentinel := v } }

/-- R92 (f), R113: after INIT a CLEAR and a COMMIT change nothing and send nothing. -/
def Obligations.FreshClearAndCommitDoNothing : Prop :=
  ∀ s : State, s.wf → ∃ t : State, exec .init s = .next t ∧ exec .clear t = .next t ∧ exec .commit t = .next t

/-! ### The whole machine -/

/-- R18, R21, R22, R23: no operation changes the configuration or takes a further request; the trace only grows; only
INIT changes `inited` or configures a line. -/
def Obligations.OnlyInitInitialises : Prop :=
  ∀ (s t : State) (i : Instr), exec i s = .next t →
    t.cfg = s.cfg ∧ t.pending = s.pending ∧ t.resets = s.resets ∧ s.trace <+: t.trace
    ∧ (i ≠ .init → t.inited = s.inited ∧ t.configured = s.configured)

/-- R25, R117: nothing the controller does depends on the chips: with another receiver every operation has the same
outcome but for the receiver. -/
def Obligations.ControllerIgnoresTheChips : Prop :=
  ∀ (s : State) (i : Instr) (r : Receiver), controllerPart (exec i { s with rx := r }) = controllerPart (exec i s)

/-- R13, R14, R16 (a), R20, R24, R104: every step keeps the machine invariant. -/
def Obligations.StepKeepsTheMachineInvariant : Prop :=
  ∀ s t : State, s.Inv → step s = .next t → t.Inv

/-- The state after reset meets the machine invariant and the coherence invariant. -/
def Obligations.ResetMeetsTheInvariants : Prop :=
  State.reset.Inv ∧ State.reset.Coherent ∧ State.reset.ConfiguredFirst

/-- R16 (a), (b): where the host issues host operations only, every step keeps coherence: a cell whose flag is clear
holds what its chip holds. -/
def Obligations.HostStepsKeepCoherence : Prop :=
  ∀ s t : State, s.Coherent → step s = .next t → t.Coherent

/-- R20: where the host issues host operations only, no step drives a line that has not been configured. -/
def Obligations.LinesAreConfiguredBeforeDriven : Prop :=
  ∀ s t : State, s.ConfiguredFirst → step s = .next t → t.ConfiguredFirst

/-- R19, R21: every step keeps each line's level the one its last Set in the trace gave it. -/
def Obligations.LevelsFollowTheTrace : Prop :=
  LevelsTraced State.reset ∧ ∀ s t : State, LevelsTraced s → step s = .next t → LevelsTraced t

/-- R21: the transition trace, fixed event by event: a Cfg and a Set that repeats its line's level are removed, every
other Set is kept, and what is kept of a later event depends on the levels the earlier ones leave. It gives the same
final levels as the trace, is a subsequence of it, and loses nothing when taken again. -/
def Obligations.TransitionsKeepTheWaveform : Prop :=
  ∀ (lv : Lines Level) (es : List Event),
    (∀ l : Line, transitionsFrom lv [.cfg l] = [])
    ∧ (∀ (l : Line) (b : Bool),
        transitionsFrom lv [.set l b] = if lv.get l = Level.ofBool b then [] else [.set l b])
    ∧ (∀ es' : List Event,
        transitionsFrom lv (es ++ es') = transitionsFrom lv es ++ transitionsFrom (es.foldl levelsAfter lv) es')
    ∧ (transitionsFrom lv es).foldl levelsAfter lv = es.foldl levelsAfter lv
    ∧ transitionsFrom lv (transitionsFrom lv es) = transitionsFrom lv es
    ∧ (transitionsFrom lv es).Sublist es
end

