-- ==== Sys2Proof/Laws/Config.lean ====
section
/-! SUPPORT. What a well-formed configuration gives: the exact divisions of R7, and the derived constants of R5 as
products. -/

namespace Sys2Proof.Config

variable {c : Config}

theorem wf_parts (h : c.wf = true) :
    c.parametersPositive = true ∧ c.regionsEqual = true ∧ c.cellFits = true ∧ c.addressFits = true
      ∧ c.panelFits = true ∧ c.sentinelAdmissible = true := by
  simpa [wf, Bool.and_eq_true, and_assoc] using h

theorem wf_positive (h : c.wf = true) :
    0 < c.w ∧ 0 < c.h ∧ 0 < c.chipsX ∧ 0 < c.chipsY ∧ 0 < c.colors ∧ 0 < c.ledsPerCell := by
  simpa [parametersPositive, Bool.and_eq_true, and_assoc] using (wf_parts h).1

theorem wf_leds (h : c.wf = true) : c.ledsPerCell ≤ 7 := by
  simpa [cellFits] using (wf_parts h).2.2.1

theorem chips_pos (h : c.wf = true) : 0 < c.chips := by
  obtain ⟨-, -, hx, hy, -, -⟩ := wf_positive h
  exact Nat.mul_pos hx hy

/-- W = CW * CHIPS_X (R7). -/
theorem w_eq (h : c.wf = true) : c.w = c.cw * c.chipsX := by
  have hr := (wf_parts h).2.1
  simp only [regionsEqual, Bool.and_eq_true, decide_eq_true_eq] at hr
  exact (Nat.div_mul_cancel (Nat.dvd_of_mod_eq_zero hr.1.1)).symm

/-- H = CHh * CHIPS_Y (R7). -/
theorem h_eq (h : c.wf = true) : c.h = c.chh * c.chipsY := by
  have hr := (wf_parts h).2.1
  simp only [regionsEqual, Bool.and_eq_true, decide_eq_true_eq] at hr
  exact (Nat.div_mul_cancel (Nat.dvd_of_mod_eq_zero hr.1.2)).symm

/-- CHh = CPC * LEDS_PER_CELL (R7). -/
theorem chh_eq (h : c.wf = true) : c.chh = c.cpc * c.ledsPerCell := by
  have hr := (wf_parts h).2.1
  simp only [regionsEqual, Bool.and_eq_true, decide_eq_true_eq] at hr
  have hd : c.chh / c.ledsPerCell = c.cpc := Nat.div_div_eq_div_mul c.h c.chipsY c.ledsPerCell
  rw [← hd]
  exact (Nat.div_mul_cancel (Nat.dvd_of_mod_eq_zero hr.2)).symm

/-- CELLS = CW * CPC * COLORS (R5). -/
theorem cells_eq (h : c.wf = true) : c.cells = c.cw * c.cpc * c.colors := by
  obtain ⟨-, -, hx, hy, -, hl⟩ := wf_positive h
  have hpos : 0 < c.ledsPerCell * c.chips := Nat.mul_pos hl (Nat.mul_pos hx hy)
  have hprod : c.w * c.h * c.colors = c.cw * c.cpc * c.colors * (c.ledsPerCell * c.chips) := by
    have h1 := w_eq h
    have h2 := h_eq h
    have h3 := chh_eq h
    calc c.w * c.h * c.colors = (c.cw * c.chipsX) * (c.cpc * c.ledsPerCell * c.chipsY) * c.colors := by
          rw [← h1, ← h3, ← h2]
      _ = c.cw * c.cpc * c.colors * (c.ledsPerCell * c.chips) := by
          unfold chips
          ring
  rw [cells, hprod, Nat.mul_div_cancel _ hpos]

/-- BAND = CW * CPC (R5). -/
theorem band_eq (h : c.wf = true) : c.band = c.cw * c.cpc := by
  obtain ⟨-, -, -, -, hc, -⟩ := wf_positive h
  rw [band, cells_eq h, Nat.mul_div_cancel _ hc]

end Sys2Proof.Config
end

