-- ==== Sys2Proof/Laws/Memory.lean ====
section
/-! SUPPORT. The laws of memory: what a write changes and leaves, and that every memory operation keeps the canonical
form and the range of the keys. -/

namespace Sys2Proof.Machine

open Sys2Proof

theorem Memory.read_cons (k : Nat) (v : Byte) (m : Memory) (a : Nat) :
    Memory.read ((k, v) :: m) a = if k = a then v else Memory.read m a := rfl

/-- A key that no entry has reads as an unlisted cell. -/
theorem Memory.read_absent {m : Memory} {a : Nat} (h : ∀ p ∈ m, p.1 ≠ a) :
    Memory.read m a = Memory.unlisted := by
  induction m with
  | nil => rfl
  | cons p m ih =>
    obtain ⟨k, v⟩ := p
    rw [Memory.read_cons, if_neg (h (k, v) (by simp))]
    exact ih (fun p hp => h p (by simp [hp]))

/-- The entries of a memory are what it reads as. -/
theorem Memory.read_of_mem {m : Memory} (hm : Memory.wf m) {p : Host.Cell} (hp : p ∈ m) :
    Memory.read m p.1 = p.2 := by
  induction m with
  | nil => cases hp
  | cons q m ih =>
    obtain ⟨k, v⟩ := q
    obtain ⟨hs, hn⟩ := hm
    rw [List.pairwise_cons] at hs
    rcases List.mem_cons.1 hp with rfl | hp'
    · simp [Memory.read_cons]
    · have hlt := hs.1 p hp'
      rw [Memory.read_cons, if_neg (by simp only at hlt; omega)]
      exact ih ⟨hs.2, fun r hr => hn r (by simp [hr])⟩ hp'

/-- Every key of a written memory is the written one or an old one. -/
theorem Memory.mem_write {a : Nat} {v : Byte} {m : Memory} {p : Host.Cell} (h : p ∈ Memory.write a v m) :
    p = (a, v) ∨ p ∈ m := by
  induction m with
  | nil =>
    simp only [Memory.write] at h
    split at h
    · cases h
    · exact .inl (by simpa using h)
  | cons q m ih =>
    obtain ⟨k, w⟩ := q
    simp only [Memory.write] at h
    split at h
    · split at h
      · exact .inr h
      · rcases List.mem_cons.1 h with h | h
        · exact .inl h
        · exact .inr h
    · split at h
      · split at h
        · exact .inr (List.mem_cons_of_mem _ h)
        · rcases List.mem_cons.1 h with h | h
          · exact .inl h
          · exact .inr (List.mem_cons_of_mem _ h)
      · rcases List.mem_cons.1 h with h | h
        · exact .inr (by simp [h])
        · rcases ih h with h | h
          · exact .inl h
          · exact .inr (List.mem_cons_of_mem _ h)

/-- A write keeps the canonical form. -/
theorem Memory.write_wf {m : Memory} (a : Nat) (v : Byte) (hm : Memory.wf m) : Memory.wf (Memory.write a v m) := by
  induction m with
  | nil =>
    simp only [Memory.write]
    split
    · exact hm
    · rename_i hv
      exact ⟨List.pairwise_singleton _ _, by simpa using hv⟩
  | cons q m ih =>
    obtain ⟨k, w⟩ := q
    obtain ⟨hs, hn⟩ := hm
    have hs' := List.pairwise_cons.1 hs
    have htail : Memory.wf m := ⟨hs'.2, fun p hp => hn p (by simp [hp])⟩
    simp only [Memory.write]
    split
    case isTrue hlt =>
      split
      · exact ⟨hs, hn⟩
      · rename_i hv
        refine ⟨List.pairwise_cons.2 ⟨fun p hp => ?_, hs⟩, fun p hp => ?_⟩
        · rcases List.mem_cons.1 hp with rfl | hp
          · exact hlt
          · exact Nat.lt_trans hlt (hs'.1 p hp)
        · rcases List.mem_cons.1 hp with rfl | hp
          · exact hv
          · exact hn p hp
    case isFalse hge =>
      split
      case isTrue heq =>
        subst heq
        split
        · exact htail
        · rename_i hv
          refine ⟨List.pairwise_cons.2 ⟨hs'.1, hs'.2⟩, fun p hp => ?_⟩
          rcases List.mem_cons.1 hp with rfl | hp
          · exact hv
          · exact hn p (by simp [hp])
      case isFalse hne =>
        have hw := ih htail
        refine ⟨List.pairwise_cons.2 ⟨fun p hp => ?_, hw.1⟩, fun p hp => ?_⟩
        · rcases Memory.mem_write hp with rfl | hp
          · show k < a
            omega
          · exact hs'.1 p hp
        · rcases List.mem_cons.1 hp with rfl | hp
          · exact hn _ (by simp)
          · exact hw.2 p hp

/-- A write of a key below `n` keeps the keys below `n`. -/
theorem Memory.write_below {n a : Nat} {m : Memory} (v : Byte) (ha : a < n) (hm : Memory.below n m) :
    Memory.below n (Memory.write a v m) := by
  intro p hp
  rcases Memory.mem_write hp with rfl | hp
  · exact ha
  · exact hm p hp

/-- Reading the key just written gives the value written. -/
theorem Memory.read_write_same {m : Memory} (a : Nat) (v : Byte) (hm : Memory.wf m) :
    Memory.read (Memory.write a v m) a = v := by
  induction m with
  | nil =>
    simp only [Memory.write]
    split
    · simp_all [Memory.read]
    · simp [Memory.read]
  | cons q m ih =>
    obtain ⟨k, w⟩ := q
    obtain ⟨hs, hn⟩ := hm
    have hs' := List.pairwise_cons.1 hs
    simp only [Memory.write]
    split
    case isTrue hlt =>
      split
      case isTrue hv =>
        rw [hv]
        refine Memory.read_absent (fun p hp => ?_)
        rcases List.mem_cons.1 hp with rfl | hp
        · show k ≠ a
          omega
        · have := hs'.1 p hp
          simp only at this
          omega
      case isFalse => simp [Memory.read_cons]
    case isFalse hge =>
      split
      case isTrue heq =>
        subst heq
        split
        case isTrue hv =>
          rw [hv]
          refine Memory.read_absent (fun p hp => ?_)
          have := hs'.1 p hp
          simp only at this
          omega
        case isFalse => simp [Memory.read_cons]
      case isFalse hne =>
        rw [Memory.read_cons, if_neg (by omega)]
        exact ih ⟨hs'.2, fun p hp => hn p (by simp [hp])⟩

/-- A write leaves every other key as it was. -/
theorem Memory.read_write_other {m : Memory} {a b : Nat} (v : Byte) (h : b ≠ a) :
    Memory.read (Memory.write a v m) b = Memory.read m b := by
  induction m with
  | nil =>
    simp only [Memory.write]
    split
    · rfl
    · rw [Memory.read_cons, if_neg (by omega)]
  | cons q m ih =>
    obtain ⟨k, w⟩ := q
    simp only [Memory.write]
    split
    · split
      · rfl
      · rw [Memory.read_cons, if_neg (by omega)]
    · split
      case isTrue heq =>
        subst heq
        split
        · rw [Memory.read_cons, if_neg (by omega)]
        · rw [Memory.read_cons, Memory.read_cons, if_neg (by omega), if_neg (by omega)]
      case isFalse => rw [Memory.read_cons, Memory.read_cons, ih]

/-- A write, at any key. -/
theorem Memory.read_write {m : Memory} (a b : Nat) (v : Byte) (hm : Memory.wf m) :
    Memory.read (Memory.write a v m) b = if b = a then v else Memory.read m b := by
  split
  case isTrue h => rw [h]; exact Memory.read_write_same a v hm
  case isFalse h => exact Memory.read_write_other v h

/-- Two memories in canonical form that read alike are equal. -/
theorem Memory.eq_of_read {m₁ m₂ : Memory} (h₁ : Memory.wf m₁) (h₂ : Memory.wf m₂)
    (h : ∀ a, Memory.read m₁ a = Memory.read m₂ a) : m₁ = m₂ := by
  induction m₁ generalizing m₂ with
  | nil =>
    cases m₂ with
    | nil => rfl
    | cons q m₂ =>
      have := h q.1
      rw [Memory.read_of_mem h₂ (by simp)] at this
      exact absurd this.symm (h₂.2 q (by simp))
  | cons p m₁ ih =>
    obtain ⟨hs₁, hn₁⟩ := h₁
    have hs₁' := List.pairwise_cons.1 hs₁
    cases m₂ with
    | nil =>
      have := h p.1
      rw [Memory.read_of_mem ⟨hs₁, hn₁⟩ (by simp)] at this
      exact absurd this (hn₁ p (by simp))
    | cons q m₂ =>
      obtain ⟨hs₂, hn₂⟩ := h₂
      have hs₂' := List.pairwise_cons.1 hs₂
      have hp : Memory.read (q :: m₂) p.1 = p.2 := by
        rw [← h p.1]; exact Memory.read_of_mem ⟨hs₁, hn₁⟩ (by simp)
      have hq : Memory.read (p :: m₁) q.1 = q.2 := by
        rw [h q.1]; exact Memory.read_of_mem ⟨hs₂, hn₂⟩ (by simp)
      have hk : p.1 = q.1 := by
        rcases Nat.lt_trichotomy p.1 q.1 with hlt | heq | hgt
        · exfalso
          refine hn₁ p (by simp) ?_
          rw [← hp]
          refine Memory.read_absent (fun r hr => ?_)
          rcases List.mem_cons.1 hr with rfl | hr
          · omega
          · have := hs₂'.1 r hr
            omega
        · exact heq
        · exfalso
          refine hn₂ q (by simp) ?_
          rw [← hq]
          refine Memory.read_absent (fun r hr => ?_)
          rcases List.mem_cons.1 hr with rfl | hr
          · omega
          · have := hs₁'.1 r hr
            omega
      have hpq : p = q := by
        refine Prod.ext hk ?_
        rw [← hp, hk]
        exact Memory.read_of_mem (m := q :: m₂) ⟨hs₂, hn₂⟩ (by simp)
      subst hpq
      congr 1
      refine ih ⟨hs₁'.2, fun r hr => hn₁ r (by simp [hr])⟩ ⟨hs₂'.2, fun r hr => hn₂ r (by simp [hr])⟩ (fun a => ?_)
      by_cases ha : p.1 = a
      · rw [Memory.read_absent (fun r hr => ?_), Memory.read_absent (fun r hr => ?_)]
        · have := hs₂'.1 r hr
          omega
        · have := hs₁'.1 r hr
          omega
      · have := h a
        obtain ⟨k, v⟩ := p
        rwa [Memory.read_cons, Memory.read_cons, if_neg ha, if_neg ha] at this

/-- A property of memories that every write of a list keeps holds after all of them. -/
theorem Memory.foldl_keeps {α : Type} {P : Memory → Prop} {f : Memory → α → Memory} (l : List α)
    (hf : ∀ m, ∀ x ∈ l, P m → P (f m x)) {m : Memory} (hm : P m) : P (l.foldl f m) := by
  induction l generalizing m with
  | nil => exact hm
  | cons x l ih =>
    exact ih (fun m y hy => hf m y (by simp [hy])) (hf m x (by simp) hm)

/-! ### The operations on memory keep the canonical form -/

/-- The cell updater stores at one key at most, and only the updated value (R76). -/
theorem cellUpdate_wf {c : Config} {key : Nat} {v : Byte} {m : Memory} (hm : Memory.wf m) :
    Memory.wf (cellUpdate c key v m) := by
  unfold cellUpdate
  split
  · exact hm
  · exact Memory.write_wf _ _ hm

/-- Everything the cell updater does, read by read (R76). -/
theorem read_cellUpdate {c : Config} {key b : Nat} {v : Byte} {m : Memory} (hm : Memory.wf m) :
    Memory.read (cellUpdate c key v m) b
      = if b = key then updatedCell c (Memory.read m key) v else Memory.read m b := by
  unfold cellUpdate updatedCell
  by_cases hb : b = key
  · subst hb
    by_cases hv : cellData c (Memory.read m b) = v
    · simp [hv]
    · simp [hv, Memory.read_write_same _ _ hm]
  · rw [if_neg hb]
    split
    · rfl
    · exact Memory.read_write_other _ hb

/-- One channel of a PLOT, read by read (R75, R76). -/
theorem read_plotChannel {c : Config} {key b : Nat} {mask : Byte} {lit : Bool} {m : Memory} (hm : Memory.wf m) :
    Memory.read (plotChannel c key mask lit m) b
      = if b = key then plottedCell c mask lit (Memory.read m key) else Memory.read m b :=
  read_cellUpdate hm

theorem plotChannel_wf {c : Config} {key : Nat} {mask : Byte} {lit : Bool} {m : Memory} (hm : Memory.wf m) :
    Memory.wf (plotChannel c key mask lit m) := cellUpdate_wf hm

theorem plotPixel_wf {c : Config} {x y color : Nat} {m : Memory} (hm : Memory.wf m) :
    Memory.wf (plotPixel c x y color m) :=
  Memory.foldl_keeps _ (fun _ _ _ h => plotChannel_wf h) hm

theorem clearBuffer_wf {c : Config} {m : Memory} (hm : Memory.wf m) : Memory.wf (clearBuffer c m) :=
  Memory.foldl_keeps _ (fun _ _ _ h => plotPixel_wf h) hm

theorem filledBuffer_wf {c : Config} {m : Memory} (hm : Memory.wf m) : Memory.wf (filledBuffer c m) :=
  Memory.foldl_keeps _ (fun _ _ _ h => Memory.foldl_keeps _ (fun _ _ _ h' => Memory.write_wf _ _ h') h) hm

theorem freeFrameBuffer_wf (c : Config) (n : Nat) : Memory.wf (freeFrameBuffer c n) :=
  Memory.foldl_keeps _ (fun _ _ _ h => Memory.write_wf _ _ h) ⟨List.Pairwise.nil, by simp⟩

theorem freeFrameBuffer_below (c : Config) (n : Nat) : Memory.below c.size (freeFrameBuffer c n) :=
  Memory.foldl_keeps _ (fun _ _ hx h => Memory.write_below _ (List.mem_range.1 hx) h) (by intro p hp; cases hp)

theorem freeRam_wf (c : Config) (n k : Nat) : Memory.wf (freeRam c n k) :=
  Memory.foldl_keeps _ (fun _ _ _ h => Memory.write_wf _ _ h) ⟨List.Pairwise.nil, by simp⟩

theorem freeRam_below (c : Config) (n k : Nat) : Memory.below c.cells (freeRam c n k) :=
  Memory.foldl_keeps _ (fun _ _ hx h => Memory.write_below _ (List.mem_range.1 hx) h) (by intro p hp; cases hp)

/-- The frame buffer stays canonical when COMMIT clears a cell's flag. -/
theorem setCell_wf {s : State} {a c : Nat} {v : Byte} (hm : Memory.wf s.fb) : Memory.wf (s.setCell a c v).fb :=
  Memory.write_wf _ _ hm

/-- A chip's display RAM stays canonical under every frame effect (R49, U7). -/
theorem takeEffect_ram_wf {c : Config} {n k : Nat} {ch : Chip} (e : FrameEffect) (hm : Memory.wf ch.ram) :
    Memory.wf (ch.takeEffect c n k e).ram := by
  cases e with
  | nothing => exact hm
  | writeRam a d => exact Memory.write_wf _ _ hm
  | logCommand p => exact hm
  | unspecified => exact freeRam_wf c n k

/-- The memory after reset is canonical. -/
theorem reset_fb_wf : Memory.wf State.reset.fb := by decide

end Sys2Proof.Machine
end

