-- ==== Sys2Proof/Laws/State.lean ====
section
/-! SUPPORT. One lemma for each field and each update of the state: what the update leaves the field with. -/

namespace Sys2Proof.Machine

open Sys2Proof

variable (s : State)

/-! ### emit -/

@[simp] theorem State.emit_cfg (es : List Event) : (s.emit es).cfg = s.cfg := rfl
@[simp] theorem State.emit_fb (es : List Event) : (s.emit es).fb = s.fb := rfl
@[simp] theorem State.emit_levels (es : List Event) : (s.emit es).levels = (busRun s.cfg (s.levels, s.rx) es).1 := rfl
@[simp] theorem State.emit_configured (es : List Event) : (s.emit es).configured = s.configured := rfl
@[simp] theorem State.emit_trace (es : List Event) : (s.emit es).trace = s.trace ++ es := rfl
@[simp] theorem State.emit_inited (es : List Event) : (s.emit es).inited = s.inited := rfl
@[simp] theorem State.emit_sel (es : List Event) : (s.emit es).sel = s.sel := rfl
@[simp] theorem State.emit_rx (es : List Event) : (s.emit es).rx = (busRun s.cfg (s.levels, s.rx) es).2 := rfl
@[simp] theorem State.emit_pending (es : List Event) : (s.emit es).pending = s.pending := rfl
@[simp] theorem State.emit_resets (es : List Event) : (s.emit es).resets = s.resets := rfl

/-! ### setCell -/

@[simp] theorem State.setCell_cfg (a c : Nat) (v : Byte) : (s.setCell a c v).cfg = s.cfg := rfl
@[simp] theorem State.setCell_fb (a c : Nat) (v : Byte) : (s.setCell a c v).fb = Memory.write (cellKey s.cfg a c) v s.fb := rfl
@[simp] theorem State.setCell_levels (a c : Nat) (v : Byte) : (s.setCell a c v).levels = s.levels := rfl
@[simp] theorem State.setCell_configured (a c : Nat) (v : Byte) : (s.setCell a c v).configured = s.configured := rfl
@[simp] theorem State.setCell_trace (a c : Nat) (v : Byte) : (s.setCell a c v).trace = s.trace := rfl
@[simp] theorem State.setCell_inited (a c : Nat) (v : Byte) : (s.setCell a c v).inited = s.inited := rfl
@[simp] theorem State.setCell_sel (a c : Nat) (v : Byte) : (s.setCell a c v).sel = s.sel := rfl
@[simp] theorem State.setCell_rx (a c : Nat) (v : Byte) : (s.setCell a c v).rx = s.rx := rfl
@[simp] theorem State.setCell_pending (a c : Nat) (v : Byte) : (s.setCell a c v).pending = s.pending := rfl
@[simp] theorem State.setCell_resets (a c : Nat) (v : Byte) : (s.setCell a c v).resets = s.resets := rfl

/-! ### configureLine -/

@[simp] theorem State.configureLine_cfg (l : Line) (b : Bool) : (s.configureLine l b).cfg = s.cfg := rfl
@[simp] theorem State.configureLine_fb (l : Line) (b : Bool) : (s.configureLine l b).fb = s.fb := rfl
@[simp] theorem State.configureLine_levels (l : Line) (b : Bool) : (s.configureLine l b).levels = s.levels.put l (Level.ofBool b) := rfl
@[simp] theorem State.configureLine_configured (l : Line) (b : Bool) : (s.configureLine l b).configured = s.configured.put l true := rfl
@[simp] theorem State.configureLine_trace (l : Line) (b : Bool) : (s.configureLine l b).trace = s.trace ++ [.cfg l, .set l b] := rfl
@[simp] theorem State.configureLine_inited (l : Line) (b : Bool) : (s.configureLine l b).inited = s.inited := rfl
@[simp] theorem State.configureLine_sel (l : Line) (b : Bool) : (s.configureLine l b).sel = s.sel := rfl
@[simp] theorem State.configureLine_pending (l : Line) (b : Bool) : (s.configureLine l b).pending = s.pending := rfl
@[simp] theorem State.configureLine_resets (l : Line) (b : Bool) : (s.configureLine l b).resets = s.resets := rfl

/-! ### select -/

@[simp] theorem State.select_cfg (k : Nat) : (s.select k).cfg = s.cfg := rfl
@[simp] theorem State.select_fb (k : Nat) : (s.select k).fb = s.fb := rfl
@[simp] theorem State.select_configured (k : Nat) : (s.select k).configured = s.configured := rfl
@[simp] theorem State.select_trace (k : Nat) : (s.select k).trace = s.trace ++ selectEvents s.cfg.chips k := rfl
@[simp] theorem State.select_inited (k : Nat) : (s.select k).inited = s.inited := rfl
@[simp] theorem State.select_sel (k : Nat) : (s.select k).sel = some k := rfl
@[simp] theorem State.select_pending (k : Nat) : (s.select k).pending = s.pending := rfl
@[simp] theorem State.select_resets (k : Nat) : (s.select k).resets = s.resets := rfl

/-! ### sendBits -/

@[simp] theorem State.sendBits_cfg (v n : Nat) : (s.sendBits v n).cfg = s.cfg := rfl
@[simp] theorem State.sendBits_fb (v n : Nat) : (s.sendBits v n).fb = s.fb := rfl
@[simp] theorem State.sendBits_configured (v n : Nat) : (s.sendBits v n).configured = s.configured := rfl
@[simp] theorem State.sendBits_trace (v n : Nat) : (s.sendBits v n).trace = s.trace ++ sendBitsEvents v n := rfl
@[simp] theorem State.sendBits_inited (v n : Nat) : (s.sendBits v n).inited = s.inited := rfl
@[simp] theorem State.sendBits_sel (v n : Nat) : (s.sendBits v n).sel = s.sel := rfl
@[simp] theorem State.sendBits_pending (v n : Nat) : (s.sendBits v n).pending = s.pending := rfl
@[simp] theorem State.sendBits_resets (v n : Nat) : (s.sendBits v n).resets = s.resets := rfl

/-! ### sendCmd -/

@[simp] theorem State.sendCmd_cfg (k p : Nat) : (s.sendCmd k p).cfg = s.cfg := rfl
@[simp] theorem State.sendCmd_fb (k p : Nat) : (s.sendCmd k p).fb = s.fb := rfl
@[simp] theorem State.sendCmd_configured (k p : Nat) : (s.sendCmd k p).configured = s.configured := rfl
@[simp] theorem State.sendCmd_inited (k p : Nat) : (s.sendCmd k p).inited = s.inited := rfl
@[simp] theorem State.sendCmd_sel (k p : Nat) : (s.sendCmd k p).sel = some 0 := rfl
@[simp] theorem State.sendCmd_pending (k p : Nat) : (s.sendCmd k p).pending = s.pending := rfl
@[simp] theorem State.sendCmd_resets (k p : Nat) : (s.sendCmd k p).resets = s.resets := rfl

/-! ### sendData -/

@[simp] theorem State.sendData_cfg (k a d : Nat) : (s.sendData k a d).cfg = s.cfg := rfl
@[simp] theorem State.sendData_fb (k a d : Nat) : (s.sendData k a d).fb = s.fb := rfl
@[simp] theorem State.sendData_configured (k a d : Nat) : (s.sendData k a d).configured = s.configured := rfl
@[simp] theorem State.sendData_inited (k a d : Nat) : (s.sendData k a d).inited = s.inited := rfl
@[simp] theorem State.sendData_sel (k a d : Nat) : (s.sendData k a d).sel = some k := rfl
@[simp] theorem State.sendData_pending (k a d : Nat) : (s.sendData k a d).pending = s.pending := rfl
@[simp] theorem State.sendData_resets (k a d : Nat) : (s.sendData k a d).resets = s.resets := rfl

/-! ### clearBody -/

@[simp] theorem State.clearBody_cfg : (s.clearBody).cfg = s.cfg := rfl
@[simp] theorem State.clearBody_fb : (s.clearBody).fb = clearBuffer s.cfg s.fb := rfl
@[simp] theorem State.clearBody_levels : (s.clearBody).levels = s.levels := rfl
@[simp] theorem State.clearBody_configured : (s.clearBody).configured = s.configured := rfl
@[simp] theorem State.clearBody_trace : (s.clearBody).trace = s.trace := rfl
@[simp] theorem State.clearBody_inited : (s.clearBody).inited = s.inited := rfl
@[simp] theorem State.clearBody_sel : (s.clearBody).sel = s.sel := rfl
@[simp] theorem State.clearBody_rx : (s.clearBody).rx = s.rx := rfl
@[simp] theorem State.clearBody_pending : (s.clearBody).pending = s.pending := rfl
@[simp] theorem State.clearBody_resets : (s.clearBody).resets = s.resets := rfl

/-! ### fillBody -/

@[simp] theorem State.fillBody_cfg : (s.fillBody).cfg = s.cfg := rfl
@[simp] theorem State.fillBody_fb : (s.fillBody).fb = filledBuffer s.cfg s.fb := rfl
@[simp] theorem State.fillBody_levels : (s.fillBody).levels = s.levels := rfl
@[simp] theorem State.fillBody_configured : (s.fillBody).configured = s.configured := rfl
@[simp] theorem State.fillBody_trace : (s.fillBody).trace = s.trace := rfl
@[simp] theorem State.fillBody_inited : (s.fillBody).inited = s.inited := rfl
@[simp] theorem State.fillBody_sel : (s.fillBody).sel = s.sel := rfl
@[simp] theorem State.fillBody_rx : (s.fillBody).rx = s.rx := rfl
@[simp] theorem State.fillBody_pending : (s.fillBody).pending = s.pending := rfl
@[simp] theorem State.fillBody_resets : (s.fillBody).resets = s.resets := rfl

/-! ### resetEvent -/

@[simp] theorem State.resetEvent_cfg : (s.resetEvent).cfg = s.cfg := rfl
@[simp] theorem State.resetEvent_fb : (s.resetEvent).fb = freeFrameBuffer s.cfg s.resets := rfl
@[simp] theorem State.resetEvent_levels : (s.resetEvent).levels = allLines .unknown := rfl
@[simp] theorem State.resetEvent_configured : (s.resetEvent).configured = allLines false := rfl
@[simp] theorem State.resetEvent_trace : (s.resetEvent).trace = [] := rfl
@[simp] theorem State.resetEvent_inited : (s.resetEvent).inited = false := rfl
@[simp] theorem State.resetEvent_sel : (s.resetEvent).sel = none := rfl
@[simp] theorem State.resetEvent_rx : (s.resetEvent).rx = s.rx := rfl
@[simp] theorem State.resetEvent_pending : (s.resetEvent).pending = s.pending := rfl
@[simp] theorem State.resetEvent_resets : (s.resetEvent).resets = s.resets + 1 := rfl

/-! ### withFetchWord -/

@[simp] theorem State.withFetchWord_cfg (nbits w : Nat) : (s.withFetchWord nbits w).cfg = s.cfg := rfl
@[simp] theorem State.withFetchWord_fb (nbits w : Nat) : (s.withFetchWord nbits w).fb = s.fb := rfl
@[simp] theorem State.withFetchWord_levels (nbits w : Nat) : (s.withFetchWord nbits w).levels = s.levels := rfl
@[simp] theorem State.withFetchWord_configured (nbits w : Nat) : (s.withFetchWord nbits w).configured = s.configured := rfl
@[simp] theorem State.withFetchWord_trace (nbits w : Nat) : (s.withFetchWord nbits w).trace = s.trace := rfl
@[simp] theorem State.withFetchWord_inited (nbits w : Nat) : (s.withFetchWord nbits w).inited = s.inited := rfl
@[simp] theorem State.withFetchWord_sel (nbits w : Nat) : (s.withFetchWord nbits w).sel = s.sel := rfl
@[simp] theorem State.withFetchWord_rx (nbits w : Nat) : (s.withFetchWord nbits w).rx = s.rx := rfl
@[simp] theorem State.withFetchWord_pending (nbits w : Nat) : (s.withFetchWord nbits w).pending = tableRequest s.cfg nbits w :: s.pending := rfl
@[simp] theorem State.withFetchWord_resets (nbits w : Nat) : (s.withFetchWord nbits w).resets = s.resets := rfl

end Sys2Proof.Machine
end

