-- ==== Sys2Proof/Laws/Ops.lean ====
section
/-! SUPPORT. One spec lemma for each shared operation: events, the encoder's procedures, the guards, and what each
meaning and the step can answer. -/

namespace Sys2Proof.Machine

open Sys2Proof

/-! ### Lines -/

@[simp] theorem Lines.get_put {α : Type} (v : Lines α) (l l' : Line) (x : α) :
    (v.put l x).get l' = if l = l' then x else v.get l' := by
  cases l <;> cases l' <;> rfl

/-! ### Events -/

@[simp] theorem busRun_nil (c : Config) (b : Lines Level × Receiver) : busRun c b [] = b := rfl

@[simp] theorem busRun_cons (c : Config) (b : Lines Level × Receiver) (e : Event) (es : List Event) :
    busRun c b (e :: es) = busRun c (busStep c b e) es := rfl

theorem busRun_append (c : Config) (b : Lines Level × Receiver) (es es' : List Event) :
    busRun c b (es ++ es') = busRun c (busRun c b es) es' := List.foldl_append

/-- The levels after events do not depend on the receiver (R25). -/
theorem busRun_levels (c : Config) (b : Lines Level × Receiver) (es : List Event) :
    (busRun c b es).1 = es.foldl levelsAfter b.1 := by
  induction es generalizing b with
  | nil => rfl
  | cons e es ih => exact ih (busStep c b e)

/-- Emitting one list after another is emitting both. -/
theorem State.emit_emit (s : State) (es es' : List Event) : (s.emit es).emit es' = s.emit (es ++ es') := by
  simp [State.emit, busRun_append]

/-- SELECT's events do not depend on anything but the number of chips (R95, R96). -/
theorem State.select_eq (s : State) (k : Nat) : s.select k = { s.emit (selectEvents s.cfg.chips k) with sel := some k } :=
  rfl

/-- SENDCMD is the emission of its events, with `sel` left at 0 (R100). -/
theorem State.sendCmd_eq (s : State) (k p : Nat) :
    s.sendCmd k p = { s.emit (sendCmdEvents s.cfg k p) with sel := some 0 } := by
  simp [State.sendCmd, State.sendBits, State.select, sendCmdEvents, State.emit, busRun_append, List.append_assoc]

/-- SENDDATA is the emission of its events, with `sel` left at k (R101, R102). -/
theorem State.sendData_eq (s : State) (k a d : Nat) :
    s.sendData k a d = { s.emit (sendDataEvents s.cfg k a d) with sel := some k } := by
  simp [State.sendData, State.sendBits, State.select, sendDataEvents, State.emit, busRun_append, List.append_assoc]

/-- The idle levels of INIT are the emission of its first eight events (R108). -/
theorem State.idleLines_eq (s : State) :
    s.idleLines = { s.emit idleEvents with configured := allLines true } := by
  simp [State.idleLines, State.configureLine, State.emit, idleEvents, Lines.put, allLines]

/-! ### Guards -/

theorem Guard.config_next {s t : State} {k : Result} (h : Guard.config s k = .next t) :
    s.cfg.wf = true ∧ k = .next t := by
  unfold Guard.config at h
  split at h
  · exact ⟨‹_›, h⟩
  · cases h

theorem Guard.config_of_wf {s : State} {k : Result} (h : s.cfg.wf = true) : Guard.config s k = k := if_pos h

theorem Guard.config_of_not_wf {s : State} {k : Result} (h : s.cfg.wf = false) :
    Guard.config s k = .refused .illFormedConfig := by simp [Guard.config, h]

theorem Guard.inited_next {op : Instr} {s t : State} {k : Result} (h : Guard.inited op s k = .next t) :
    s.inited = true ∧ k = .next t := by
  unfold Guard.inited at h
  split at h
  · exact ⟨‹_›, h⟩
  · cases h

theorem Guard.inited_of_inited {op : Instr} {s : State} {k : Result} (h : s.inited = true) :
    Guard.inited op s k = k := if_pos h

/-! ### What each meaning can answer when it answers a next state -/

theorem execInit_next {s t : State} (h : execInit s = .next t) : s.cfg.wf = true ∧ t = s.initBody := by
  obtain ⟨hw, hk⟩ := Guard.config_next h
  exact ⟨hw, (Host.Outcome.next.inj hk).symm⟩

/-- PLOT changes the frame buffer at most, and that by one pixel's update (R71, R77, R78). -/
theorem plotBody_next {x y : Int} {color : Nat} {s t : State} (h : plotBody x y color s = .next t) :
    t = s ∨ (rangeRejects s.cfg x y = false ∧ t = { s with fb := plotPixel s.cfg x.toNat y.toNat color s.fb }
      ∧ (chipIndex s.cfg x.toNat y.toNat < s.cfg.chips
        ∨ (s.cfg.yEqH = .aliasFlat ∧ lastLinearIndex s.cfg x.toNat y.toNat < s.cfg.size))) := by
  unfold plotBody at h
  split at h
  · exact .inl (Host.Outcome.next.inj h).symm
  · rename_i hr
    have hr' : rangeRejects s.cfg x y = false := by simpa using hr
    split at h
    · unfold plotBeyond at h
      split at h
      · cases h
      · split at h
        · cases h
        · rename_i ha hl
          exact .inr ⟨hr', (Host.Outcome.next.inj h).symm, .inr ⟨ha, by omega⟩⟩
      · exact .inl (Host.Outcome.next.inj h).symm
    · exact .inr ⟨hr', (Host.Outcome.next.inj h).symm, .inl (by omega)⟩

theorem execPlot_next {x y : Int} {color : Nat} {s t : State} (h : execPlot x y color s = .next t) :
    s.cfg.wf = true ∧ s.inited = true ∧ plotBody x y color s = .next t := by
  obtain ⟨hw, hk⟩ := Guard.config_next h
  obtain ⟨hi, hb⟩ := Guard.inited_next hk
  exact ⟨hw, hi, hb⟩

theorem execClear_next {s t : State} (h : execClear s = .next t) :
    s.cfg.wf = true ∧ s.inited = true ∧ t = s.clearBody := by
  obtain ⟨hw, hk⟩ := Guard.config_next h
  obtain ⟨hi, hb⟩ := Guard.inited_next hk
  exact ⟨hw, hi, (Host.Outcome.next.inj hb).symm⟩

theorem execCommit_next {s t : State} (h : execCommit s = .next t) :
    s.cfg.wf = true ∧ s.inited = true ∧ t = s.commitBody := by
  obtain ⟨hw, hk⟩ := Guard.config_next h
  obtain ⟨hi, hb⟩ := Guard.inited_next hk
  exact ⟨hw, hi, (Host.Outcome.next.inj hb).symm⟩

/-- Every command frame row is SENDCMD with the row's payload (R100, R110). -/
theorem exec_command {s : State} {i : Instr} {k p : Nat} (h : commandOf s.cfg i = some (k, p)) :
    exec i s = Guard.config s (.next (s.sendCmd k p)) := by
  cases i <;> simp only [commandOf, Option.some.injEq, Prod.mk.injEq, reduceCtorEq] at h <;>
    obtain ⟨rfl, rfl⟩ := h <;> rfl

/-- The write frame row is SENDDATA (R101). -/
theorem exec_write (s : State) (k a d : Nat) :
    exec (.write k a d) s = Guard.config s (.next (s.sendData k a d)) := rfl

/-! ### COMMIT cell by cell -/

theorem State.commitCell_clean {s : State} {p : Nat × Nat} (h : modified (s.cell p.1 p.2) = false) :
    s.commitCell p = s := by
  simp [State.commitCell, h]

theorem State.commitCell_dirty {s : State} {p : Nat × Nat} (h : modified (s.cell p.1 p.2) = true) :
    s.commitCell p
      = (s.sendData (p.2 + 1) p.1 (cellData s.cfg (s.cell p.1 p.2)).toNat).setCell p.1 p.2
          (cellData s.cfg (s.cell p.1 p.2)) := by
  simp [State.commitCell, committedCell, h]

@[simp] theorem State.commitCell_cfg (s : State) (p : Nat × Nat) : (s.commitCell p).cfg = s.cfg := by
  unfold State.commitCell
  split <;> rfl

theorem State.commitCell_fb_wf {s : State} {p : Nat × Nat} (h : Memory.wf s.fb) : Memory.wf (s.commitCell p).fb := by
  unfold State.commitCell
  split
  · exact setCell_wf h
  · exact h

/-- A property of states that every visited cell keeps holds after the body of COMMIT. -/
theorem State.commitBody_keeps {P : State → Prop} (hstep : ∀ s p, P s → P (s.commitCell p)) {s : State} (h : P s) :
    P s.commitBody := by
  unfold State.commitBody
  generalize scanOrder s.cfg = l
  induction l generalizing s with
  | nil => exact h
  | cons p l ih => exact ih (hstep s p h)

theorem State.commitBody_fb_wf {s : State} (h : Memory.wf s.fb) : Memory.wf s.commitBody.fb :=
  State.commitBody_keeps (P := fun s => Memory.wf s.fb) (fun _ _ h => State.commitCell_fb_wf h) h

/-! ### The step -/

/-- Everything a step that answers a next state can have done (R7, R18, R41, R127, R128). -/
theorem step_cases {s t : State} (h : step s = .next t) :
    s.cfg.wf = true
    ∧ ((s.pending = [] ∧ t = s)
    ∨ (∃ r rest i, s.pending = r :: rest ∧ decodeRequest s.cfg r = .ok (some i)
        ∧ exec i { s with pending := rest } = .next t)
    ∨ (∃ r rest, s.pending = r :: rest ∧ decodeRequest s.cfg r = .ok none
        ∧ t = ({ s with pending := rest } : State).resetEvent)) := by
  obtain ⟨hw, h⟩ := Guard.config_next h
  refine ⟨hw, ?_⟩
  split at h
  · exact .inl ⟨‹_›, (Host.Outcome.next.inj h).symm⟩
  · rename_i r rest hp
    split at h
    · exact .inr (.inl ⟨r, rest, _, hp, ‹_›, h⟩)
    · exact .inr (.inr ⟨r, rest, hp, ‹_›, (Host.Outcome.next.inj h).symm⟩)
    · cases h

end Sys2Proof.Machine
end

