-- ==== Sys2Proof/Laws/PerInstr.lean ====
section
/-! SUPPORT. Families of statements about every instruction as syntax, one lemma for each constructor. -/

namespace Sys2Proof

/-- The request is one the ports can carry: a host word of 2 + COLORS + 2*COORD_BITS bits, or a frame of one of the
two lengths to a chip's select number (R53, R61). -/
def Request.fits (c : Config) : Request → Prop
  | .host w => w < 2 ^ c.hostBits
  | .frame k bits => selectInRange c k = true ∧ (bits.length = c.cmdFrameBits ∨ bits.length = c.writeFrameBits)
  | .reset => True

@[simp] theorem length_bitsMsb (v n : Nat) : (bitsMsb v n).length = n := by
  induction n with
  | zero => rfl
  | succ n ih => simp [bitsMsb, ih]

theorem length_commandBits (c : Config) (p : Nat) : (commandBits c p).length = c.cmdFrameBits := by
  simp [commandBits, Config.cmdFrameBits, Nat.add_assoc]

theorem length_writeBits (c : Config) (a d : Nat) : (writeBits c a d).length = c.writeFrameBits := by
  simp [writeBits, Config.writeFrameBits, Nat.add_assoc]

theorem unsext_lt (n : Nat) (v : Int) : unsext n v < 2 ^ n := by
  have hpos : (0 : Int) < (2 : Int) ^ n := by positivity
  have hlt := Int.emod_lt_of_pos v hpos
  have hnn := Int.emod_nonneg v hpos.ne'
  have : ((unsext n v : Nat) : Int) < ((2 ^ n : Nat) : Int) := by
    rw [unsext, Int.toNat_of_nonneg hnn]
    push_cast
    exact hlt
  exact_mod_cast this

/-- A digit in front of a number of `n` values. -/
theorem digit_lt {a m b n : Nat} (ha : a < m) (hb : b < n) : a * n + b < m * n := by
  calc a * n + b < a * n + n := by omega
    _ = (a + 1) * n := by ring
    _ ≤ m * n := Nat.mul_le_mul_right _ ha

theorem packHost_lt {c : Config} {op color y x : Nat} (hop : op < 4) (hcolor : color < 2 ^ c.colors)
    (hy : y < 2 ^ c.coordBits) (hx : x < 2 ^ c.coordBits) : packHost c op color y x < 2 ^ c.hostBits := by
  have h1 := digit_lt hy hx
  have h2 := digit_lt hcolor h1
  have h3 := digit_lt hop h2
  have e1 : packHost c op color y x
      = op * (2 ^ c.colors * (2 ^ c.coordBits * 2 ^ c.coordBits))
        + (color * (2 ^ c.coordBits * 2 ^ c.coordBits) + (y * 2 ^ c.coordBits + x)) := by
    simp only [packHost, pow_add, pow_mul, pow_two, mul_pow]
    ring
  have e2 : 2 ^ c.hostBits = 4 * (2 ^ c.colors * (2 ^ c.coordBits * 2 ^ c.coordBits)) := by
    simp only [Config.hostBits, pow_add, pow_mul, mul_pow, pow_two]
    ring
  rw [e1, e2]
  exact h3

theorem packHost_plain_lt {c : Config} {op : Nat} (hop : op < 4) : packHost c op 0 0 0 < 2 ^ c.hostBits :=
  packHost_lt hop (by positivity) (by positivity) (by positivity)

namespace Laws.EncodeFits

/-- The canonical request of a well-formed instruction fits the ports (R53, R55, R61). -/
def Statement (i : Instr) : Prop := ∀ c : Config, i.wf c = true → (encode c i).fits c

theorem init : Statement .init := fun _ _ => packHost_plain_lt (by omega)

theorem plot (x y : Int) (color : Nat) : Statement (.plot x y color) := by
  intro c h
  simp only [Instr.wf, Bool.and_eq_true, decide_eq_true_eq] at h
  exact packHost_lt (by omega) h.2 (unsext_lt _ _) (unsext_lt _ _)

theorem clear : Statement .clear := fun _ _ => packHost_plain_lt (by omega)

theorem commit : Statement .commit := fun _ _ => packHost_plain_lt (by omega)

theorem cmd (k payload : Nat) : Statement (.cmd k payload) := by
  intro c h
  simp only [Instr.wf, Bool.and_eq_true] at h
  exact ⟨h.1, .inl (length_commandBits _ _)⟩

theorem sysdis (k : Nat) : Statement (.sysdis k) := fun _ h => ⟨h, .inl (length_commandBits _ _)⟩

theorem panelcfg (k : Nat) : Statement (.panelcfg k) := fun _ h => ⟨h, .inl (length_commandBits _ _)⟩

theorem master (k : Nat) : Statement (.master k) := fun _ h => ⟨h, .inl (length_commandBits _ _)⟩

theorem sysen (k : Nat) : Statement (.sysen k) := fun _ h => ⟨h, .inl (length_commandBits _ _)⟩

theorem ledon (k : Nat) : Statement (.ledon k) := fun _ h => ⟨h, .inl (length_commandBits _ _)⟩

theorem write (k a d : Nat) : Statement (.write k a d) := by
  intro c h
  simp only [Instr.wf, Bool.and_eq_true] at h
  exact ⟨h.1.1, .inr (length_writeBits _ _ _)⟩

end Laws.EncodeFits

end Sys2Proof
end

