-- ==== Sys2Proof/Laws/Receiver.lean ====
section
/-! SUPPORT. What each operation of the reference receiver changes and leaves: a stage change, a shift of the chain, a
latched bit. -/

namespace Sys2Proof.Machine

open Sys2Proof

/-! ### A stage change (R46, R48) -/

@[simp] theorem Chip.setStage_stage (v : Level) (c : Chip) : (c.setStage v).stage = v := by
  unfold Chip.setStage
  split
  · assumption
  · rfl

@[simp] theorem Chip.setStage_ram (v : Level) (c : Chip) : (c.setStage v).ram = c.ram := by
  unfold Chip.setStage
  split <;> rfl

@[simp] theorem Chip.setStage_log (v : Level) (c : Chip) : (c.setStage v).log = c.log := by
  unfold Chip.setStage
  split <;> rfl

theorem Chip.setStage_acc (v : Level) (c : Chip) : (c.setStage v).acc = if c.stage = v then c.acc else [] := by
  unfold Chip.setStage
  split <;> rfl

theorem Chip.setStage_same {c : Chip} {v : Level} (h : c.stage = v) : c.setStage v = c := if_pos h

/-! ### The chain -/

@[simp] theorem length_shiftChain (inp : Level) (cs : List Chip) : (shiftChain inp cs).length = cs.length := by
  induction cs generalizing inp with
  | nil => rfl
  | cons c cs ih => simp [shiftChain, ih]

@[simp] theorem map_ram_shiftChain (inp : Level) (cs : List Chip) :
    (shiftChain inp cs).map (·.ram) = cs.map (·.ram) := by
  induction cs generalizing inp with
  | nil => rfl
  | cons c cs ih => simp [shiftChain, ih]

@[simp] theorem map_log_shiftChain (inp : Level) (cs : List Chip) :
    (shiftChain inp cs).map (·.log) = cs.map (·.log) := by
  induction cs generalizing inp with
  | nil => rfl
  | cons c cs ih => simp [shiftChain, ih]

@[simp] theorem length_scrambleChain (n k : Nat) (cs : List Chip) : (scrambleChain n k cs).length = cs.length := by
  induction cs generalizing k with
  | nil => rfl
  | cons c cs ih => simp [scrambleChain, ih]

@[simp] theorem map_ram_scrambleChain (n k : Nat) (cs : List Chip) :
    (scrambleChain n k cs).map (·.ram) = cs.map (·.ram) := by
  induction cs generalizing k with
  | nil => rfl
  | cons c cs ih => simp [scrambleChain, ih]

/-! ### A latched bit (R47, R48) -/

@[simp] theorem Chip.takeEffect_stage (c : Config) (n k : Nat) (ch : Chip) (e : FrameEffect) :
    (ch.takeEffect c n k e).stage = ch.stage := by
  cases e <;> rfl

@[simp] theorem Chip.takeEffect_acc (c : Config) (n k : Nat) (ch : Chip) (e : FrameEffect) :
    (ch.takeEffect c n k e).acc = ch.acc := by
  cases e <;> rfl

/-- A chip that is not selected ignores WR and DATA (R47). -/
theorem Chip.latch_unselected {c : Config} {n k : Nat} {d : Level} {ch : Chip} (h : ch.stage ≠ .low) :
    ch.latch c n k d = ch := if_neg h

theorem Chip.latch_selected {c : Config} {n k : Nat} {d : Level} {ch : Chip} (h : ch.stage = .low) :
    ch.latch c n k d
      = ({ ch with acc := ch.acc ++ [d] } : Chip).takeEffect c n k (frameEffect c (ch.acc ++ [d])) := if_pos h

@[simp] theorem Chip.latch_stage (c : Config) (n k : Nat) (d : Level) (ch : Chip) :
    (ch.latch c n k d).stage = ch.stage := by
  unfold Chip.latch
  split <;> simp

@[simp] theorem length_latchChips (c : Config) (n : Nat) (d : Level) (k : Nat) (cs : List Chip) :
    (latchChips c n d k cs).length = cs.length := by
  induction cs generalizing k with
  | nil => rfl
  | cons ch cs ih => simp [latchChips, ih]

/-- With no chip selected a rising edge of WR changes nothing (R47). -/
theorem latchChips_none {c : Config} {n : Nat} {d : Level} {k : Nat} {cs : List Chip}
    (h : ∀ ch ∈ cs, ch.stage ≠ .low) : latchChips c n d k cs = cs := by
  induction cs generalizing k with
  | nil => rfl
  | cons ch cs ih =>
    simp only [latchChips]
    rw [Chip.latch_unselected (h ch (by simp)), ih (fun ch' h' => h ch' (by simp [h']))]

/-! ### The stray bit (R136) -/

/-- Everything a stray bit can do to a chip: nothing, or one more bit at one that may be selected. -/
theorem Chip.strayLatch_cases (n k : Nat) (d : Level) (ch : Chip) :
    ch.strayLatch n k d = ch
      ∨ (ch.stage ≠ .high ∧ ch.strayLatch n k d = { ch with acc := ch.acc ++ [d] }) := by
  unfold Chip.strayLatch
  split
  · exact .inl rfl
  · split
    · exact .inr ⟨‹_›, rfl⟩
    · exact .inl rfl

/-- A chip that is not selected latches no stray bit. -/
theorem Chip.strayLatch_unselected {n k : Nat} {d : Level} {ch : Chip} (h : ch.stage = .high) :
    ch.strayLatch n k d = ch := if_pos h

@[simp] theorem Chip.strayLatch_stage (n k : Nat) (d : Level) (ch : Chip) :
    (ch.strayLatch n k d).stage = ch.stage := by
  rcases ch.strayLatch_cases n k d with h | ⟨-, h⟩ <;> rw [h]

@[simp] theorem Chip.strayLatch_ram (n k : Nat) (d : Level) (ch : Chip) : (ch.strayLatch n k d).ram = ch.ram := by
  rcases ch.strayLatch_cases n k d with h | ⟨-, h⟩ <;> rw [h]

@[simp] theorem Chip.strayLatch_log (n k : Nat) (d : Level) (ch : Chip) : (ch.strayLatch n k d).log = ch.log := by
  rcases ch.strayLatch_cases n k d with h | ⟨-, h⟩ <;> rw [h]

@[simp] theorem length_strayChips (n : Nat) (d : Level) (k : Nat) (cs : List Chip) :
    (strayChips n d k cs).length = cs.length := by
  induction cs generalizing k with
  | nil => rfl
  | cons ch cs ih => simp [strayChips, ih]

@[simp] theorem map_ram_strayChips (n : Nat) (d : Level) (k : Nat) (cs : List Chip) :
    (strayChips n d k cs).map (·.ram) = cs.map (·.ram) := by
  induction cs generalizing k with
  | nil => rfl
  | cons ch cs ih => simp [strayChips, ih]

@[simp] theorem map_log_strayChips (n : Nat) (d : Level) (k : Nat) (cs : List Chip) :
    (strayChips n d k cs).map (·.log) = cs.map (·.log) := by
  induction cs generalizing k with
  | nil => rfl
  | cons ch cs ih => simp [strayChips, ih]

/-! ### One event -/

/-- No event changes how many chips there are. -/
@[simp] theorem length_take (c : Config) (lv : Lines Level) (r : Receiver) (e : Event) :
    (r.take c lv e).chips.length = r.chips.length := by
  cases e with
  | cfg l => rfl
  | set l b =>
    cases l <;> cases b <;> simp only [Receiver.take] <;> try rfl
    · unfold Receiver.clkHigh
      split <;> simp
    · unfold Receiver.wrHigh
      split <;> simp

/-- No list of events changes how many chips there are. -/
theorem length_busRun (c : Config) (b : Lines Level × Receiver) (es : List Event) :
    (busRun c b es).2.chips.length = b.2.chips.length := by
  unfold busRun
  induction es generalizing b with
  | nil => rfl
  | cons e es ih =>
    rw [List.foldl_cons, ih]
    exact length_take c b.1 b.2 e

end Sys2Proof.Machine
end

