-- ==== Sys2Proof/Tests/Slice0.lean ====
section
/-! SUPPORT. Tests: expected results are those of 95_test_vectors.md (V1 to V14, P1 to P8), or worked by hand from a
rule where a comment says so; ill-formed terms for every check of WellFormed; and a witness for the hypotheses of every
statement of Certificates/Slice0/Obligations.lean. -/

namespace Sys2Proof.Tests

open Sys2Proof Sys2Proof.Machine

/-! ### Configurations and states -/

/-- The default instance with the illustrative opcode and payload values of G1 (93_implementation_defined.md). -/
def lit : Config where
  w := 32
  h := 16
  chipsX := 2
  chipsY := 2
  colors := 2
  ledsPerCell := 4
  idBits := 3
  cmdPayloadBits := 7
  cmdPadBits := 1
  addrBits := 6
  opCommand := 0b100
  opWrite := 0b101
  idsDiffer := by decide
  cmdSysDisable := 0x00
  cmdPanelConfig := 0x20
  cmdMasterMode := 0x14
  cmdSysEnable := 0x01
  cmdLedOn := 0x03
  padValue := 0
  sentinel := 0xFF
  coordBits := 8
  yEqH := .fault

/-- Configuration C of V14, with the illustrative values. -/
def litC : Config := { lit with w := 16, h := 8, chipsX := 2, chipsY := 1, colors := 3 }

/-- Two pixels by two, two chips of one cell each, one colour. -/
def mini : Config := { lit with w := 2, h := 2, chipsX := 2, chipsY := 1, colors := 1, ledsPerCell := 2, coordBits := 3 }

/-- The post-INIT state of a configuration (R113), with an empty trace. -/
def ready (c : Config) (fb : Memory) : State where
  cfg := c
  fb := fb
  levels := ⟨.low, .low, .high, .high⟩
  configured := allLines true
  trace := []
  inited := true
  sel := some c.chips
  rx := ⟨List.replicate c.chips ⟨.high, [], [], []⟩, 0⟩
  pending := []
  resets := 0

/-- The frame buffer of a configuration that lists the given cells ((a, c), value). -/
def cells (c : Config) (l : List ((Nat × Nat) × Byte)) : Memory :=
  l.foldl (fun m p => Memory.write (cellKey c p.1.1 p.1.2) p.2 m) []

/-- The state a result holds, the given one when it holds none. -/
def after (r : Result) (s : State) : State :=
  match r with
  | .next t => t
  | .fault _ => s
  | .refused _ => s

def isNext (r : Result) : Bool :=
  match r with
  | .next _ => true
  | .fault _ => false
  | .refused _ => false

def faultOf (r : Result) : Option Fault :=
  match r with
  | .next _ => none
  | .fault f => some f
  | .refused _ => none

def refusalOf (r : Result) : Option Refusal :=
  match r with
  | .next _ => none
  | .fault _ => none
  | .refused e => some e

def decoded (r : Except DecodeError (Option Instr)) : Option Instr :=
  match r with
  | .ok i => i
  | .error _ => none

def errorOf {α : Type} (r : Except DecodeError α) : Option DecodeError :=
  match r with
  | .ok _ => none
  | .error e => some e

/-! ### WellFormed: each check refuses an ill-formed term -/

theorem test_wf_standard : Config.standard.wf = true := by decide
theorem test_wf_lit_mini : lit.wf = true ∧ litC.wf = true ∧ mini.wf = true := by decide
theorem test_illformed_positive : ({ lit with colors := 0 } : Config).parametersPositive = false := by decide
theorem test_illformed_regions_w : ({ lit with chipsX := 3 } : Config).regionsEqual = false := by decide
theorem test_illformed_regions_h : ({ lit with chipsY := 3 } : Config).regionsEqual = false := by decide
theorem test_illformed_regions_cell : ({ lit with ledsPerCell := 3 } : Config).regionsEqual = false := by decide
theorem test_illformed_cell : ({ lit with ledsPerCell := 8 } : Config).cellFits = false := by decide
theorem test_illformed_address : ({ lit with addrBits := 5 } : Config).addressFits = false := by decide
theorem test_illformed_panel : ({ lit with coordBits := 6 } : Config).panelFits = false := by decide
theorem test_illformed_sentinel : ({ lit with sentinel := 0x70 } : Config).sentinelAdmissible = false := by decide
theorem test_illformed_plot_x : Instr.wf lit (.plot 128 0 0) = false := by decide
theorem test_illformed_plot_y : Instr.wf lit (.plot 0 (-129) 0) = false := by decide
theorem test_illformed_plot_color : Instr.wf lit (.plot 0 0 4) = false := by decide
theorem test_illformed_select : Instr.wf lit (.sysdis 0) = false ∧ Instr.wf lit (.ledon 5) = false := by decide
theorem test_illformed_payload : Instr.wf lit (.cmd 1 128) = false := by decide
theorem test_illformed_write : Instr.wf lit (.write 1 64 0) = false ∧ Instr.wf lit (.write 1 0 16) = false := by decide

/-! ### Decode: words written out from the encodings (V1, V10) -/

theorem test_decode_init : decodeTableWord 24 0b00000000000000000000 = some .init := by decide
theorem test_decode_plot_fields : decodeTableWord 24 0b01010000111100011111 = some (.plot 31 15 1) := by decide
theorem test_decode_plot_negative : decodeTableWord 24 0x7FF00 = some (.plot 0 (-1) 3) := by decide
theorem test_decode_clear : decodeTableWord 24 0b10000000000000000000 = some .clear := by decide
theorem test_decode_commit : decodeTableWord 24 0b11000000000000000000 = some .commit := by decide
theorem test_decode_wide : errorOf (decodeRequest lit (.host 0x100000)) = some .hostWordTooWide := by decide

theorem test_decode_cmd :
    decoded (decodeRequest lit (.frame 2 [true, false, false, false, false, false, false, true, false, true, false]))
      = some (.cmd 2 5) := by decide
theorem test_decode_sysdis :
    decoded (decodeRequest lit (.frame 1 [true, false, false, false, false, false, false, false, false, false, false]))
      = some (.sysdis 1) := by decide
theorem test_decode_panelcfg :
    decoded (decodeRequest lit (.frame 1 [true, false, false, false, true, false, false, false, false, false, false]))
      = some (.panelcfg 1) := by decide
theorem test_decode_master :
    decoded (decodeRequest lit (.frame 4 [true, false, false, false, false, true, false, true, false, false, false]))
      = some (.master 4) := by decide
theorem test_decode_sysen :
    decoded (decodeRequest lit (.frame 1 [true, false, false, false, false, false, false, false, false, true, false]))
      = some (.sysen 1) := by decide
theorem test_decode_ledon :
    decoded (decodeRequest lit (.frame 1 [true, false, false, false, false, false, false, false, true, true, false]))
      = some (.ledon 1) := by decide
theorem test_decode_write :
    decoded (decodeRequest lit
      (.frame 1 [true, false, true, false, false, true, false, true, true, false, false, true, false]))
      = some (.write 1 11 2) := by decide
/-- Two frames of V10 as table words, and bits above the 13 of a write frame (log entry 5). -/
theorem test_table_frames :
    decoded (decodeRequest lit (tableRequest lit 16 0x428)) = some (.master 1)
    ∧ decoded (decodeRequest lit (tableRequest lit 16 0x1408)) = some (.write 1 0 8)
    ∧ errorOf (decodeRequest lit (tableRequest lit 16 0xF408)) = some .unknownFrameId
    ∧ errorOf (decodeRequest lit (tableRequest lit 16 0xB408)) = some .frameLength := by decide
theorem test_decode_frame_errors :
    errorOf (decodeRequest lit (.frame 0 [true, false, false])) = some .selectOutOfRange
    ∧ errorOf (decodeRequest lit (.frame 1 [true, false])) = some .frameTooShort
    ∧ errorOf (decodeRequest lit (.frame 1 [true, false, false])) = some .frameLength
    ∧ errorOf (decodeRequest lit (.frame 1 [true, true, false])) = some .unknownFrameId
    ∧ errorOf (decodeRequest lit (.frame 1 (bitsMsb 0x401 11))) = some .padMismatch
    ∧ errorOf (decodeRequest mini (.frame 1 (bitsMsb 0x504 11))) = some .addressOutOfRange := by decide

/-- V10: the frames as numbers. -/
theorem test_frame_numbers :
    encode lit (.cmd 2 0x14) = .frame 2 (bitsMsb 0x428 11) ∧ encode lit (.ledon 3) = .frame 3 (bitsMsb 0x406 11)
    ∧ encode lit (.write 1 33 8) = .frame 1 (bitsMsb 0x1618 13)
    ∧ encode lit (.write 4 63 1) = .frame 4 (bitsMsb 0x17F1 13) := by decide

/-- S8 (R67): the bus decoder on SENDCMD(2, 0x14) and on SENDDATA(1, 0, 8). -/
theorem test_bus_decoder :
    (match decodeBus lit (sendCmdEvents lit 2 0x14) with
      | .ok f => decide (f = .command 0x14 0)
      | .error _ => false) = true
    ∧ (match decodeBus lit (sendDataEvents lit 1 0 8) with
      | .ok f => decide (f = .write 0 8)
      | .error _ => false) = true := by decide

/-! ### The mapper and the cell updater (V2, V3) -/

theorem test_mapper :
    (chipIndex lit 20 11, baseAddress lit 20 11, bitMask lit 11) = (3, 8, 0x1#8)
    ∧ (chipIndex lit 5 6, baseAddress lit 5 6, bitMask lit 6) = (0, 11, 0x2#8)
    ∧ (chipIndex lit 15 8, baseAddress lit 15 8, bitMask lit 8) = (2, 30, 0x8#8)
    ∧ (chipIndex lit 31 16, baseAddress lit 31 16, bitMask lit 16) = (5, 30, 0x8#8) := by decide

theorem test_cell_updater :
    updatedCell lit 0x00 0x8 = 0x88 ∧ updatedCell lit 0x88 0x0 = 0x80 ∧ updatedCell lit 0x80 0x0 = 0x80
    ∧ updatedCell lit 0x08 0x8 = 0x08 ∧ updatedCell lit 0x8C 0x8 = 0x88 ∧ updatedCell lit 0xFF 0xF = 0xFF
    ∧ updatedCell lit 0xFF 0x7 = 0x87 ∧ updatedCell lit 0x7F 0x7 = 0x87 := by decide

/-! ### PLOT and CLEAR (V4, V5, V13) -/

/-- PLOT 20, 11, BOTH and PLOT 15, 8, SECONDARY after INIT, and the change of colour of configuration C. -/
theorem test_plot_cells :
    (after (exec (.plot 20 11 3) (ready lit [])) State.reset).fb = cells lit [((8, 3), 0x81), ((40, 3), 0x81)]
    ∧ (after (exec (.plot 15 8 2) (ready lit [])) State.reset).fb = cells lit [((62, 2), 0x88)]
    ∧ (after (exec (.plot 9 5 0b010) (ready litC (cells litC [((3, 1), 0x04), ((35, 1), 0x04)]))) State.reset).fb
      = cells litC [((3, 1), 0x80), ((19, 1), 0x84), ((35, 1), 0x80)] := by decide

/-- PLOT 31, 16, PRIMARY under `fault` and `alias_flat`, PLOT before INIT, and PLOT 32, 16, BOTH. -/
theorem test_plot_edges :
    faultOf (exec (.plot 31 16 1) (ready lit [])) = some (.chipIndexOutOfRange 31 16 5)
    ∧ (after (exec (.plot 31 16 1) (ready { lit with yEqH := .aliasFlat } [])) State.reset).fb
      = cells lit [((31, 1), 0x88)]
    ∧ faultOf (exec (.plot (-1) 0 3) State.reset) = some (.useBeforeInit (.plot (-1) 0 3))
    ∧ after (exec (.plot 32 16 3) (ready lit [(5, 1)])) State.reset = ready lit [(5, 1)] := by decide

/-- CLEAR on the two cells of the mini instance: 0x02 goes to 0x80, 0x84 (data 0, by hand from R83) stays. -/
theorem test_clear :
    (after (exec .clear (ready mini [(0, 0x02), (1, 0x84)])) State.reset).fb = [(0, 0x80), (1, 0x84)] := by decide
theorem test_clear_before_init : faultOf (exec .clear State.reset) = some (.useBeforeInit .clear) := by decide

/-! ### The encoder (V7, V9, V11) and the reference receiver (V8) -/

theorem test_select_three :
    selectEvents 4 3 =
      [.set .cs true, .set .clk true, .set .clk false, .set .clk true, .set .clk false, .set .clk true, .set .clk false,
        .set .clk true, .set .clk false, .set .cs false, .set .clk true, .set .clk false, .set .cs true,
        .set .clk true, .set .clk false, .set .clk true, .set .clk false] := by decide
theorem test_send_bits :
    sendBitsEvents 0b101 3 =
      [.set .data true, .set .wr false, .set .wr true, .set .data false, .set .wr false, .set .wr true,
        .set .data true, .set .wr false, .set .wr true]
    ∧ sendBitsEvents 0x1F 4 = sendBitsEvents 0xF 4 := by decide
theorem test_event_counts :
    (sendCmdEvents lit 2 0x14).length = 57 ∧ (sendDataEvents lit 4 63 0).length = 58 := by decide

/-- V8: SELECT(3) from the chain state [0, X, 1, 0], and the chain after its first pulse. -/
def chainV8 : Receiver :=
  ⟨[⟨.low, [.high], [], []⟩, ⟨.unknown, [], [], []⟩, ⟨.high, [], [], []⟩, ⟨.low, [], [], []⟩], 0⟩

theorem test_chain_first_pulse :
    (chainV8.take lit ⟨.low, .low, .high, .high⟩ (.set .clk true)).stages = [.high, .low, .unknown, .high] := by decide
theorem test_chain_select :
    (busRun lit (⟨.low, .low, .high, .high⟩, chainV8) (selectEvents 4 3)).2.stages = [.high, .high, .low, .high] := by
  decide

/-- The mini instance, by hand from R50 and R101: chip 2 logs the payload; chip 1's display RAM takes the data. -/
theorem test_cmd_mini :
    (after (exec (.cmd 2 0x14) (ready mini [])) State.reset).rx.chips.map (·.log) = [[], [0x14]] := by decide
theorem test_sysdis_mini :
    (after (exec (.sysdis 1) (ready mini [])) State.reset).rx.chips.map (·.log) = [[0x00], []] := by decide
theorem test_panelcfg_mini :
    (after (exec (.panelcfg 1) (ready mini [])) State.reset).rx.chips.map (·.log) = [[0x20], []] := by decide
theorem test_master_mini :
    (after (exec (.master 2) (ready mini [])) State.reset).rx.chips.map (·.log) = [[], [0x14]] := by decide
theorem test_sysen_mini :
    (after (exec (.sysen 1) (ready mini [])) State.reset).rx.chips.map (·.log) = [[0x01], []] := by decide
theorem test_ledon_mini :
    (after (exec (.ledon 1) (ready mini [])) State.reset).rx.chips.map (·.log) = [[0x03], []] := by decide
theorem test_cmd_deselects :
    (after (exec (.cmd 2 0x14) (ready mini [])) State.reset).sel = some 0 := by decide
theorem test_write_mini :
    (after (exec (.write 1 0 3) (ready mini [])) State.reset).rx.chips.map (·.ram) = [[(0, 3)], []] := by decide
theorem test_write_stays_selected :
    (after (exec (.write 1 0 3) (ready mini [])) State.reset).rx.stages = [.low, .high] := by decide

/-! ### COMMIT and INIT (V6, V12 on small instances) -/

/-- V6: FB[0][0] = 0x88 and FB[32][0] = 0x88 send 104 events, the order of the trace apart. -/
theorem test_commit_trace :
    (after (exec .commit (ready lit (cells lit [((0, 0), 0x88), ((32, 0), 0x88)]))) State.reset).trace
      = sendDataEvents lit 1 0 8 ++ sendDataEvents lit 1 32 8 := by decide +kernel
theorem test_commit_clears :
    (after (exec .commit (ready lit (cells lit [((0, 0), 0x88), ((31, 3), 0x81)]))) State.reset).fb
      = cells lit [((0, 0), 0x08), ((31, 3), 0x01)] := by decide +kernel

/-- INIT of the mini instance, its counts worked by hand from R105: 8 + 5 * (47 + 49) + (42 + 44) events. -/
theorem test_init_mini_trace :
    (after (exec .init { State.reset with cfg := mini, rx := ⟨List.replicate 2 Chip.reset, 0⟩ }) State.reset).trace.length
      = 8 + 5 * (47 + 49) + (42 + 44) := by decide +kernel
theorem test_init_mini_chips :
    (after (exec .init { State.reset with cfg := mini, rx := ⟨List.replicate 2 Chip.reset, 0⟩ }) State.reset).rx.chips.map
        (fun ch => (ch.stage, ch.log))
      = [(.high, [0x00, 0x20, 0x14, 0x01, 0x03]), (.low, [0x00, 0x20, 0x14, 0x01, 0x03])] := by decide +kernel

/-! ### The step -/

theorem test_step_init : isNext (step (State.reset.withFetchWord 24 0x00000)) = true := by decide
theorem test_step_plot :
    step ((ready lit []).withFetchWord 24 0x70000) = exec (.plot 0 0 3) (ready lit []) := rfl
theorem test_step_waits : step State.reset = .next State.reset := rfl
theorem test_step_undecodable :
    refusalOf (step { ready lit [] with pending := [.host 0x100000] }) = some (.undecodable .hostWordTooWide) := by decide
theorem test_step_ill_formed :
    refusalOf (step { ready { lit with colors := 0 } [] with pending := [.host 0] }) = some .illFormedConfig
    ∧ refusalOf (step { ready { lit with colors := 0 } [] with pending := [.reset] }) = some .illFormedConfig
    ∧ refusalOf (step (ready { lit with colors := 0 } [])) = some .illFormedConfig := by decide
theorem test_step_reset :
    (after (step { ready lit [] with pending := [.reset, .host 0] }) State.reset).inited = false := by decide

/-! ### Witnesses: states and operands that meet the hypotheses of each statement together -/

/-- A mini state with one cell dirty and one clean and lit, whose chips hold what the clean cell says. -/
def dirty : State :=
  { ready mini [(0, 0x82), (1, 0x01)] with
    rx := ⟨[⟨.high, [], [], []⟩, ⟨.low, [.high], [(0, 0x01)], [5]⟩], 0⟩ }

/-- A mini configuration in which y = H writes a neighbouring column's cell: two cells a chip. -/
def tall (y : YEqH) : Config := { mini with h := 4, coordBits := 4, yEqH := y }

theorem witness_HostWordsDecodeByTheirFields :
    lit.wf = true ∧ 3 < 4 ∧ 3 < 2 ^ lit.colors ∧ 255 < 2 ^ lit.coordBits ∧ 0 < 2 ^ lit.coordBits
    ∧ 0xFFFFF < 2 ^ lit.hostBits := by decide
theorem witness_CanonicalHostWords :
    Instr.wf Config.standard (.plot (-128) 127 3) = true ∧ Instr.wf Config.standard (.plot 127 (-128) 0) = true := by
  decide
theorem witness_FramesAreTheirFieldsInOrder :
    127 < 2 ^ lit.cmdPayloadBits ∧ 63 < 2 ^ lit.addrBits ∧ 15 < 2 ^ lit.ledsPerCell := by decide
theorem witness_DecodeEncodeRoundTrip :
    lit.wf = true ∧ Instr.wf lit (.plot (-128) 127 3) = true ∧ Instr.wf lit (.write 4 63 15) = true
    ∧ Instr.wf lit (.cmd 4 127) = true ∧ Instr.wf lit (.ledon 1) = true := by decide
theorem witness_DistinctCommandsRoundTripExactly :
    lit.wf = true ∧ Instr.wf lit (.cmd 4 127) = true ∧ lit.initPayloads.Nodup ∧ 127 ∉ lit.initPayloads := by decide
theorem witness_DecodedFramesAreCanonical :
    decoded (decodeRequest lit (.frame 4 (bitsMsb 0x17F1 13))) = some (.write 4 63 1)
    ∧ decoded (decodeRequest lit (.frame 1 (bitsMsb 0x4FE 11))) = some (.cmd 1 127) := by decide
theorem witness_BusDecoderRecoversTheFields :
    127 < 2 ^ lit.cmdPayloadBits ∧ 63 < 2 ^ lit.addrBits ∧ 15 < 2 ^ lit.ledsPerCell := by decide
theorem witness_StepRunsTheDecodedInstruction :
    (State.reset.withFetchWord 24 0x70000).pending = .host 0x70000 :: []
    ∧ decoded (decodeRequest State.reset.cfg (.host 0x70000)) = some (.plot 0 0 3) ∧ State.reset.pending = []
    ∧ ({ State.reset with pending := [.reset] } : State).pending = .reset :: []
    ∧ errorOf (decodeRequest State.reset.cfg (.host 0x100000)) = some .hostWordTooWide
    ∧ State.reset.cfg.wf = true ∧ (ready { lit with colors := 0 } []).cfg.wf = false := by decide
theorem witness_IllFormedConfigurationsAreRefused : (ready { lit with colors := 0 } []).cfg.wf = false := by decide
theorem witness_FaultsAreExactlyTheTwo_before_init :
    (ready { lit with colors := 0 } []).cfg.wf = false ∧ State.reset.cfg.wf = true ∧ State.reset.inited = false
    ∧ faultOf (exec .commit State.reset) = some (.useBeforeInit .commit) := by decide
theorem witness_FaultsAreExactlyTheTwo_at_height :
    (ready mini []).cfg.wf = true ∧ (ready mini []).inited = true
    ∧ faultOf (exec (.plot 1 2 1) (ready mini [])) = some (.chipIndexOutOfRange 1 2 3)
    ∧ faultOf (exec (.plot 1 2 1) (ready { mini with yEqH := .aliasFlat } [])) = some (.chipIndexOutOfRange 1 2 3) := by
  decide
theorem witness_FaultsAreExactlyTheTwo_out_of_range :
    (ready mini []).inited = true ∧ ((2 : Int) < 0 ∨ ((ready mini []).cfg.w : Int) ≤ 2) ∧ ((-1 : Int) < 0) := by decide
theorem witness_ResetEventLeavesTheResetValues :
    (ready mini []).cfg.wf = true
    ∧ ({ ready mini [] with pending := [.reset, .host 0] } : State).pending = .reset :: [.host 0] := by decide
theorem witness_OutOfRangePlotIsSilent :
    (ready mini []).cfg.wf = true ∧ (ready mini []).inited = true
    ∧ ((0 : Int) < 0 ∨ ((ready mini []).cfg.w : Int) ≤ 0 ∨ (0 : Int) < 0 ∨ ((ready mini []).cfg.h : Int) < 3) := by
  decide
theorem witness_PlotUpdatesItsCells :
    dirty.wf ∧ dirty.inited = true ∧ 1 < dirty.cfg.w ∧ 1 < dirty.cfg.h := by decide
theorem witness_PlotAtThePanelHeight_fault :
    (ready (tall .fault) []).wf ∧ (ready (tall .fault) []).inited = true ∧ 1 < (tall .fault).w := by decide
theorem witness_PlotAtThePanelHeight_ignore :
    (ready (tall .ignore) []).wf ∧ (ready (tall .ignore) []).inited = true ∧ 0 < (tall .ignore).w := by decide
theorem witness_PlotAtThePanelHeight_alias_beyond :
    (ready { mini with yEqH := .aliasFlat } []).wf ∧ (ready { mini with yEqH := .aliasFlat } []).inited = true
    ∧ mini.cells * mini.chips ≤ (0 % mini.cw * mini.cpc + (mini.colors - 1) * mini.band) * mini.chips
        + (0 / mini.cw + mini.chips) := by decide
theorem witness_PlotAtThePanelHeight_alias_inside :
    1 < 2 ^ (tall .aliasFlat).colors ∧ (ready (tall .aliasFlat) []).wf ∧ (ready (tall .aliasFlat) []).inited = true ∧ 1 < (tall .aliasFlat).w
    ∧ (1 % (tall .aliasFlat).cw * (tall .aliasFlat).cpc + ((tall .aliasFlat).colors - 1) * (tall .aliasFlat).band)
        * (tall .aliasFlat).chips + (1 / (tall .aliasFlat).cw + (tall .aliasFlat).chips)
      < (tall .aliasFlat).cells * (tall .aliasFlat).chips := by decide
theorem witness_PlotReadsBack :
    dirty.wf ∧ dirty.inited = true ∧ 1 < 2 ^ dirty.cfg.colors ∧ 1 < dirty.cfg.w ∧ 1 < dirty.cfg.h
    ∧ isNext (exec (.plot 1 1 1) dirty) = true := by decide
theorem witness_MappingIsABijection :
    lit.wf = true ∧ 31 < lit.w ∧ 15 < lit.h ∧ 1 < lit.colors ∧ 63 < lit.cells ∧ 3 < lit.chips ∧ 3 < lit.ledsPerCell := by
  decide
theorem witness_PlotArithmeticStaysInRange : lit.wf = true ∧ 31 < lit.w ∧ 16 ≤ lit.h ∧ 1 < lit.colors := by decide
theorem witness_ClearBlanksTheBuffer : dirty.wf ∧ dirty.inited = true ∧ 0 < dirty.cfg.cells ∧ 1 < dirty.cfg.chips := by
  decide
theorem witness_PlotAndClearOnlySetFlags :
    dirty.wf ∧ isNext (exec (.plot 0 0 1) dirty) = true ∧ isNext (exec .clear dirty) = true := by decide
theorem witness_PlotAndClearAreSilent :
    isNext (exec (.plot 0 0 1) dirty) = true ∧ isNext (exec .clear dirty) = true := by decide
theorem witness_SelectEstablishesOneChip :
    dirty.levels.clk = .low ∧ dirty.rx.chips.length = dirty.cfg.chips ∧ 2 ≤ dirty.cfg.chips ∧ chainV8.chips.length = lit.chips
    ∧ 4 ≤ lit.chips := by decide
theorem witness_EventCounts : 1 ≤ 1 ∧ 1 ≤ 4 := by decide
theorem witness_EncoderEventSequences : 1 ≤ 1 ∧ 1 ≤ lit.chips := by decide
theorem witness_CommandFramesComplete :
    State.reset.cfg.wf = true ∧ commandOf lit (.cmd 2 5) = some (2, 5) ∧ commandOf lit (.sysdis 1) = some (1, 0)
    ∧ commandOf lit (.panelcfg 1) = some (1, 0x20) ∧ commandOf lit (.master 1) = some (1, 0x14)
    ∧ commandOf lit (.sysen 1) = some (1, 1) ∧ commandOf lit (.ledon 4) = some (4, 3) ∧ (ready lit []).cfg.wf = true := by
  decide
theorem witness_CommandReachesOneChip :
    dirty.wf ∧ Instr.wf dirty.cfg (.cmd 2 127) = true ∧ commandOf dirty.cfg (.cmd 2 127) = some (2, 127)
    ∧ Instr.wf dirty.cfg (.ledon 1) = true ∧ commandOf dirty.cfg (.ledon 1) = some (1, 3)
    ∧ dirty.levels.clk = .low := by decide
theorem witness_WriteFrameCompletes : State.reset.cfg.wf = true ∧ dirty.cfg.wf = true := by decide
theorem witness_WriteReachesOneCell :
    dirty.wf ∧ Instr.wf dirty.cfg (.write 2 0 3) = true ∧ dirty.levels.clk = .low := by decide
theorem witness_ChainShiftsOnClkRise :
    dirty.levels.clk = .low ∧ (⟨.low, .high, .high, .high⟩ : Lines Level).clk = .high ∧ Event.set .wr true ≠ .set .clk true :=
  by decide
theorem witness_AccumulatorsLatchOnWrRise :
    dirty.rx.chips[1]? = some ⟨.low, [.high], [(0, 0x01)], [5]⟩
    ∧ (dirty.rx.take mini ⟨.low, .low, .low, .high⟩ (.set .wr true)).chips[1]?
        = some ⟨.low, [.high, .low], [(0, 0x01)], [5]⟩
    ∧ (dirty.rx.take mini ⟨.low, .low, .unknown, .high⟩ (.set .wr true)).chips[0]? = some ⟨.high, [], [], []⟩ := by
  decide
/-- The unknown-level clauses of the same statement: the chip is there after the stray bit, with its stage, display RAM
and log. -/
theorem witness_AccumulatorsLatchOnWrRise_stray :
    ((dirty.rx.take mini ⟨.low, .low, .unknown, .high⟩ (.set .wr true)).chips[1]?).map (fun ch => (ch.stage, ch.ram, ch.log))
      = some (.low, [(0, 0x01)], [5]) := by decide
/-- The stage-change clause of the same statement. -/
theorem witness_AccumulatorsLatchOnWrRise_change :
    (dirty.rx.take mini ⟨.low, .low, .high, .high⟩ (.set .clk true)).chips[1]?
      = some ⟨.high, [], [(0, 0x01)], [5]⟩ := by decide
theorem witness_ScanOrderVisitsEveryCellOnce : lit.wf = true ∧ 63 < lit.cells ∧ 3 < lit.chips := by decide
theorem witness_CommitSendsTheDirtyCells : dirty.wf ∧ dirty.inited = true ∧ dirtyCells dirty = [(0, 0)] := by decide
theorem witness_CommitReachesExactlyTheDirtyCells :
    dirty.wf ∧ dirty.inited = true ∧ dirty.levels.clk = .low ∧ (dirtyCells dirty).getLast? = some (0, 0) := by decide
theorem witness_CommitOfACleanBufferIsEmpty :
    (ready mini [(1, 0x01)]).wf ∧ (ready mini [(1, 0x01)]).inited = true
    ∧ modified ((ready mini [(1, 0x01)]).cell 0 0) = false ∧ modified ((ready mini [(1, 0x01)]).cell 0 1) = false
    ∧ mini.cells = 1 ∧ mini.chips = 2 := by decide
theorem witness_SecondCommitIsEmpty : dirty.wf ∧ dirty.inited = true := by decide
theorem witness_CommitEventCount : dirty.wf ∧ dirty.inited = true := by decide
theorem witness_CommitMakesTheChipsCoherent : dirty.Inv ∧ dirty.inited = true ∧ dirty.cleanCellsMatch := by decide
theorem witness_InitReachesTheBlankState : State.reset.wf ∧ dirty.wf := by decide
theorem witness_InitBlanksTheChips :
    State.reset.wf ∧ State.reset.levels.wr = .unknown
    ∧ (∀ ch ∈ State.reset.rx.chips, ch.acc.length + 1 < State.reset.cfg.idBits)
    ∧ dirty.wf ∧ dirty.levels.wr ≠ .low ∧ ({ dirty with levels := ⟨.high, .low, .low, .high⟩ } : State).wf := by decide
theorem witness_SelectEmptiesTheAccumulators :
    dirty.levels.clk = .low ∧ dirty.rx.chips.length = dirty.cfg.chips ∧ 2 ≤ dirty.cfg.chips
    ∧ (∀ ch ∈ dirty.rx.chips, ch.stage = .high → ch.acc = []) ∧ ∃ ch ∈ dirty.rx.chips, ch.acc ≠ [] := by decide
theorem witness_InitEventCount : lit.wf = true := by decide
theorem witness_InitForgetsTheController :
    dirty.wf ∧ (ready mini []).wf ∧ dirty.cfg = (ready mini []).cfg := by decide
theorem witness_SentinelIsNotObservable : dirty.wf ∧ ({ dirty.cfg with sentinel := 0x01 } : Config).wf = true := by decide
theorem witness_FreshClearAndCommitDoNothing : dirty.wf := by decide
theorem witness_OnlyInitInitialises : isNext (exec .commit dirty) = true ∧ isNext (exec (.write 1 0 0) dirty) = true := by
  decide
theorem witness_StepKeepsTheMachineInvariant :
    ({ dirty with pending := [.host (packHost mini 3 0 0 0)] } : State).Inv
    ∧ isNext (step { dirty with pending := [.host (packHost mini 3 0 0 0)] }) = true := by decide
theorem witness_HostStepsKeepCoherence :
    ({ dirty with pending := [.host (packHost mini 3 0 0 0)] } : State).Coherent
    ∧ isNext (step { dirty with pending := [.host (packHost mini 3 0 0 0)] }) = true := by decide
theorem witness_LinesAreConfiguredBeforeDriven :
    (State.reset.withFetchWord 24 0).ConfiguredFirst ∧ isNext (step (State.reset.withFetchWord 24 0)) = true := by decide
theorem witness_LevelsFollowTheTrace :
    LevelsTraced (State.reset.withFetchWord 24 0) ∧ isNext (step (State.reset.withFetchWord 24 0)) = true :=
  ⟨fun l => by cases l <;> rfl, by decide⟩

end Sys2Proof.Tests
end

