-- ==== Sys2Proof/Proofs/Scope.lean ====
section
/-! PROOFS. The scope family (00_scope.md): what each check of a well-formed configuration says, what a step answers
for each kind of request, and the refusal of ill-formed configurations. -/

namespace Sys2Proof.Config

variable {c : Config}

/-! ### Each check of R7 and R9 as a proposition -/

theorem parametersPositive_iff : c.parametersPositive = true ↔
    0 < c.w ∧ 0 < c.h ∧ 0 < c.chipsX ∧ 0 < c.chipsY ∧ 0 < c.colors ∧ 0 < c.ledsPerCell := by
  simp [parametersPositive, and_assoc]

theorem regionsEqual_iff : c.regionsEqual = true ↔
    c.chipsX ∣ c.w ∧ c.chipsY ∣ c.h ∧ c.ledsPerCell ∣ c.h / c.chipsY := by
  simp only [regionsEqual, Bool.and_eq_true, decide_eq_true_eq, ← Nat.dvd_iff_mod_eq_zero, and_assoc, chh]

theorem cellFits_iff : c.cellFits = true ↔ c.ledsPerCell ≤ 7 := decide_eq_true_iff

theorem addressFits_iff : c.addressFits = true ↔
    c.w * c.h * c.colors / (c.ledsPerCell * (c.chipsX * c.chipsY)) ≤ 2 ^ c.addrBits := decide_eq_true_iff

theorem panelFits_iff : c.panelFits = true ↔ c.w < 2 ^ (c.coordBits - 1) ∧ c.h < 2 ^ (c.coordBits - 1) := by
  simp [panelFits]

theorem sentinelAdmissible_iff : c.sentinelAdmissible = true ↔
    c.sentinel.msb = true ∨ c.sentinel &&& BitVec.ofNat 8 (2 ^ c.ledsPerCell - 1) ≠ 0#8 := by
  rw [sentinelAdmissible, Bool.or_eq_true, decide_eq_true_iff]
  rfl

/-- The conditions of R7, with R9's and U8's on SENTINEL, written out. -/
theorem wf_iff : c.wf = true ↔
    (0 < c.w ∧ 0 < c.h ∧ 0 < c.chipsX ∧ 0 < c.chipsY ∧ 0 < c.colors ∧ 0 < c.ledsPerCell)
    ∧ c.chipsX ∣ c.w ∧ c.chipsY ∣ c.h ∧ c.ledsPerCell ∣ c.h / c.chipsY
    ∧ c.ledsPerCell ≤ 7
    ∧ c.w * c.h * c.colors / (c.ledsPerCell * (c.chipsX * c.chipsY)) ≤ 2 ^ c.addrBits
    ∧ c.w < 2 ^ (c.coordBits - 1) ∧ c.h < 2 ^ (c.coordBits - 1)
    ∧ (c.sentinel.msb = true ∨ c.sentinel &&& BitVec.ofNat 8 (2 ^ c.ledsPerCell - 1) ≠ 0#8) := by
  simp only [wf, Bool.and_eq_true, parametersPositive_iff, regionsEqual_iff, cellFits_iff, addressFits_iff,
    panelFits_iff, sentinelAdmissible_iff, and_assoc]

end Sys2Proof.Config

namespace Sys2Proof.Machine

open Sys2Proof

variable {s : State} {r : Request} {rest : List Request}

/-! ### In an ill-formed configuration nothing runs (R7, U8) -/

theorem step_of_not_wf (h : s.cfg.wf = false) : step s = .refused .illFormedConfig := Guard.config_of_not_wf h

/-- Every meaning stands behind the configuration guard. -/
theorem exec_of_not_wf (h : s.cfg.wf = false) (i : Instr) : exec i s = .refused .illFormedConfig := by
  cases i <;> exact Guard.config_of_not_wf h

/-! ### What a step answers for each kind of request -/

/-- With no request pending the machine waits (R128). -/
theorem step_of_pending_nil (hw : s.cfg.wf = true) (hp : s.pending = []) : step s = .next s := by
  rw [step, Guard.config_of_wf hw, hp]

/-- A decoded request runs as its instruction (R18, R41); the ill-formed case agrees because exec refuses too. -/
theorem step_of_decode_instr {i : Instr} (hp : s.pending = r :: rest)
    (hd : decodeRequest s.cfg r = .ok (some i)) : step s = exec i { s with pending := rest } := by
  cases hw : s.cfg.wf with
  | false => rw [step_of_not_wf hw, exec_of_not_wf (s := { s with pending := rest }) hw]
  | true => simp only [step, Guard.config_of_wf hw, hp, hd]

/-- The reset event is taken, and the further requests stay (R127). -/
theorem step_of_reset (hw : s.cfg.wf = true) (hp : s.pending = .reset :: rest) :
    step s = .next ({ s with pending := rest } : State).resetEvent := by
  simp only [step, Guard.config_of_wf hw, hp, decodeRequest]

/-- A request that names no instruction is refused with the decoder's reason. -/
theorem step_of_decode_error {e : DecodeError} (hw : s.cfg.wf = true) (hp : s.pending = r :: rest)
    (hd : decodeRequest s.cfg r = .error e) : step s = .refused (.undecodable e) := by
  simp only [step, Guard.config_of_wf hw, hp, hd]

/-! ### The statements of the family -/

/-- Settles O9: one rule of the step for each kind of request. -/
theorem stepRunsTheDecodedInstruction : Obligations.StepRunsTheDecodedInstruction := by
  intro s
  refine ⟨fun r rest i => step_of_decode_instr, step_of_not_wf, step_of_pending_nil, ?_,
    fun hw r rest e => step_of_decode_error hw⟩
  intro hw rest hp
  exact ⟨_, step_of_reset hw hp, State.resetEvent_pending _⟩

/-- Settles O10: the checks of `Config.wf` one by one, and the guard before every meaning and every step. -/
theorem illFormedConfigurationsAreRefused : Obligations.IllFormedConfigurationsAreRefused :=
  ⟨fun _ => Config.wf_iff, fun _ h => ⟨step_of_not_wf h, exec_of_not_wf h⟩⟩

end Sys2Proof.Machine
end

