-- ==== Sys2Proof/Proofs/Transmission.lean ====
section
/-! PROOFS. What an operation does to the trace, the lines and the receiver, said once for every instruction: it emits
a list of events (`Emits`), and all but INIT emit encoder traffic only (`Transmits`). From it O44, O49 and O50. -/

namespace Sys2Proof.Machine

open Sys2Proof

/-! ### Encoder traffic -/

/-- The levels as the lines rest between operations (R104), the levels of `State.linesIdle`. -/
def IdleLevels (lv : Lines Level) : Prop :=
  lv.clk = .low ∧ lv.wr = .high ∧ lv.cs = .high ∧ lv.data ≠ .unknown

/-- Events of the encoder: each drives a line, and lines that rest idle rest idle again afterwards (R104). -/
structure Traffic (es : List Event) : Prop where
  sets : ∀ e ∈ es, isSetEvent e = true
  idle : ∀ lv, IdleLevels lv → IdleLevels (es.foldl levelsAfter lv)

theorem Traffic.nil : Traffic [] := ⟨by simp, fun _ h => h⟩

theorem Traffic.append {es es' : List Event} (h : Traffic es) (h' : Traffic es') : Traffic (es ++ es') where
  sets e he := (List.mem_append.1 he).elim (h.sets e) (h'.sets e)
  idle lv hl := by
    rw [List.foldl_append]
    exact h'.idle _ (h.idle lv hl)

theorem traffic_clkPulse : Traffic clkPulse where
  sets := by decide
  idle := by
    rintro lv ⟨-, hw, hc, hd⟩
    exact ⟨rfl, hw, hc, hd⟩

theorem traffic_clkPulses (n : Nat) : Traffic (clkPulses n) := by
  induction n with
  | zero => exact .nil
  | succ n ih => exact traffic_clkPulse.append ih

theorem traffic_flushEvents (n : Nat) : Traffic (flushEvents n) := by
  have hcs : Traffic [.set .cs true] := ⟨by decide, fun lv ⟨hk, hw, _, hd⟩ => ⟨hk, hw, rfl, hd⟩⟩
  exact hcs.append (traffic_clkPulses n)

theorem traffic_selectEvents (n k : Nat) : Traffic (selectEvents n k) := by
  cases k with
  | zero => exact traffic_flushEvents n
  | succ k =>
    have hlow : Traffic (.set .cs false :: clkPulse ++ [.set .cs true]) :=
      ⟨by decide, fun lv ⟨_, hw, _, hd⟩ => ⟨rfl, hw, rfl, hd⟩⟩
    have h := ((traffic_flushEvents n).append hlow).append (traffic_clkPulses k)
    simpa [selectEvents] using h

theorem traffic_bitsEvents (bs : List Bool) : Traffic (bitsEvents bs) := by
  induction bs with
  | nil => exact .nil
  | cons b bs ih =>
    have hbit : Traffic (bitEvents b) :=
      ⟨by cases b <;> decide, fun lv ⟨hk, _, hc, _⟩ => ⟨hk, rfl, hc, by cases b <;> exact nofun⟩⟩
    exact hbit.append ih

theorem traffic_sendCmdEvents (c : Config) (k p : Nat) : Traffic (sendCmdEvents c k p) :=
  ((((traffic_selectEvents _ _).append (traffic_bitsEvents _)).append (traffic_bitsEvents _)).append
    (traffic_bitsEvents _)).append (traffic_selectEvents _ _)

theorem traffic_sendDataEvents (c : Config) (k a d : Nat) : Traffic (sendDataEvents c k a d) :=
  (((traffic_selectEvents _ _).append (traffic_bitsEvents _)).append (traffic_bitsEvents _)).append
    (traffic_bitsEvents _)

/-- The first eight events of INIT leave the lines idle, whatever their levels were (R108). -/
theorem foldl_levelsAfter_idleEvents (lv : Lines Level) :
    idleEvents.foldl levelsAfter lv = ⟨.low, .low, .high, .high⟩ := rfl

/-- The idle levels, then traffic: the lines rest idle (R104, R108). -/
theorem Traffic.idle_after_idleEvents {es : List Event} (h : Traffic es) (lv : Lines Level) :
    IdleLevels ((idleEvents ++ es).foldl levelsAfter lv) := by
  rw [List.foldl_append, foldl_levelsAfter_idleEvents]
  exact h.idle _ ⟨rfl, rfl, rfl, nofun⟩

/-! ### What an operation emits -/

/-- `t` comes from `s` by emitting `es`: the trace grows by them, the levels and the receiver take them, and the
configuration, the further requests and the reset counter stay. -/
structure Emits (s t : State) (es : List Event) : Prop where
  cfg : t.cfg = s.cfg
  pending : t.pending = s.pending
  resets : t.resets = s.resets
  trace : t.trace = s.trace ++ es
  bus : (t.levels, t.rx) = busRun s.cfg (s.levels, s.rx) es

theorem Emits.refl (s : State) : Emits s s [] := ⟨rfl, rfl, rfl, (List.append_nil _).symm, rfl⟩

theorem Emits.trans {s t u : State} {es es' : List Event} (h : Emits s t es) (h' : Emits t u es') :
    Emits s u (es ++ es') where
  cfg := h'.cfg.trans h.cfg
  pending := h'.pending.trans h.pending
  resets := h'.resets.trans h.resets
  trace := by rw [h'.trace, h.trace, List.append_assoc]
  bus := by rw [h'.bus, h.bus, h.cfg, busRun_append]

theorem Emits.levels {s t : State} {es : List Event} (h : Emits s t es) :
    t.levels = es.foldl levelsAfter s.levels :=
  (congrArg Prod.fst h.bus).trans (busRun_levels _ _ _)

theorem Emits.rx {s t : State} {es : List Event} (h : Emits s t es) :
    t.rx = (busRun s.cfg (s.levels, s.rx) es).2 := congrArg Prod.snd h.bus

/-- `t` comes from `s` by encoder traffic, with `inited` and `configured` as they were. -/
structure Transmits (s t : State) : Prop where
  inited : t.inited = s.inited
  configured : t.configured = s.configured
  emits : ∃ es, Traffic es ∧ Emits s t es

theorem Transmits.refl (s : State) : Transmits s s := ⟨rfl, rfl, [], .nil, .refl s⟩

theorem Transmits.trans {s t u : State} (h : Transmits s t) (h' : Transmits t u) : Transmits s u := by
  obtain ⟨es, htr, hes⟩ := h.emits
  obtain ⟨es', htr', hes'⟩ := h'.emits
  exact ⟨h'.inited.trans h.inited, h'.configured.trans h.configured, _, htr.append htr', hes.trans hes'⟩

theorem Transmits.cfg {s t : State} (h : Transmits s t) : t.cfg = s.cfg := by
  obtain ⟨_, -, hes⟩ := h.emits
  exact hes.cfg

theorem Transmits.idle {s t : State} (h : Transmits s t) (hs : IdleLevels s.levels) : IdleLevels t.levels := by
  obtain ⟨es, htr, hes⟩ := h.emits
  exact hes.levels ▸ htr.idle _ hs

/-- A list of operations that each transmit, transmits. -/
theorem transmits_foldl {α : Type} {f : State → α → State} (hf : ∀ s x, Transmits s (f s x)) (l : List α) (s : State) :
    Transmits s (l.foldl f s) := by
  induction l generalizing s with
  | nil => exact .refl s
  | cons x l ih => exact (hf s x).trans (ih _)

/-- A change of the frame buffer alone transmits nothing. -/
theorem transmits_fb (s : State) (fb : Memory) : Transmits s { s with fb := fb } :=
  ⟨rfl, rfl, [], .nil, rfl, rfl, rfl, (List.append_nil _).symm, rfl⟩

theorem transmits_sendCmd (s : State) (k p : Nat) : Transmits s (s.sendCmd k p) := by
  rw [State.sendCmd_eq]
  exact ⟨rfl, rfl, _, traffic_sendCmdEvents s.cfg k p, rfl, rfl, rfl, rfl, rfl⟩

theorem transmits_sendData (s : State) (k a d : Nat) : Transmits s (s.sendData k a d) := by
  rw [State.sendData_eq]
  exact ⟨rfl, rfl, _, traffic_sendDataEvents s.cfg k a d, rfl, rfl, rfl, rfl, rfl⟩

theorem transmits_commitCell (s : State) (p : Nat × Nat) : Transmits s (s.commitCell p) := by
  unfold State.commitCell
  split
  · exact (transmits_sendData _ _ _ _).trans (transmits_fb _ _)
  · exact .refl s

theorem transmits_commitBody (s : State) : Transmits s s.commitBody := transmits_foldl transmits_commitCell _ s

theorem transmits_configureChips (s : State) : Transmits s s.configureChips :=
  transmits_foldl (fun _ _ => transmits_foldl (fun s p => transmits_sendCmd s _ p) _ _) _ s

theorem transmits_plotBody {x y : Int} {color : Nat} {s t : State} (h : plotBody x y color s = .next t) :
    Transmits s t := by
  rcases plotBody_next h with rfl | ⟨-, rfl, -⟩
  · exact .refl t
  · exact transmits_fb s _

/-- A frame row's answer: SENDCMD or SENDDATA behind the configuration guard. -/
theorem transmits_of_guard_config {s t u : State} (hu : Transmits s u) (h : Guard.config s (.next u) = .next t) :
    Transmits s t := by
  obtain ⟨-, hk⟩ := Guard.config_next h
  exact Host.Outcome.next.inj hk ▸ hu

/-- Every instruction but INIT transmits (R71, R90, R100, R101). -/
theorem exec_transmits {s t : State} {i : Instr} (hi : i ≠ .init) (h : exec i s = .next t) : Transmits s t := by
  cases i with
  | init => exact absurd rfl hi
  | plot x y color =>
    obtain ⟨-, -, hb⟩ := execPlot_next h
    exact transmits_plotBody hb
  | clear =>
    obtain ⟨-, -, rfl⟩ := execClear_next h
    exact transmits_fb s _
  | commit =>
    obtain ⟨-, -, rfl⟩ := execCommit_next h
    exact transmits_commitBody s
  | write k a d => exact transmits_of_guard_config (transmits_sendData s k a d) h
  | cmd k | sysdis k | panelcfg k | master k | sysen k | ledon k =>
    exact transmits_of_guard_config (transmits_sendCmd s k _) h

/-- INIT up to its COMMIT (R108 to R111). -/
def State.blankBody (s : State) : State :=
  ({ s with inited := false } : State).idleLines.fillBody.configureChips.clearBody

theorem emits_idleLines (s : State) : Emits s ({ s with inited := false } : State).idleLines idleEvents := by
  rw [State.idleLines_eq]
  exact ⟨rfl, rfl, rfl, rfl, rfl⟩

/-- Up to its COMMIT, INIT configures every line and emits the idle levels, then encoder traffic (R108 to R111). -/
theorem blankBody_emits (s : State) :
    s.blankBody.configured = allLines true ∧ ∃ es, Traffic es ∧ Emits s s.blankBody (idleEvents ++ es) := by
  have h : Transmits ({ s with inited := false } : State).idleLines s.blankBody :=
    (transmits_fb _ _).trans ((transmits_configureChips _).trans (transmits_fb _ _))
  obtain ⟨es, htr, hes⟩ := h.emits
  exact ⟨h.configured, es, htr, (emits_idleLines s).trans hes⟩

/-- INIT configures every line and emits the idle levels, then encoder traffic (R108, R112). -/
theorem initBody_emits (s : State) :
    s.initBody.configured = allLines true ∧ ∃ es, Traffic es ∧ Emits s s.initBody (idleEvents ++ es) := by
  obtain ⟨hconf, es, htr, hes⟩ := blankBody_emits s
  have h := transmits_commitBody s.blankBody
  obtain ⟨es', htr', hes'⟩ := h.emits
  obtain ⟨hcfg, hpending, hresets, htrace, hbus⟩ := hes.trans hes'
  refine ⟨h.configured.trans hconf, es ++ es', htr.append htr', ?_⟩
  rw [← List.append_assoc]
  exact ⟨hcfg, hpending, hresets, htrace, hbus⟩

/-- Every completed instruction is the emission of some events. -/
theorem exec_emits {s t : State} {i : Instr} (h : exec i s = .next t) : ∃ es, Emits s t es := by
  by_cases hi : i = .init
  · subst hi
    obtain ⟨-, rfl⟩ := execInit_next h
    obtain ⟨-, es, -, hes⟩ := initBody_emits s
    exact ⟨_, hes⟩
  · obtain ⟨es, -, hes⟩ := (exec_transmits hi h).emits
    exact ⟨es, hes⟩

/-- Settles O44: every instruction emits, and all but INIT keep `inited` and `configured`. -/
theorem onlyInitInitialises : Obligations.OnlyInitInitialises := by
  intro s t i h
  obtain ⟨es, hes⟩ := exec_emits h
  refine ⟨hes.cfg, hes.pending, hes.resets, hes.trace ▸ List.prefix_append _ _, fun hi => ?_⟩
  exact ⟨(exec_transmits hi h).inited, (exec_transmits hi h).configured⟩

/-! ### Each line's level is that of its last Set (R19, R21) -/

theorem levelFrom_append (start : Level) (l : Line) (es es' : List Event) :
    levelFrom start l (es ++ es') = levelFrom (levelFrom start l es) l es' := by
  induction es generalizing start with
  | nil => rfl
  | cons e es ih => cases e <;> exact ih _

theorem get_foldl_levelsAfter (lv : Lines Level) (l : Line) (es : List Event) :
    (es.foldl levelsAfter lv).get l = levelFrom (lv.get l) l es := by
  induction es generalizing lv with
  | nil => rfl
  | cons e es ih =>
    cases e with
    | cfg l' => exact ih lv
    | set l' b => rw [List.foldl_cons, ih, levelsAfter, Lines.get_put, levelFrom]

theorem Emits.levelsTraced {s t : State} {es : List Event} (h : Emits s t es) (hs : LevelsTraced s) :
    LevelsTraced t := by
  intro l
  rw [h.levels, h.trace, levelFrom_append, get_foldl_levelsAfter, hs l]

theorem levelsTraced_reset : LevelsTraced State.reset := fun l => by cases l <;> rfl

/-- Settles O50: an instruction's events change the levels and the trace alike; the reset event empties both. -/
theorem levelsFollowTheTrace : Obligations.LevelsFollowTheTrace := by
  refine ⟨levelsTraced_reset, fun s t hs h => ?_⟩
  obtain ⟨-, ⟨-, rfl⟩ | ⟨r, rest, i, -, -, h⟩ | ⟨r, rest, -, -, rfl⟩⟩ := step_cases h
  · exact hs
  · obtain ⟨es, hes⟩ := exec_emits h
    exact hes.levelsTraced hs
  · exact fun l => by cases l <;> rfl

/-! ### No line is driven before it is configured (R20) -/

theorem drivenConfigured_append (seen : Lines Bool) (es es' : List Event) :
    drivenConfigured seen (es ++ es')
      = (drivenConfigured seen es && drivenConfigured (configuredFrom seen es) es') := by
  induction es generalizing seen with
  | nil => rfl
  | cons e es ih =>
    cases e with
    | cfg l => exact ih _
    | set l b =>
      show (seen.get l && drivenConfigured seen (es ++ es')) = _
      rw [ih, ← Bool.and_assoc]
      rfl

theorem configuredFrom_append (seen : Lines Bool) (es es' : List Event) :
    configuredFrom seen (es ++ es') = configuredFrom (configuredFrom seen es) es' := by
  induction es generalizing seen with
  | nil => rfl
  | cons e es ih => cases e <;> exact ih _

/-- Encoder traffic configures no line. -/
theorem Traffic.configuredFrom_eq {es : List Event} (h : Traffic es) (seen : Lines Bool) :
    configuredFrom seen es = seen := by
  have hsets := h.sets
  clear h
  induction es with
  | nil => rfl
  | cons e es ih =>
    cases e with
    | cfg l => exact (Bool.false_ne_true (hsets (.cfg l) List.mem_cons_self)).elim
    | set l b => exact ih fun e he => hsets e (List.mem_cons_of_mem _ he)

/-- Encoder traffic drives configured lines once every line is configured. -/
theorem Traffic.drivenConfigured_eq {es : List Event} (h : Traffic es) :
    drivenConfigured (allLines true) es = true := by
  have hsets := h.sets
  clear h
  induction es with
  | nil => rfl
  | cons e es ih =>
    have htail := ih fun e he => hsets e (List.mem_cons_of_mem _ he)
    cases e with
    | cfg l => exact (Bool.false_ne_true (hsets (.cfg l) List.mem_cons_self)).elim
    | set l b => cases l <;> exact htail

theorem drivenConfigured_idleEvents (seen : Lines Bool) : drivenConfigured seen idleEvents = true := rfl

theorem configuredFrom_idleEvents (seen : Lines Bool) : configuredFrom seen idleEvents = allLines true := rfl

/-- The trace part of `State.ConfiguredFirst`. -/
def ConfiguredTrace (s : State) : Prop :=
  drivenConfigured (allLines false) s.trace = true ∧ s.configured = configuredFrom (allLines false) s.trace

/-- INIT configures every line before it drives it (R108), and configures all of them. -/
theorem initBody_configuredTrace {s : State} (hs : ConfiguredTrace s) : ConfiguredTrace s.initBody := by
  obtain ⟨hdriven, -⟩ := hs
  obtain ⟨hconf, es, htr, hes⟩ := initBody_emits s
  rw [ConfiguredTrace, hes.trace, hconf]
  simp only [drivenConfigured_append, configuredFrom_append, drivenConfigured_idleEvents, configuredFrom_idleEvents,
    htr.drivenConfigured_eq, htr.configuredFrom_eq, hdriven, Bool.and_self, and_self]

/-- Traffic keeps the trace's order once every line is configured. -/
theorem Transmits.configuredTrace {s t : State} (h : Transmits s t) (hall : s.configured = allLines true)
    (hs : ConfiguredTrace s) : ConfiguredTrace t := by
  obtain ⟨hdriven, hconf⟩ := hs
  obtain ⟨es, htr, hes⟩ := h.emits
  rw [ConfiguredTrace, hes.trace, h.configured]
  simp only [drivenConfigured_append, configuredFrom_append, htr.configuredFrom_eq, hdriven, ← hconf, hall,
    htr.drivenConfigured_eq, Bool.and_self, and_self]

theorem hostRequestsOnly_cons {r : Request} {rest : List Request} (h : hostRequestsOnly (r :: rest) = true) :
    (∀ k bits, r ≠ .frame k bits) ∧ hostRequestsOnly rest = true := by
  simp only [hostRequestsOnly, List.all_cons, Bool.and_eq_true] at h
  exact ⟨fun k bits hr => by simp [hr] at h, h.2⟩

/-- What a host word decodes to is an operation of the host (R54). -/
theorem decodeRequest_isHostOp {c : Config} {r : Request} {i : Instr} (hr : ∀ k bits, r ≠ .frame k bits)
    (h : decodeRequest c r = .ok (some i)) : i.isHostOp = true := by
  cases r with
  | frame k bits => exact absurd rfl (hr k bits)
  | reset => cases h
  | host w =>
    simp only [decodeRequest, decodeHost] at h
    split at h
    · cases h
      unfold hostInstr
      split_ifs <;> rfl
    · cases h

/-- Every host operation but INIT runs only after INIT (R22, R118). -/
theorem inited_of_exec_hostOp {s t : State} {i : Instr} (hop : i.isHostOp = true) (hi : i ≠ .init)
    (h : exec i s = .next t) : s.inited = true := by
  cases i with
  | init => exact absurd rfl hi
  | plot x y color => exact (execPlot_next h).2.1
  | clear => exact (execClear_next h).2.1
  | commit => exact (execCommit_next h).2.1
  | _ => cases hop

/-- Settles O49: INIT configures before it drives, and the other host operations run with all lines configured. -/
theorem linesAreConfiguredBeforeDriven : Obligations.LinesAreConfiguredBeforeDriven := by
  rintro s t ⟨hreq, hdriven, hconf, hinit⟩ h
  obtain ⟨-, ⟨-, rfl⟩ | ⟨r, rest, i, hp, hd, h⟩ | ⟨r, rest, hp, -, rfl⟩⟩ := step_cases h
  · exact ⟨hreq, hdriven, hconf, hinit⟩
  · obtain ⟨hr, hrest⟩ := hostRequestsOnly_cons (hp ▸ hreq)
    have hpend : hostRequestsOnly t.pending = true := by
      obtain ⟨es, hes⟩ := exec_emits h
      rw [hes.pending]
      exact hrest
    by_cases hi : i = .init
    · subst hi
      obtain ⟨-, rfl⟩ := execInit_next h
      obtain ⟨hdriven', hconf'⟩ := initBody_configuredTrace (s := { s with pending := rest }) ⟨hdriven, hconf⟩
      exact ⟨hpend, hdriven', hconf', fun _ => (initBody_emits _).1⟩
    · have hall := hinit (inited_of_exec_hostOp (s := { s with pending := rest }) (decodeRequest_isHostOp hr hd) hi h)
      have htr := exec_transmits hi h
      obtain ⟨hdriven', hconf'⟩ := htr.configuredTrace hall ⟨hdriven, hconf⟩
      exact ⟨hpend, hdriven', hconf', fun _ => htr.configured.trans hall⟩
  · exact ⟨(hostRequestsOnly_cons (hp ▸ hreq)).2, rfl, rfl, nofun⟩

end Sys2Proof.Machine
end

