-- ==== Sys2Proof/Proofs/Noninterference.lean ====
section
/-! PROOFS. The controller never reads the chips (R25, R117): every operation commutes with a change of the receiver,
but for the receiver it leaves (O45). -/

namespace Sys2Proof.Machine

open Sys2Proof

/-- The state with another receiver. -/
def State.withRx (s : State) (r : Receiver) : State := { s with rx := r }

/-- The operation's effect on the rest of the state does not depend on the receiver. -/
def IgnoresChips (f : State → State) : Prop := ∀ (s : State) (r : Receiver), ∃ r', f (s.withRx r) = (f s).withRx r'

theorem IgnoresChips.comp {f g : State → State} (hg : IgnoresChips g) (hf : IgnoresChips f) :
    IgnoresChips (fun s => g (f s)) := by
  intro s r
  obtain ⟨r₁, h₁⟩ := hf s r
  obtain ⟨r₂, h₂⟩ := hg (f s) r₁
  exact ⟨r₂, (congrArg g h₁).trans h₂⟩

theorem IgnoresChips.foldl {α : Type} {f : State → α → State} (hf : ∀ x, IgnoresChips (f · x)) (l : List α) :
    IgnoresChips (fun s => l.foldl f s) := by
  induction l with
  | nil => exact fun s r => ⟨r, rfl⟩
  | cons x l ih => exact ih.comp (hf x)

/-- An operation chosen by the configuration, which no receiver changes. -/
theorem IgnoresChips.ofCfg {f : Config → State → State} (hf : ∀ c, IgnoresChips (f c)) :
    IgnoresChips (fun s => f s.cfg s) := fun s r => hf s.cfg s r

/-- The levels after events do not depend on the receiver, so neither does what is emitted. -/
theorem ignoresChips_emit (es : List Event) : IgnoresChips (State.emit · es) := by
  intro s r
  exact ⟨((s.withRx r).emit es).rx, by simp [State.emit, State.withRx, busRun_levels]⟩

theorem ignoresChips_sel (k : Nat) : IgnoresChips (fun s => { s with sel := some k }) := fun _ r => ⟨r, rfl⟩

theorem ignoresChips_fb (g : Config → Memory → Memory) :
    IgnoresChips (fun s => { s with fb := g s.cfg s.fb }) := fun _ r => ⟨r, rfl⟩

theorem ignoresChips_sendCmd (k p : Nat) : IgnoresChips (State.sendCmd · k p) := by
  simp only [State.sendCmd_eq]
  exact .ofCfg fun c => (ignoresChips_sel 0).comp (ignoresChips_emit (sendCmdEvents c k p))

theorem ignoresChips_sendData (k a d : Nat) : IgnoresChips (State.sendData · k a d) := by
  simp only [State.sendData_eq]
  exact .ofCfg fun c => (ignoresChips_sel k).comp (ignoresChips_emit (sendDataEvents c k a d))

theorem ignoresChips_commitCell (p : Nat × Nat) : IgnoresChips (State.commitCell · p) := by
  intro s r
  show ∃ r', (s.withRx r).commitCell p = (s.commitCell p).withRx r'
  cases hm : modified (s.cell p.1 p.2) with
  | false => exact ⟨r, by rw [State.commitCell_clean hm, State.commitCell_clean (s := s.withRx r) hm]⟩
  | true =>
    obtain ⟨r', h⟩ := ignoresChips_sendData (p.2 + 1) p.1 (cellData s.cfg (s.cell p.1 p.2)).toNat s r
    refine ⟨r', ?_⟩
    rw [State.commitCell_dirty hm, State.commitCell_dirty (s := s.withRx r) hm]
    exact congrArg (State.setCell · p.1 p.2 (cellData s.cfg (s.cell p.1 p.2))) h

theorem ignoresChips_commitBody : IgnoresChips State.commitBody :=
  .ofCfg fun c => .foldl ignoresChips_commitCell (scanOrder c)

theorem ignoresChips_clearBody : IgnoresChips State.clearBody := ignoresChips_fb clearBuffer

theorem ignoresChips_configureChips : IgnoresChips State.configureChips :=
  .ofCfg fun c => .foldl (fun i => .ofCfg fun c' => .foldl (ignoresChips_sendCmd (i + 1)) c'.initPayloads)
    (List.range c.chips)

theorem ignoresChips_idleLines : IgnoresChips State.idleLines := by
  intro s r
  obtain ⟨r', h⟩ := ignoresChips_emit idleEvents s r
  refine ⟨r', ?_⟩
  rw [State.idleLines_eq, State.idleLines_eq]
  exact congrArg (fun t : State => { t with configured := allLines true }) h

theorem ignoresChips_initBody : IgnoresChips State.initBody := by
  have hinited (b : Bool) : IgnoresChips (fun s => { s with inited := b }) := fun _ r => ⟨r, rfl⟩
  have hfill : IgnoresChips State.fillBody := ignoresChips_fb filledBuffer
  exact (hinited true).comp (ignoresChips_commitBody.comp (ignoresChips_clearBody.comp
    (ignoresChips_configureChips.comp (hfill.comp (ignoresChips_idleLines.comp (hinited false))))))

/-! ### PLOT, case by case (R72, R77, R78) -/

section PlotCases

variable {s : State}

theorem plotBody_rejected {x y : Int} {color : Nat} (hr : rangeRejects s.cfg x y = true) :
    plotBody x y color s = .next s := if_pos hr

theorem plotBody_inside {x y : Int} {color : Nat} (hr : rangeRejects s.cfg x y = false)
    (hc : chipIndex s.cfg x.toNat y.toNat < s.cfg.chips) :
    plotBody x y color s = .next { s with fb := plotPixel s.cfg x.toNat y.toNat color s.fb } := by
  rw [plotBody, if_neg (by simp [hr]), if_neg (by omega)]

theorem plotBody_beyond {x y : Int} {color : Nat} (hr : rangeRejects s.cfg x y = false)
    (hc : s.cfg.chips ≤ chipIndex s.cfg x.toNat y.toNat) :
    plotBody x y color s = plotBeyond x.toNat y.toNat color s := by
  rw [plotBody, if_neg (by simp [hr]), if_pos hc]

theorem plotBeyond_fault {x y color : Nat} (hy : s.cfg.yEqH = .fault) :
    plotBeyond x y color s = .fault (.chipIndexOutOfRange x y (chipIndex s.cfg x y)) := by
  simp only [plotBeyond, hy]

theorem plotBeyond_ignore {x y color : Nat} (hy : s.cfg.yEqH = .ignore) : plotBeyond x y color s = .next s := by
  simp only [plotBeyond, hy]

theorem plotBeyond_alias {x y color : Nat} (hy : s.cfg.yEqH = .aliasFlat)
    (hl : lastLinearIndex s.cfg x y < s.cfg.size) :
    plotBeyond x y color s = .next { s with fb := plotPixel s.cfg x y color s.fb } := by
  simp only [plotBeyond, hy, if_neg (Nat.not_le.2 hl)]

theorem plotBeyond_alias_outside {x y color : Nat} (hy : s.cfg.yEqH = .aliasFlat)
    (hl : s.cfg.size ≤ lastLinearIndex s.cfg x y) :
    plotBeyond x y color s = .fault (.chipIndexOutOfRange x y (chipIndex s.cfg x y)) := by
  simp only [plotBeyond, hy, if_pos hl]

end PlotCases

/-! ### Answers -/

theorem IgnoresChips.controllerPart_next {f : State → State} (hf : IgnoresChips f) (s : State) (r : Receiver) :
    controllerPart (.next (f (s.withRx r))) = controllerPart (.next (f s)) := by
  obtain ⟨r', h⟩ := hf s r
  rw [h]
  rfl

theorem controllerPart_guard_config {s : State} {r : Receiver} {k k' : Result}
    (h : controllerPart k' = controllerPart k) :
    controllerPart (Guard.config (s.withRx r) k') = controllerPart (Guard.config s k) := by
  cases hw : s.cfg.wf with
  | true => rwa [Guard.config_of_wf hw, Guard.config_of_wf (s := s.withRx r) hw]
  | false => rw [Guard.config_of_not_wf hw, Guard.config_of_not_wf (s := s.withRx r) hw]

theorem controllerPart_guard_inited {op : Instr} {s : State} {r : Receiver} {k k' : Result}
    (h : controllerPart k' = controllerPart k) :
    controllerPart (Guard.inited op (s.withRx r) k') = controllerPart (Guard.inited op s k) := by
  show controllerPart (if s.inited then k' else .fault (.useBeforeInit op))
    = controllerPart (if s.inited then k else .fault (.useBeforeInit op))
  split
  · exact h
  · rfl

/-- PLOT decides by its operands and the configuration alone. -/
theorem controllerPart_plotBody (x y : Int) (color : Nat) (s : State) (r : Receiver) :
    controllerPart (plotBody x y color (s.withRx r)) = controllerPart (plotBody x y color s) := by
  cases hr : rangeRejects s.cfg x y with
  | true =>
    rw [plotBody_rejected hr, plotBody_rejected (s := s.withRx r) hr]
    rfl
  | false =>
    rcases Nat.lt_or_ge (chipIndex s.cfg x.toNat y.toNat) s.cfg.chips with hc | hc
    · rw [plotBody_inside hr hc, plotBody_inside (s := s.withRx r) hr hc]
      rfl
    · rw [plotBody_beyond hr hc, plotBody_beyond (s := s.withRx r) hr hc]
      cases hy : s.cfg.yEqH with
      | fault => rw [plotBeyond_fault hy, plotBeyond_fault (s := s.withRx r) hy]; rfl
      | ignore => rw [plotBeyond_ignore hy, plotBeyond_ignore (s := s.withRx r) hy]; rfl
      | aliasFlat =>
        rcases Nat.lt_or_ge (lastLinearIndex s.cfg x.toNat y.toNat) s.cfg.size with hl | hl
        · rw [plotBeyond_alias hy hl, plotBeyond_alias (s := s.withRx r) hy hl]; rfl
        · rw [plotBeyond_alias_outside hy hl, plotBeyond_alias_outside (s := s.withRx r) hy hl]; rfl

/-- Settles O45: the guards and PLOT's tests read the controller alone, and every operation ignores the chips. -/
theorem controllerIgnoresTheChips : Obligations.ControllerIgnoresTheChips := by
  intro s i r
  show controllerPart (exec i (s.withRx r)) = controllerPart (exec i s)
  have hframe {f : State → State} (hf : IgnoresChips f) :
      controllerPart (Guard.config (s.withRx r) (.next (f (s.withRx r))))
        = controllerPart (Guard.config s (.next (f s))) :=
    controllerPart_guard_config (hf.controllerPart_next s r)
  cases i with
  | init => exact hframe ignoresChips_initBody
  | plot x y color =>
    exact controllerPart_guard_config (controllerPart_guard_inited (controllerPart_plotBody x y color s r))
  | clear =>
    exact controllerPart_guard_config (controllerPart_guard_inited (ignoresChips_clearBody.controllerPart_next s r))
  | commit =>
    exact controllerPart_guard_config (controllerPart_guard_inited (ignoresChips_commitBody.controllerPart_next s r))
  | cmd k | sysdis k | panelcfg k | master k | sysen k | ledon k => exact hframe (ignoresChips_sendCmd k _)
  | write k a d => exact hframe (ignoresChips_sendData k a d)

end Sys2Proof.Machine
end

