-- ==== Sys2Proof/Proofs/Transitions.lean ====
section
/-! PROOFS. The transition trace (R21): what `transitionsFrom` removes and keeps (O51). -/

namespace Sys2Proof.Machine

open Sys2Proof

/-- Driving a line to the level it has changes no level. -/
theorem Lines.put_get {α : Type} (v : Lines α) (l : Line) : v.put l (v.get l) = v := by
  cases l <;> rfl

theorem transitionsFrom_set_same {lv : Lines Level} {l : Line} {b : Bool} (h : lv.get l = Level.ofBool b)
    (es : List Event) : transitionsFrom lv (.set l b :: es) = transitionsFrom lv es := if_pos h

theorem transitionsFrom_set_change {lv : Lines Level} {l : Line} {b : Bool} (h : lv.get l ≠ Level.ofBool b)
    (es : List Event) :
    transitionsFrom lv (.set l b :: es) = .set l b :: transitionsFrom (levelsAfter lv (.set l b)) es := if_neg h

/-- A Set that repeats its line's level leaves the levels. -/
theorem levelsAfter_set_same {lv : Lines Level} {l : Line} {b : Bool} (h : lv.get l = Level.ofBool b) :
    levelsAfter lv (.set l b) = lv := by
  rw [levelsAfter, ← h, Lines.put_get]

theorem transitionsFrom_append (lv : Lines Level) (es es' : List Event) :
    transitionsFrom lv (es ++ es') = transitionsFrom lv es ++ transitionsFrom (es.foldl levelsAfter lv) es' := by
  induction es generalizing lv with
  | nil => rfl
  | cons e es ih =>
    cases e with
    | cfg l => exact ih lv
    | set l b =>
      by_cases h : lv.get l = Level.ofBool b
      · simp only [List.cons_append, transitionsFrom_set_same h, List.foldl_cons, levelsAfter_set_same h, ih]
      · simp only [List.cons_append, transitionsFrom_set_change h, List.foldl_cons, ih]

theorem foldl_levelsAfter_transitionsFrom (lv : Lines Level) (es : List Event) :
    (transitionsFrom lv es).foldl levelsAfter lv = es.foldl levelsAfter lv := by
  induction es generalizing lv with
  | nil => rfl
  | cons e es ih =>
    cases e with
    | cfg l => exact ih lv
    | set l b =>
      by_cases h : lv.get l = Level.ofBool b
      · simp only [transitionsFrom_set_same h, List.foldl_cons, levelsAfter_set_same h, ih]
      · simp only [transitionsFrom_set_change h, List.foldl_cons, ih]

theorem transitionsFrom_transitionsFrom (lv : Lines Level) (es : List Event) :
    transitionsFrom lv (transitionsFrom lv es) = transitionsFrom lv es := by
  induction es generalizing lv with
  | nil => rfl
  | cons e es ih =>
    cases e with
    | cfg l => exact ih lv
    | set l b =>
      by_cases h : lv.get l = Level.ofBool b
      · simp only [transitionsFrom_set_same h, ih]
      · simp only [transitionsFrom_set_change h, ih]

theorem transitionsFrom_sublist (lv : Lines Level) (es : List Event) : (transitionsFrom lv es).Sublist es := by
  induction es generalizing lv with
  | nil => exact .slnil
  | cons e es ih =>
    cases e with
    | cfg l => exact (ih lv).cons _
    | set l b =>
      by_cases h : lv.get l = Level.ofBool b
      · rw [transitionsFrom_set_same h]
        exact (ih lv).cons _
      · rw [transitionsFrom_set_change h]
        exact (ih _).cons_cons _

/-- Settles O51: each clause is an induction over the events, split by whether a Set repeats its line's level. -/
theorem transitionsKeepTheWaveform : Obligations.TransitionsKeepTheWaveform := fun lv es =>
  ⟨fun _ => rfl, fun _ _ => rfl, transitionsFrom_append lv es, foldl_levelsAfter_transitionsFrom lv es,
    transitionsFrom_transitionsFrom lv es, transitionsFrom_sublist lv es⟩

end Sys2Proof.Machine
end

