-- ==== Sys2Proof/Proofs/ResetState.lean ====
section
/-! PROOFS. The state after reset meets the invariants (O47). -/

namespace Sys2Proof.Machine

open Sys2Proof

theorem reset_wf : State.reset.wf := by decide

/-- Before INIT the machine invariant is well-formedness. -/
theorem State.inv_of_not_inited {s : State} (hw : s.wf) (hi : s.inited = false) : s.Inv :=
  ⟨hw, fun h => absurd (h.symm.trans hi) (by decide)⟩

theorem reset_inv : State.reset.Inv := State.inv_of_not_inited reset_wf rfl

/-- Settles O47: no operation is pending, the trace is empty and INIT has not completed. -/
theorem resetMeetsTheInvariants : Obligations.ResetMeetsTheInvariants :=
  ⟨reset_inv, ⟨reset_inv, rfl, nofun⟩, rfl, rfl, rfl, nofun⟩

end Sys2Proof.Machine
end

