-- ==== Sys2Proof/Proofs/Cells.lean ====
section
/-! PROOFS. The bits of a cell (R14), the cell updater (R75, R76), the mapper's ranges (R73 to R75, R84) and the frame
buffer after PLOT, CLEAR and INIT's fill (R82, R109). From it O20. -/

namespace Sys2Proof.Config

variable {c : Config}

/-! ### The derived constants are positive (R7) -/

theorem cw_pos (hw : c.wf = true) : 0 < c.cw := by
  obtain ⟨hpos, -⟩ := wf_positive hw
  rw [w_eq hw] at hpos
  exact Nat.pos_of_mul_pos_right hpos

theorem chh_pos (hw : c.wf = true) : 0 < c.chh := by
  obtain ⟨-, hpos, -⟩ := wf_positive hw
  rw [h_eq hw] at hpos
  exact Nat.pos_of_mul_pos_right hpos

theorem cpc_pos (hw : c.wf = true) : 0 < c.cpc := by
  have hpos := chh_pos hw
  rw [chh_eq hw] at hpos
  exact Nat.pos_of_mul_pos_right hpos

theorem band_pos (hw : c.wf = true) : 0 < c.band := by
  rw [band_eq hw]
  exact Nat.mul_pos (cw_pos hw) (cpc_pos hw)

theorem leds_pos (hw : c.wf = true) : 0 < c.ledsPerCell := by
  obtain ⟨-, -, -, -, -, hl⟩ := wf_positive hw
  exact hl

/-- Every cell address fits the address field (R7). -/
theorem cells_le_two_pow (hw : c.wf = true) : c.cells ≤ 2 ^ c.addrBits := by
  obtain ⟨-, -, -, haddr, -⟩ := wf_parts hw
  exact of_decide_eq_true haddr

theorem cells_eq_colors_band (hw : c.wf = true) : c.cells = c.colors * c.band := by
  rw [cells_eq hw, band_eq hw, Nat.mul_comm]

end Sys2Proof.Config

namespace Sys2Proof.Machine

open Sys2Proof

/-! ### The bits of a cell (R14) -/

section CellBits

variable {c : Config}

/-- The unused bits of a cell are 0 (R14): what `State.unusedBitsZero` says of each cell. -/
def UnusedZero (c : Config) (v : Byte) : Prop := v &&& ~~~(c.dataMask ||| Config.modFlag) = 0#8

theorem getLsbD_dataMask (hl : c.ledsPerCell ≤ 7) (i : Nat) : c.dataMask.getLsbD i = decide (i < c.ledsPerCell) := by
  rw [Config.dataMask, BitVec.getLsbD_ofNat, Nat.testBit_two_pow_sub_one]
  rcases Nat.lt_or_ge i c.ledsPerCell with h | h
  · simp [h, show i < 8 by omega]
  · simp [Nat.not_lt.2 h]

theorem toNat_cellData (hl : c.ledsPerCell ≤ 7) (v : Byte) : (cellData c v).toNat = v.toNat % 2 ^ c.ledsPerCell := by
  have hpow : 2 ^ c.ledsPerCell ≤ 2 ^ 7 := Nat.pow_le_pow_right (by omega) hl
  rw [cellData, Config.dataMask, BitVec.toNat_and, BitVec.toNat_ofNat, Nat.mod_eq_of_lt (by omega),
    Nat.and_two_pow_sub_one_eq_mod]

theorem toNat_cellData_lt (hl : c.ledsPerCell ≤ 7) (v : Byte) : (cellData c v).toNat < 2 ^ c.ledsPerCell := by
  rw [toNat_cellData hl]
  exact Nat.mod_lt _ (by positivity)

/-- A number of LEDS_PER_CELL bits is all data. -/
theorem cellData_ofNat (hl : c.ledsPerCell ≤ 7) {d : Nat} (hd : d < 2 ^ c.ledsPerCell) :
    cellData c (BitVec.ofNat 8 d) = BitVec.ofNat 8 d := by
  have hpow : 2 ^ c.ledsPerCell ≤ 2 ^ 7 := Nat.pow_le_pow_right (by omega) hl
  apply BitVec.eq_of_toNat_eq
  rw [toNat_cellData hl, BitVec.toNat_ofNat, Nat.mod_eq_of_lt (show d < 2 ^ 8 by omega), Nat.mod_eq_of_lt hd]

@[simp] theorem cellData_cellData (v : Byte) : cellData c (cellData c v) = cellData c v := by
  simp only [cellData, BitVec.and_assoc, BitVec.and_self]

/-- A cell whose data is not 0 has a lit LED. -/
theorem exists_getLsbD_of_cellData_ne_zero (hl : c.ledsPerCell ≤ 7) {v : Byte} (h : cellData c v ≠ 0#8) :
    ∃ b < c.ledsPerCell, v.getLsbD b = true := by
  by_contra hno
  push Not at hno
  refine h (BitVec.eq_of_getLsbD_eq fun i _ => ?_)
  rw [cellData, BitVec.getLsbD_and, getLsbD_dataMask hl, BitVec.getLsbD_zero]
  by_cases hi : i < c.ledsPerCell
  · simp [hno i hi]
  · simp [hi]

theorem dataMask_and_modFlag (hl : c.ledsPerCell ≤ 7) : Config.modFlag &&& c.dataMask = 0#8 := by
  have hall : ∀ n ≤ 7, Config.modFlag &&& BitVec.ofNat 8 (2 ^ n - 1) = 0#8 := by decide
  exact hall _ hl

theorem cellData_or_modFlag (hl : c.ledsPerCell ≤ 7) (v : Byte) :
    cellData c (v ||| Config.modFlag) = cellData c v := by
  have h0 := dataMask_and_modFlag hl
  simp only [cellData, BitVec.and_or_distrib_right, h0, BitVec.or_zero]

@[simp] theorem modified_or_modFlag (v : Byte) : modified (v ||| Config.modFlag) = true := by
  rw [modified, BitVec.msb_or, show Config.modFlag.msb = true from rfl, Bool.or_true]

theorem modified_cellData (hl : c.ledsPerCell ≤ 7) (v : Byte) : modified (cellData c v) = false := by
  rw [modified, cellData, BitVec.msb_and, BitVec.msb_eq_getLsbD_last c.dataMask, getLsbD_dataMask hl,
    decide_eq_false (by omega), Bool.and_false]

theorem unusedZero_cellData (v : Byte) : UnusedZero c (cellData c v) := by
  have hmask : c.dataMask &&& ~~~c.dataMask = 0#8 := BitVec.and_not_self _
  rw [UnusedZero, cellData, BitVec.not_or, ← BitVec.and_assoc, BitVec.and_assoc v, hmask, BitVec.and_zero,
    BitVec.zero_and]

theorem unusedZero_or_modFlag {v : Byte} (hv : cellData c v = v) : UnusedZero c (v ||| Config.modFlag) := by
  have hdata : v &&& ~~~(c.dataMask ||| Config.modFlag) = 0#8 := by
    rw [← hv]
    exact unusedZero_cellData v
  have hflag : Config.modFlag &&& ~~~Config.modFlag = 0#8 := BitVec.and_not_self _
  rw [UnusedZero, BitVec.and_or_distrib_right, hdata, BitVec.zero_or, BitVec.not_or, BitVec.and_comm (~~~c.dataMask),
    ← BitVec.and_assoc, hflag, BitVec.zero_and]

/-! ### The cell updater (R75, R76) -/

theorem bitPosition_lt (h0 : 0 < c.ledsPerCell) (y : Nat) : bitPosition c y < c.ledsPerCell := by
  unfold bitPosition
  omega

theorem getLsbD_bitMask (hl : c.ledsPerCell ≤ 7) (h0 : 0 < c.ledsPerCell) (y i : Nat) :
    (bitMask c y).getLsbD i = decide (i = bitPosition c y) := by
  have hall : ∀ b < 8, ∀ i < 8, ((1#8 <<< b : Byte)).getLsbD i = decide (i = b) := by decide
  have hb := bitPosition_lt h0 y
  rcases Nat.lt_or_ge i 8 with h | h
  · exact hall _ (by omega) i h
  · rw [BitVec.getLsbD_of_ge _ _ h, decide_eq_false (by omega)]

/-- The pixel's bit is one of the data bits. -/
theorem cellData_bitMask (hw : c.wf = true) (y : Nat) : cellData c (bitMask c y) = bitMask c y := by
  have hl := Config.wf_leds hw
  have h0 := Config.leds_pos hw
  apply BitVec.eq_of_getLsbD_eq
  intro i _
  have hb := bitPosition_lt h0 y
  rw [cellData, BitVec.getLsbD_and, getLsbD_dataMask hl, getLsbD_bitMask hl h0]
  by_cases hi : i = bitPosition c y
  · simp [hi, hb]
  · simp [hi]

/-- What a channel of a PLOT stores is all data. -/
theorem cellData_plottedData {mask : Byte} (hmask : cellData c mask = mask) (old : Byte) (lit : Bool) :
    cellData c (plottedData c old mask lit) = plottedData c old mask lit := by
  cases lit with
  | true =>
    simp only [plottedData, if_true]
    rw [cellData, BitVec.and_or_distrib_right]
    exact congrArg₂ (· ||| ·) (cellData_cellData old) hmask
  | false => simp [plottedData, cellData, BitVec.and_assoc]

/-- The updater leaves a cell, or sets its flag over data that differs (R76). -/
theorem updatedCell_cases (old v : Byte) :
    (cellData c old = v ∧ updatedCell c old v = old)
      ∨ (cellData c old ≠ v ∧ updatedCell c old v = v ||| Config.modFlag) := by
  unfold updatedCell
  split
  · exact .inl ⟨‹_›, rfl⟩
  · exact .inr ⟨‹_›, rfl⟩

theorem plottedCell_eq_or_marked (hl : c.ledsPerCell ≤ 7) {mask : Byte} (hmask : cellData c mask = mask) (lit : Bool)
    (old : Byte) :
    plottedCell c mask lit old = old
      ∨ (modified (plottedCell c mask lit old) = true ∧ cellData c (plottedCell c mask lit old) ≠ cellData c old) := by
  rcases updatedCell_cases (c := c) old (plottedData c old mask lit) with ⟨-, hu⟩ | ⟨hne, hu⟩
  · exact .inl hu
  · refine .inr ?_
    rw [plottedCell, hu, cellData_or_modFlag hl, cellData_plottedData hmask]
    exact ⟨modified_or_modFlag _, hne.symm⟩

/-- The cell is as it was, or its flag is set over data that is less: what PLOTs of OFF can make of a cell. -/
def Darkened (c : Config) (old new : Byte) : Prop :=
  new = old ∨ (modified new = true ∧ (cellData c new).toNat < (cellData c old).toNat)

theorem Darkened.trans {u v w : Byte} (h : Darkened c u v) (h' : Darkened c v w) : Darkened c u w := by
  rcases h with rfl | ⟨hm, hlt⟩
  · exact h'
  · rcases h' with rfl | ⟨hm', hlt'⟩
    · exact .inr ⟨hm, hlt⟩
    · exact .inr ⟨hm', hlt'.trans hlt⟩

/-- Darkening a cell keeps a set flag. -/
theorem Darkened.modified {old new : Byte} (h : Darkened c old new) (hf : modified old = true) :
    modified new = true := by
  rcases h with rfl | ⟨hm, -⟩
  · exact hf
  · exact hm

/-- A PLOT of OFF can only clear data bits. -/
theorem darkened_plottedCell (hl : c.ledsPerCell ≤ 7) {mask : Byte} (hmask : cellData c mask = mask) (old : Byte) :
    Darkened c old (plottedCell c mask false old) := by
  rcases plottedCell_eq_or_marked hl hmask false old with h | ⟨hm, hne⟩
  · exact .inl h
  · refine .inr ⟨hm, lt_of_le_of_ne ?_ fun h => hne (BitVec.eq_of_toNat_eq h)⟩
    rcases updatedCell_cases (c := c) old (plottedData c old mask false) with ⟨-, hu⟩ | ⟨-, hu⟩
    · rw [plottedCell, hu]
    · rw [plottedCell, hu, cellData_or_modFlag hl, cellData_plottedData hmask]
      simp only [plottedData, Bool.false_eq_true, if_false, BitVec.toNat_and]
      exact Nat.and_le_left.trans Nat.and_le_left

/-- A PLOT of OFF on a lit data bit sets the flag. -/
theorem modified_plottedCell_of_lit (hl : c.ledsPerCell ≤ 7) (h0 : 0 < c.ledsPerCell) {y : Nat} {old : Byte}
    (hlit : old.getLsbD (bitPosition c y) = true) : modified (plottedCell c (bitMask c y) false old) = true := by
  rcases updatedCell_cases (c := c) old (plottedData c old (bitMask c y) false) with ⟨heq, -⟩ | ⟨-, hu⟩
  · exfalso
    have hb := bitPosition_lt h0 y
    have hbit := congrArg (BitVec.getLsbD · (bitPosition c y)) heq
    simp [cellData, plottedData, getLsbD_dataMask hl, getLsbD_bitMask hl h0, hlit, hb] at hbit
  · rw [plottedCell, hu]
    exact modified_or_modFlag _

end CellBits

/-! ### The mapper's ranges (R73 to R75, R84) -/

section Mapper

variable {c : Config}

/-- Every pixel's base address is one of a colour band. -/
theorem baseAddress_lt_band (hw : c.wf = true) (x y : Nat) : baseAddress c x y < c.band := by
  have hlx : x % c.cw < c.cw := Nat.mod_lt _ (Config.cw_pos hw)
  have hly : y % c.chh / c.ledsPerCell < c.cpc := by
    rw [Nat.div_lt_iff_lt_mul (Config.leds_pos hw), ← Config.chh_eq hw]
    exact Nat.mod_lt _ (Config.chh_pos hw)
  rw [Config.band_eq hw]
  exact digit_lt hlx hly

theorem channelAddress_lt_cells (hw : c.wf = true) {base ch : Nat} (hb : base < c.band) (hch : ch < c.colors) :
    channelAddress c base ch < c.cells := by
  rw [Config.cells_eq_colors_band hw, channelAddress, Nat.add_comm]
  exact digit_lt hch hb

/-- An in-panel pixel's chip is one of the chips. -/
theorem chipIndex_lt (hw : c.wf = true) {x y : Nat} (hx : x < c.w) (hy : y < c.h) : chipIndex c x y < c.chips := by
  have hcx : x / c.cw < c.chipsX := by
    rw [Nat.div_lt_iff_lt_mul (Config.cw_pos hw), Nat.mul_comm, ← Config.w_eq hw]
    exact hx
  have hcy : y / c.chh < c.chipsY := by
    rw [Nat.div_lt_iff_lt_mul (Config.chh_pos hw), Nat.mul_comm, ← Config.h_eq hw]
    exact hy
  have h := digit_lt hcy hcx
  rw [chipIndex, Config.chips, Nat.add_comm, Nat.mul_comm c.chipsX, Nat.mul_comm c.chipsX]
  exact h

theorem cellKey_lt_size {a chip : Nat} (ha : a < c.cells) (hchip : chip < c.chips) : cellKey c a chip < c.size :=
  digit_lt ha hchip

/-- A cell's key names its address and its chip. -/
theorem cellKey_inj {a a' chip chip' : Nat} (hchip : chip < c.chips) (hchip' : chip' < c.chips)
    (h : cellKey c a chip = cellKey c a' chip') : a = a' ∧ chip = chip' := by
  have hpos : 0 < c.chips := by omega
  unfold cellKey at h
  constructor
  · have hdiv := congrArg (· / c.chips) h
    simpa [Nat.mul_comm _ c.chips, Nat.mul_add_div hpos, Nat.div_eq_of_lt hchip, Nat.div_eq_of_lt hchip'] using hdiv
  · have hmod := congrArg (· % c.chips) h
    simpa [Nat.mul_comm _ c.chips, Nat.mul_add_mod, Nat.mod_eq_of_lt hchip, Nat.mod_eq_of_lt hchip'] using hmod

/-- Every key in range is a cell's. -/
theorem exists_cellKey_eq {key : Nat} (hk : key < c.size) :
    ∃ a < c.cells, ∃ chip < c.chips, cellKey c a chip = key := by
  have hpos : 0 < c.chips := Nat.pos_of_mul_pos_left (Nat.zero_lt_of_lt hk)
  exact ⟨key / c.chips, (Nat.div_lt_iff_lt_mul hpos).2 hk, key % c.chips, Nat.mod_lt _ hpos, Nat.div_add_mod' _ _⟩

/-- Every data bit of every cell is some in-panel pixel's (R80). -/
theorem exists_pixel (hw : c.wf = true) {a chip b : Nat} (ha : a < c.cells) (hchip : chip < c.chips)
    (hb : b < c.ledsPerCell) :
    ∃ x < c.w, ∃ y < c.h, ∃ ch < c.colors,
      channelAddress c (baseAddress c x y) ch = a ∧ chipIndex c x y = chip ∧ bitPosition c y = b := by
  obtain ⟨-, -, hcx, -, -, -⟩ := Config.wf_positive hw
  have hband := Config.band_pos hw
  have hcpc := Config.cpc_pos hw
  -- the pixel's place in its chip's region
  have hlx : a % c.band / c.cpc < c.cw := by
    rw [Nat.div_lt_iff_lt_mul hcpc, ← Config.band_eq hw]
    exact Nat.mod_lt _ hband
  have hly : a % c.band % c.cpc * c.ledsPerCell + (c.ledsPerCell - 1 - b) < c.chh := by
    rw [Config.chh_eq hw]
    exact digit_lt (Nat.mod_lt _ hcpc) (by omega)
  have hch : a / c.band < c.colors := by
    rw [Nat.div_lt_iff_lt_mul hband, ← Config.cells_eq_colors_band hw]
    exact ha
  have hrow : chip / c.chipsX < c.chipsY := by
    rw [Nat.div_lt_iff_lt_mul hcx, Nat.mul_comm]
    exact hchip
  generalize hlxe : a % c.band / c.cpc = lx at hlx
  generalize hlye : a % c.band % c.cpc * c.ledsPerCell + (c.ledsPerCell - 1 - b) = ly at hly
  refine ⟨chip % c.chipsX * c.cw + lx, ?_, chip / c.chipsX * c.chh + ly, ?_, a / c.band, hch, ?_, ?_, ?_⟩
  · rw [Config.w_eq hw, Nat.mul_comm c.cw]
    exact digit_lt (Nat.mod_lt _ hcx) hlx
  · rw [Config.h_eq hw, Nat.mul_comm c.chh]
    exact digit_lt hrow hly
  · have hdiv : ly / c.ledsPerCell = a % c.band % c.cpc := by
      rw [← hlye, Nat.mul_comm, Nat.mul_add_div (by omega), Nat.div_eq_of_lt (by omega), Nat.add_zero]
    rw [channelAddress, baseAddress, Nat.mul_add_mod', Nat.mod_eq_of_lt hlx, Nat.mul_add_mod', Nat.mod_eq_of_lt hly,
      hdiv, ← hlxe, Nat.div_add_mod', Nat.add_comm, Nat.div_add_mod']
  · rw [chipIndex, Nat.mul_comm _ c.cw, Nat.mul_add_div (Config.cw_pos hw), Nat.div_eq_of_lt hlx, Nat.mul_comm _ c.chh,
      Nat.mul_add_div (Config.chh_pos hw), Nat.div_eq_of_lt hly, Nat.add_zero, Nat.add_zero, Nat.mod_add_div]
  · have hmod : (chip / c.chipsX * c.chh + ly) % c.ledsPerCell = c.ledsPerCell - 1 - b := by
      rw [← hlye, Config.chh_eq hw, ← Nat.mul_assoc, ← Nat.add_assoc, ← Nat.add_mul, Nat.mul_add_mod',
        Nat.mod_eq_of_lt (by omega)]
    rw [bitPosition, hmod]
    omega

end Mapper

/-! ### The cell updater on a frame buffer -/

section Buffers

variable {c : Config} {m : Memory} {key : Nat}

/-- Some element of the list brings the property about, and every one keeps it. -/
theorem foldl_reaches {α β : Type} {P Q : β → Prop} {f : β → α → β} {l : List α} {x : α} (hx : x ∈ l)
    (hP : ∀ b, ∀ y ∈ l, P b → P (f b y)) (hQ : ∀ b, ∀ y ∈ l, Q b → Q (f b y)) (hPQ : ∀ b, P b → Q (f b x)) {b : β}
    (hb : P b) : Q (l.foldl f b) := by
  induction l generalizing b with
  | nil => cases hx
  | cons y l ih =>
    rw [List.foldl_cons]
    rcases List.mem_cons.1 hx with rfl | hx
    · exact List.foldlRecOn l f (hPQ b hb) fun b hb y hy => hQ b y (List.mem_cons_of_mem _ hy) hb
    · exact ih hx (fun b z hz => hP b z (List.mem_cons_of_mem _ hz)) (fun b z hz => hQ b z (List.mem_cons_of_mem _ hz))
        (hP b y List.mem_cons_self hb)

/-- The key of the cell that channel `ch` of a PLOT at (x, y) updates (R75). -/
abbrev plotKey (c : Config) (x y ch : Nat) : Nat :=
  cellKey c (channelAddress c (baseAddress c x y) ch) (chipIndex c x y)

/-- What a PLOT's channel stores is at its key, all data under the flag. -/
theorem mem_plotChannel {mask : Byte} (hmask : cellData c mask = mask) {lit : Bool} {p : Host.Cell}
    (h : p ∈ plotChannel c key mask lit m) : p ∈ m ∨ (p.1 = key ∧ UnusedZero c p.2) := by
  unfold plotChannel cellUpdate at h
  split at h
  · exact .inl h
  · rcases Memory.mem_write h with rfl | h
    · exact .inr ⟨rfl, unusedZero_or_modFlag (cellData_plottedData hmask _ _)⟩
    · exact .inl h

/-- The keys of a PLOT's channels differ. -/
theorem channelKey_inj (hw : c.wf = true) {base chip ch ch' : Nat}
    (h : cellKey c (channelAddress c base ch) chip = cellKey c (channelAddress c base ch') chip) : ch = ch' := by
  unfold cellKey channelAddress at h
  have h := Nat.eq_of_mul_eq_mul_right (Config.chips_pos hw) (Nat.add_right_cancel h)
  exact Nat.eq_of_mul_eq_mul_right (Config.band_pos hw) (Nat.add_left_cancel h)

/-- The first `n` channels of a PLOT, read by read (R75). -/
theorem read_foldl_plotChannel (hw : c.wf = true) (base chip : Nat) (mask : Byte) (color n : Nat) (hm : Memory.wf m) :
    let after := (List.range n).foldl
      (fun m ch => plotChannel c (cellKey c (channelAddress c base ch) chip) mask (channelLit color ch) m) m
    Memory.wf after
      ∧ (∀ ch < n, Memory.read after (cellKey c (channelAddress c base ch) chip)
          = plottedCell c mask (channelLit color ch) (Memory.read m (cellKey c (channelAddress c base ch) chip)))
      ∧ ∀ key, (∀ ch < n, key ≠ cellKey c (channelAddress c base ch) chip) →
          Memory.read after key = Memory.read m key := by
  induction n with
  | zero => exact ⟨hm, by omega, fun _ _ => rfl⟩
  | succ n ih =>
    obtain ⟨hwf, hin, hout⟩ := ih
    rw [List.range_succ, List.foldl_concat]
    refine ⟨plotChannel_wf hwf, fun ch hch => ?_, fun key hkey => ?_⟩
    · rw [read_plotChannel hwf]
      by_cases heq : ch = n
      · subst heq
        rw [if_pos rfl, hout _ fun ch' hch' h => absurd (channelKey_inj hw h) (by omega)]
      · rw [if_neg fun h => heq (channelKey_inj hw h), hin ch (by omega)]
    · rw [read_plotChannel hwf, if_neg (hkey n (by omega)), hout key fun ch hch => hkey ch (by omega)]

/-- A PLOT that names cells, at the key of one of its channels (R75, R76). -/
theorem read_plotPixel_channel (hw : c.wf = true) (hm : Memory.wf m) (x y color : Nat) {ch : Nat}
    (hch : ch < c.colors) :
    Memory.read (plotPixel c x y color m) (plotKey c x y ch)
      = plottedCell c (bitMask c y) (channelLit color ch)
          (Memory.read m (plotKey c x y ch)) :=
  (read_foldl_plotChannel hw _ _ _ _ _ hm).2.1 ch hch

/-- A PLOT that names cells leaves every other key (R75). -/
theorem read_plotPixel_other (hw : c.wf = true) (hm : Memory.wf m) {x y color : Nat}
    (hkey : ∀ ch < c.colors, key ≠ plotKey c x y ch) :
    Memory.read (plotPixel c x y color m) key = Memory.read m key :=
  (read_foldl_plotChannel hw _ _ _ _ _ hm).2.2 key hkey

/-- The keys of a PLOT that names cells are in range (R78, R84). -/
theorem plotKey_lt_size (hw : c.wf = true) {x y : Nat}
    (h : chipIndex c x y < c.chips ∨ lastLinearIndex c x y < c.size) {ch : Nat} (hch : ch < c.colors) :
    plotKey c x y ch < c.size := by
  rcases h with h | h
  · exact cellKey_lt_size (channelAddress_lt_cells hw (baseAddress_lt_band hw x y) hch) h
  · refine lt_of_le_of_lt ?_ h
    unfold lastLinearIndex plotKey cellKey channelAddress
    gcongr
    omega

theorem plotPixel_below (hw : c.wf = true) {n x y color : Nat}
    (hkey : ∀ ch < c.colors, plotKey c x y ch < n)
    (hm : Memory.below n m) : Memory.below n (plotPixel c x y color m) := by
  refine Memory.foldl_keeps _ (fun m ch hch h p hp => ?_) hm
  rcases mem_plotChannel (cellData_bitMask hw y) hp with hp | ⟨hk, -⟩
  · exact h p hp
  · exact hk ▸ hkey ch (List.mem_range.1 hch)

/-- A PLOT keeps the unused bits at 0 (R16 (a)). -/
theorem plotPixel_unusedZero (hw : c.wf = true) {x y color : Nat} (hm : ∀ p ∈ m, UnusedZero c p.2) :
    ∀ p ∈ plotPixel c x y color m, UnusedZero c p.2 := by
  refine Memory.foldl_keeps (P := fun m => ∀ p ∈ m, UnusedZero c p.2) _ (fun m ch _ h p hp => ?_) hm
  rcases mem_plotChannel (cellData_bitMask hw y) hp with hp | ⟨-, hu⟩
  · exact h p hp
  · exact hu

/-! ### CLEAR (R82) -/

theorem mem_panelPixels {x y : Nat} : (x, y) ∈ panelPixels c ↔ x < c.w ∧ y < c.h := by
  simp [panelPixels]

theorem clearBuffer_below (hw : c.wf = true) (hm : Memory.below c.size m) : Memory.below c.size (clearBuffer c m) := by
  refine Memory.foldl_keeps _ (fun m p hp h => ?_) hm
  obtain ⟨hx, hy⟩ := mem_panelPixels.1 hp
  exact plotPixel_below hw (fun ch hch => plotKey_lt_size hw (.inl (chipIndex_lt hw hx hy)) hch) h

theorem clearBuffer_unusedZero (hw : c.wf = true) (hm : ∀ p ∈ m, UnusedZero c p.2) :
    ∀ p ∈ clearBuffer c m, UnusedZero c p.2 :=
  Memory.foldl_keeps (P := fun m => ∀ p ∈ m, UnusedZero c p.2) _ (fun _ _ _ h => plotPixel_unusedZero hw h) hm

/-- The single cell updates of CLEAR, in order: the key of a pixel's channel, and the pixel's y. -/
def clearUpdates (c : Config) : List (Nat × Nat) :=
  (panelPixels c).flatMap fun p =>
    (List.range c.colors).map fun ch => (plotKey c p.1 p.2 ch, p.2)

theorem clearBuffer_eq (c : Config) (m : Memory) :
    clearBuffer c m = (clearUpdates c).foldl (fun m u => plotChannel c u.1 (bitMask c u.2) false m) m := by
  simp only [clearBuffer, plotPixel, plotChannels, clearUpdates, List.foldl_flatMap, List.foldl_map, channelLit,
    colorOff, Nat.zero_testBit]

/-- Every data bit of every cell in range is cleared by one of CLEAR's updates (R80). -/
theorem exists_mem_clearUpdates (hw : c.wf = true) (hk : key < c.size) {b : Nat} (hb : b < c.ledsPerCell) :
    ∃ y, (key, y) ∈ clearUpdates c ∧ bitPosition c y = b := by
  obtain ⟨a, ha, chip, hchip, rfl⟩ := exists_cellKey_eq hk
  obtain ⟨x, hx, y, hy, ch, hch, rfl, rfl, hpos⟩ := exists_pixel hw ha hchip hb
  refine ⟨y, List.mem_flatMap.2 ⟨(x, y), mem_panelPixels.2 ⟨hx, hy⟩, List.mem_map.2 ⟨ch, List.mem_range.2 hch, rfl⟩⟩,
    hpos⟩

/-- One update of CLEAR, at any key. -/
theorem darkened_plotChannel (hw : c.wf = true) (hm : Memory.wf m) (k y key : Nat) :
    Darkened c (Memory.read m key) (Memory.read (plotChannel c k (bitMask c y) false m) key) := by
  rw [read_plotChannel hm]
  split
  case isTrue hk =>
    subst hk
    exact darkened_plottedCell (Config.wf_leds hw) (cellData_bitMask hw y) _
  case isFalse => exact .inl rfl

/-- CLEAR leaves every key as it was, or flagged over data that is less (R15, R83). -/
theorem darkened_clearBuffer (hw : c.wf = true) (hm : Memory.wf m) (key : Nat) :
    Darkened c (Memory.read m key) (Memory.read (clearBuffer c m) key) := by
  rw [clearBuffer_eq]
  exact (Memory.foldl_keeps (P := fun m' => Memory.wf m' ∧ Darkened c (Memory.read m key) (Memory.read m' key)) _
    (fun m' u _ ⟨hwf, hd⟩ => ⟨plotChannel_wf hwf, hd.trans (darkened_plotChannel hw hwf u.1 u.2 key)⟩)
    ⟨hm, .inl rfl⟩).2

/-- CLEAR flags every cell that holds a lit LED: a pixel of the panel darkens it. -/
theorem modified_clearBuffer_of_lit (hw : c.wf = true) (hm : Memory.wf m) (hk : key < c.size)
    (hlit : cellData c (Memory.read m key) ≠ 0#8) : modified (Memory.read (clearBuffer c m) key) = true := by
  have hl := Config.wf_leds hw
  have h0 := Config.leds_pos hw
  obtain ⟨b, hb, hbit⟩ := exists_getLsbD_of_cellData_ne_zero hl hlit
  obtain ⟨y, hmem, rfl⟩ := exists_mem_clearUpdates hw hk hb
  rw [clearBuffer_eq]
  refine (foldl_reaches (P := fun m' => Memory.wf m' ∧ Darkened c (Memory.read m key) (Memory.read m' key))
    (Q := fun m' => Memory.wf m' ∧ modified (Memory.read m' key) = true) hmem
    (fun m' u _ ⟨hwf, hd⟩ => ⟨plotChannel_wf hwf, hd.trans (darkened_plotChannel hw hwf u.1 u.2 key)⟩)
    (fun m' u _ ⟨hwf, hf⟩ => ⟨plotChannel_wf hwf, (darkened_plotChannel hw hwf u.1 u.2 key).modified hf⟩)
    (fun m' ⟨hwf, hd⟩ => ⟨plotChannel_wf hwf, ?_⟩) ⟨hm, .inl rfl⟩).2
  rcases hd with hsame | ⟨hf, -⟩
  · rw [read_plotChannel hwf, if_pos rfl, hsame]
    exact modified_plottedCell_of_lit hl h0 hbit
  · exact (darkened_plotChannel hw hwf key y key).modified hf

/-! ### INIT's fill (R109) -/

theorem filledBuffer_below (hm : Memory.below c.size m) : Memory.below c.size (filledBuffer c m) :=
  Memory.foldl_keeps _ (fun _ _ ha h => Memory.foldl_keeps _ (fun _ _ hchip h' =>
    Memory.write_below _ (cellKey_lt_size (List.mem_range.1 ha) (List.mem_range.1 hchip)) h') h) hm

/-- The single cell writes of INIT's fill, in order. -/
def fillKeys (c : Config) : List Nat :=
  (List.range c.cells).flatMap fun a => (List.range c.chips).map fun chip => cellKey c a chip

theorem filledBuffer_eq (c : Config) (m : Memory) :
    filledBuffer c m = (fillKeys c).foldl (fun m key => Memory.write key c.sentinel m) m := by
  simp only [filledBuffer, fillKeys, List.foldl_flatMap, List.foldl_map]

theorem mem_fillKeys (hk : key < c.size) : key ∈ fillKeys c := by
  obtain ⟨a, ha, chip, hchip, rfl⟩ := exists_cellKey_eq hk
  exact List.mem_flatMap.2 ⟨a, List.mem_range.2 ha, List.mem_map.2 ⟨chip, List.mem_range.2 hchip, rfl⟩⟩

/-- The fill gives every cell SENTINEL. -/
theorem read_filledBuffer (hm : Memory.wf m) (hk : key < c.size) : Memory.read (filledBuffer c m) key = c.sentinel := by
  rw [filledBuffer_eq]
  refine (foldl_reaches (f := fun m k => Memory.write k c.sentinel m) (P := Memory.wf)
    (Q := fun m => Memory.wf m ∧ Memory.read m key = c.sentinel) (mem_fillKeys hk)
    (fun _ _ _ h => Memory.write_wf _ _ h) (fun m k _ ⟨hwf, hr⟩ => ⟨Memory.write_wf _ _ hwf, ?_⟩)
    (fun m hwf => ⟨Memory.write_wf _ _ hwf, Memory.read_write_same _ _ hwf⟩) hm).2
  rw [Memory.read_write _ _ _ hwf, hr, ite_self]

/-- After INIT's fill and CLEAR every cell counts as changed, whatever admissible SENTINEL is (R109, R111). -/
theorem modified_clearBuffer_filledBuffer (hw : c.wf = true) (hm : Memory.wf m) (hk : key < c.size) :
    modified (Memory.read (clearBuffer c (filledBuffer c m)) key) = true := by
  have hread := read_filledBuffer hm hk
  have hwf := filledBuffer_wf (c := c) hm
  obtain ⟨-, -, -, -, -, hadm⟩ := Config.wf_parts hw
  rw [Config.sentinelAdmissible, Bool.or_eq_true, decide_eq_true_iff] at hadm
  rcases hadm with hflag | hlit
  · refine (darkened_clearBuffer hw hwf key).modified ?_
    rw [hread]
    exact hflag
  · refine modified_clearBuffer_of_lit hw hwf hk ?_
    rw [hread]
    exact hlit

end Buffers

/-! ### The statement of the family -/

/-- A PLOT that names cells leaves each key, or flags it over data that differs (R15, R76). -/
theorem plotPixel_eq_or_marked {c : Config} (hw : c.wf = true) {m : Memory} (hm : Memory.wf m) (x y color key : Nat) :
    Memory.read (plotPixel c x y color m) key = Memory.read m key
      ∨ (modified (Memory.read (plotPixel c x y color m) key) = true
        ∧ cellData c (Memory.read (plotPixel c x y color m) key) ≠ cellData c (Memory.read m key)) := by
  have hl := Config.wf_leds hw
  by_cases hk : ∃ ch < c.colors, key = plotKey c x y ch
  · obtain ⟨ch, hch, rfl⟩ := hk
    rw [read_plotPixel_channel hw hm x y color hch]
    exact plottedCell_eq_or_marked hl (cellData_bitMask hw y) _ _
  · exact .inl (read_plotPixel_other hw hm fun ch hch h => hk ⟨ch, hch, h⟩)

/-- Settles O20: a PLOT updates each key once at most, and CLEAR's updates only darken. -/
theorem plotAndClearOnlySetFlags : Obligations.PlotAndClearOnlySetFlags := by
  rintro s t i ⟨hw, hm, -⟩ (⟨x, y, color, rfl⟩ | rfl) h key
  · obtain ⟨-, -, hb⟩ := execPlot_next h
    rcases plotBody_next hb with rfl | ⟨-, rfl, -⟩
    · exact .inl rfl
    · exact plotPixel_eq_or_marked hw hm _ _ color key
  · obtain ⟨-, -, rfl⟩ := execClear_next h
    rcases darkened_clearBuffer hw hm key with hsame | ⟨hf, hlt⟩
    · exact .inl hsame
    · exact .inr ⟨hf, fun heq => hlt.ne (congrArg BitVec.toNat heq)⟩

end Sys2Proof.Machine
end

