-- ==== Sys2Proof/Proofs/MachineInvariant.lean ====
section
/-! PROOFS. Every step keeps the machine invariant (O46): the display RAMs stay well-formed under every event, COMMIT
leaves every cell as its data, and INIT establishes what the other operations keep. -/

namespace Sys2Proof.Machine

open Sys2Proof

/-! ### Numbers from latched levels -/

theorem natOfBitsFrom_lt (acc : Nat) (bs : List Bool) : natOfBitsFrom acc bs < (acc + 1) * 2 ^ bs.length := by
  induction bs generalizing acc with
  | nil => simp [natOfBitsFrom]
  | cons b bs ih =>
    have hb : b.toNat ≤ 1 := Bool.toNat_le b
    calc natOfBitsFrom acc (b :: bs) < (2 * acc + b.toNat + 1) * 2 ^ bs.length := ih _
      _ ≤ (2 * (acc + 1)) * 2 ^ bs.length := Nat.mul_le_mul_right _ (by omega)
      _ = (acc + 1) * 2 ^ (b :: bs).length := by rw [List.length_cons, pow_succ]; ring

theorem length_of_bitsOfLevels {ls : List Level} {bs : List Bool} (h : bitsOfLevels ls = some bs) :
    bs.length = ls.length := by
  induction ls generalizing bs with
  | nil =>
    cases h
    rfl
  | cons l ls ih =>
    simp only [bitsOfLevels] at h
    split at h
    · cases h
      simp [ih ‹_›]
    · cases h

/-- A number read from `n` levels has `n` bits. -/
theorem levelsToNat_lt {ls : List Level} {d : Nat} (h : levelsToNat ls = some d) : d < 2 ^ ls.length := by
  obtain ⟨bs, hbs, rfl⟩ := Option.map_eq_some_iff.1 h
  rw [← length_of_bitsOfLevels hbs]
  simpa [natOfBits] using natOfBitsFrom_lt 0 bs

/-! ### The display RAMs stay well-formed (R31, R49) -/

section Rams

variable {c : Config}

/-- A complete write frame's address is a cell's and its data has LEDS_PER_CELL bits (R49). -/
theorem writeFrameEffect_writeRam {acc : List Level} {a d : Nat} (h : writeFrameEffect c acc = .writeRam a d) :
    a < c.cells ∧ d < 2 ^ c.ledsPerCell := by
  simp only [writeFrameEffect] at h
  split at h
  · cases h
  · split at h
    · rename_i hlen
      split at h
      · rename_i hd
        split at h
        · cases h
          have hbits := levelsToNat_lt hd
          have hsub : c.writeFrameBits - c.idBits - c.addrBits = c.ledsPerCell := by
            unfold Config.writeFrameBits
            omega
          rw [List.length_drop, List.length_drop, hlen, hsub] at hbits
          exact ⟨‹_›, hbits⟩
        · cases h
      · cases h
    · cases h

theorem commandFrameEffect_ne_writeRam (acc : List Level) (a d : Nat) : commandFrameEffect c acc ≠ .writeRam a d := by
  unfold commandFrameEffect
  split
  · split <;> exact nofun
  · exact nofun

/-- Whatever a chip has latched, what it writes to its display RAM is in range (R49). -/
theorem frameEffect_writeRam {acc : List Level} {a d : Nat} (h : frameEffect c acc = .writeRam a d) :
    a < c.cells ∧ d < 2 ^ c.ledsPerCell := by
  unfold frameEffect at h
  split at h
  · cases h
  · split at h
    · split at h
      · exact writeFrameEffect_writeRam h
      · split at h
        · exact absurd h (commandFrameEffect_ne_writeRam _ _ _)
        · cases h
    · cases h

/-- A write of LEDS_PER_CELL bits at a cell's address keeps a display RAM well-formed. -/
theorem ramWf_write (hl : c.ledsPerCell ≤ 7) {m : Memory} (hm : ramWf c m) {a d : Nat} (ha : a < c.cells)
    (hd : d < 2 ^ c.ledsPerCell) : ramWf c (Memory.write a (BitVec.ofNat 8 d) m) := by
  obtain ⟨hwf, hbelow, hdata⟩ := hm
  refine ⟨Memory.write_wf _ _ hwf, Memory.write_below _ ha hbelow, fun p hp => ?_⟩
  rcases Memory.mem_write hp with rfl | hp
  · exact cellData_ofNat hl hd
  · exact hdata p hp

theorem ramWf_freeRam (hl : c.ledsPerCell ≤ 7) (n k : Nat) : ramWf c (freeRam c n k) :=
  Memory.foldl_keeps (P := ramWf c) _
    (fun _ _ ha h => ramWf_write hl h (List.mem_range.1 ha) (Nat.mod_lt _ (by positivity)))
    ⟨⟨List.Pairwise.nil, by simp⟩, by simp, by simp⟩

theorem ramWf_takeEffect (hl : c.ledsPerCell ≤ 7) {n k : Nat} {ch : Chip} {acc : List Level} (h : ramWf c ch.ram) :
    ramWf c (ch.takeEffect c n k (frameEffect c acc)).ram := by
  cases he : frameEffect c acc with
  | nothing => exact h
  | logCommand p => exact h
  | unspecified => exact ramWf_freeRam hl n k
  | writeRam a d =>
    obtain ⟨ha, hd⟩ := frameEffect_writeRam he
    exact ramWf_write hl h ha hd

theorem ramWf_latch (hl : c.ledsPerCell ≤ 7) {n k : Nat} {d : Level} {ch : Chip} (h : ramWf c ch.ram) :
    ramWf c (ch.latch c n k d).ram := by
  unfold Chip.latch
  split
  · exact ramWf_takeEffect hl h
  · exact h

theorem ramWf_latchChips (hl : c.ledsPerCell ≤ 7) {n k : Nat} {d : Level} {cs : List Chip}
    (h : ∀ ch ∈ cs, ramWf c ch.ram) : ∀ ch ∈ latchChips c n d k cs, ramWf c ch.ram := by
  induction cs generalizing k with
  | nil => exact h
  | cons ch cs ih =>
    obtain ⟨hhead, htail⟩ := List.forall_mem_cons.1 h
    exact List.forall_mem_cons.2 ⟨ramWf_latch hl hhead, ih htail⟩

/-- Chips with the same display RAMs as well-formed ones. -/
theorem ramWf_of_map_ram_eq {cs cs' : List Chip} (heq : cs'.map (·.ram) = cs.map (·.ram))
    (h : ∀ ch ∈ cs, ramWf c ch.ram) : ∀ ch ∈ cs', ramWf c ch.ram := by
  rw [← List.forall_mem_map (P := ramWf c), heq, List.forall_mem_map]
  exact h

/-- No event makes a display RAM ill-formed (R46, R49). -/
theorem ramWf_take (hl : c.ledsPerCell ≤ 7) (lv : Lines Level) (r : Receiver) (e : Event)
    (h : ∀ ch ∈ r.chips, ramWf c ch.ram) : ∀ ch ∈ (r.take c lv e).chips, ramWf c ch.ram := by
  unfold Receiver.take
  split
  · unfold Receiver.clkHigh
    split
    · exact ramWf_of_map_ram_eq (map_ram_shiftChain _ _) h
    · exact h
    · exact ramWf_of_map_ram_eq (map_ram_scrambleChain _ _ _) h
  · unfold Receiver.wrHigh
    split
    · exact ramWf_latchChips hl h
    · exact h
    · exact ramWf_of_map_ram_eq (map_ram_strayChips _ _ _ _) h
  all_goals exact h

theorem ramWf_busRun (hl : c.ledsPerCell ≤ 7) (b : Lines Level × Receiver) (es : List Event)
    (h : ∀ ch ∈ b.2.chips, ramWf c ch.ram) : ∀ ch ∈ (busRun c b es).2.chips, ramWf c ch.ram := by
  induction es generalizing b with
  | nil => exact h
  | cons e es ih => exact ih _ (ramWf_take hl _ _ _ h)

end Rams

/-- Emission keeps a state well-formed as far as the frame buffer is. -/
theorem Emits.wf {s t : State} {es : List Event} (h : Emits s t es) (hs : s.wf) (hfb : Memory.wf t.fb)
    (hbelow : Memory.below s.cfg.size t.fb) : t.wf := by
  obtain ⟨hw, -, -, hlen, hram⟩ := hs
  rw [State.wf, h.cfg, h.rx]
  exact ⟨hw, hfb, hbelow, (length_busRun _ _ _).trans hlen, ramWf_busRun (Config.wf_leds hw) _ _ hram⟩

/-! ### COMMIT on the frame buffer (R88, R89) -/

/-- COMMIT visits exactly the cells (R88). -/
theorem mem_scanOrder {c : Config} (hw : c.wf = true) {a chip : Nat} :
    (a, chip) ∈ scanOrder c ↔ a < c.cells ∧ chip < c.chips := by
  have hband := Config.band_pos hw
  simp only [scanOrder, List.mem_flatMap, List.mem_map, List.mem_range, Prod.mk.injEq]
  constructor
  · rintro ⟨chip', hchip, b, hb, ch, hch, rfl, rfl⟩
    exact ⟨channelAddress_lt_cells hw hb hch, hchip⟩
  · rintro ⟨ha, hchip⟩
    refine ⟨chip, hchip, a % c.band, Nat.mod_lt _ hband, a / c.band, ?_, Nat.mod_add_div' _ _, rfl⟩
    rw [Nat.div_lt_iff_lt_mul hband, ← Config.cells_eq_colors_band hw]
    exact ha

/-- A property that every visit of a cell keeps holds after the body of COMMIT. -/
theorem commitBody_keeps_of_mem {P : State → Prop} {s : State}
    (hstep : ∀ t, ∀ p ∈ scanOrder s.cfg, t.cfg = s.cfg → P t → P (t.commitCell p)) (h : P s) : P s.commitBody :=
  (List.foldlRecOn (motive := fun t : State => t.cfg = s.cfg ∧ P t) (scanOrder s.cfg) State.commitCell ⟨rfl, h⟩
    fun t ⟨hc, ht⟩ p hp => ⟨(State.commitCell_cfg t p).trans hc, hstep t p hp hc ht⟩).2

/-- What COMMIT leaves in a cell (R89). -/
def sentCell (c : Config) (v : Byte) : Byte := if modified v then cellData c v else v

theorem sentCell_of_modified {c : Config} {v : Byte} (h : modified v = true) : sentCell c v = cellData c v := if_pos h

theorem sentCell_of_clean {c : Config} {v : Byte} (h : modified v = false) : sentCell c v = v := by
  simp [sentCell, h]

theorem modified_sentCell {c : Config} (hl : c.ledsPerCell ≤ 7) (v : Byte) : modified (sentCell c v) = false := by
  cases h : modified v with
  | true => rw [sentCell_of_modified h, modified_cellData hl]
  | false => rw [sentCell_of_clean h, h]

theorem sentCell_sentCell {c : Config} (hl : c.ledsPerCell ≤ 7) (v : Byte) :
    sentCell c (sentCell c v) = sentCell c v := sentCell_of_clean (modified_sentCell hl v)

/-- A visited cell is left as sent, and every other key as it was (R89). -/
theorem read_commitCell {s : State} (hm : Memory.wf s.fb) (p : Nat × Nat) (key : Nat) :
    Memory.read (s.commitCell p).fb key
      = if key = cellKey s.cfg p.1 p.2 then sentCell s.cfg (Memory.read s.fb key) else Memory.read s.fb key := by
  cases hp : modified (s.cell p.1 p.2) with
  | false =>
    rw [State.commitCell_clean hp]
    split
    case isTrue hk => exact (sentCell_of_clean (hk ▸ hp)).symm
    case isFalse => rfl
  | true =>
    rw [State.commitCell_dirty hp, State.setCell_fb, State.sendData_fb, State.sendData_cfg, Memory.read_write _ _ _ hm]
    split
    case isTrue hk =>
      subst hk
      exact (sentCell_of_modified hp).symm
    case isFalse => rfl

theorem read_foldl_commitCell {s : State} (hl : s.cfg.ledsPerCell ≤ 7) (hm : Memory.wf s.fb) (l : List (Nat × Nat))
    (key : Nat) :
    Memory.read (l.foldl State.commitCell s).fb key
      = if ∃ p ∈ l, key = cellKey s.cfg p.1 p.2 then sentCell s.cfg (Memory.read s.fb key)
        else Memory.read s.fb key := by
  induction l generalizing s with
  | nil => simp
  | cons p l ih =>
    rw [List.foldl_cons, ih (s := s.commitCell p) (by simpa using hl) (State.commitCell_fb_wf hm), State.commitCell_cfg,
      read_commitCell hm]
    by_cases hk : key = cellKey s.cfg p.1 p.2
    · have hex : ∃ q ∈ p :: l, key = cellKey s.cfg q.1 q.2 := ⟨p, List.mem_cons_self, hk⟩
      rw [if_pos hk, if_pos hex, sentCell_sentCell hl, ite_self]
    · simp only [hk, if_false, List.exists_mem_cons_iff, false_or]

/-- COMMIT leaves every cell as sent (R89, R90). -/
theorem read_commitBody {s : State} (hw : s.cfg.wf = true) (hm : Memory.wf s.fb) {key : Nat} (hk : key < s.cfg.size) :
    Memory.read s.commitBody.fb key = sentCell s.cfg (Memory.read s.fb key) := by
  obtain ⟨a, ha, chip, hchip, hkey⟩ := exists_cellKey_eq hk
  rw [State.commitBody, read_foldl_commitCell (Config.wf_leds hw) hm]
  exact if_pos ⟨(a, chip), (mem_scanOrder hw).2 ⟨ha, hchip⟩, hkey.symm⟩

/-- A visited cell's entry is its data, at its key. -/
theorem mem_commitCell_fb {s : State} {p : Nat × Nat} {q : Host.Cell} (h : q ∈ (s.commitCell p).fb) :
    q ∈ s.fb ∨ (q.1 = cellKey s.cfg p.1 p.2 ∧ UnusedZero s.cfg q.2) := by
  cases hp : modified (s.cell p.1 p.2) with
  | false => exact .inl (State.commitCell_clean hp ▸ h)
  | true =>
    rw [State.commitCell_dirty hp, State.setCell_fb, State.sendData_fb] at h
    rcases Memory.mem_write h with rfl | h
    · exact .inr ⟨rfl, unusedZero_cellData _⟩
    · exact .inl h

theorem commitBody_below {s : State} (hw : s.cfg.wf = true) (hm : Memory.below s.cfg.size s.fb) :
    Memory.below s.cfg.size s.commitBody.fb := by
  refine commitBody_keeps_of_mem (P := fun t => Memory.below s.cfg.size t.fb) (fun t p hp hc h q hq => ?_) hm
  rcases mem_commitCell_fb hq with hq | ⟨hk, -⟩
  · exact h q hq
  · obtain ⟨ha, hchip⟩ := (mem_scanOrder hw).1 hp
    rw [hk, hc]
    exact cellKey_lt_size ha hchip

theorem commitBody_unusedZero {s : State} (hm : ∀ q ∈ s.fb, UnusedZero s.cfg q.2) :
    ∀ q ∈ s.commitBody.fb, UnusedZero s.cfg q.2 := by
  refine commitBody_keeps_of_mem (P := fun t => ∀ q ∈ t.fb, UnusedZero s.cfg q.2) (fun t p _ hc h q hq => ?_) hm
  rcases mem_commitCell_fb hq with hq | ⟨-, hu⟩
  · exact h q hq
  · exact hc ▸ hu

/-! ### `sel` (R24) -/

theorem selKnown_of_sel {s : State} {k : Nat} (hsel : s.sel = some k) (hk : k ≤ s.cfg.chips) : s.selKnown = true := by
  simp [State.selKnown, hsel, hk]

/-- COMMIT selects chips only (R88, R96). -/
theorem commitBody_selKnown {s : State} (hw : s.cfg.wf = true) (h : s.selKnown = true) :
    s.commitBody.selKnown = true := by
  refine commitBody_keeps_of_mem (P := fun t => t.selKnown = true) (fun t p hp hc ht => ?_) h
  cases hd : modified (t.cell p.1 p.2) with
  | false =>
    rw [State.commitCell_clean hd]
    exact ht
  | true =>
    obtain ⟨-, hchip⟩ := (mem_scanOrder hw).1 hp
    rw [State.commitCell_dirty hd]
    exact selKnown_of_sel (k := p.2 + 1) rfl (hc ▸ hchip)

theorem select?_commandInstr (c : Config) (k p : Nat) : (commandInstr c k p).select? = some k := by
  unfold commandInstr
  split_ifs <;> rfl

/-- A decoded frame goes to one of the chips (R96). -/
theorem select_le_of_decodeRequest {c : Config} {r : Request} {i : Instr} {k : Nat}
    (h : decodeRequest c r = .ok (some i)) (hk : i.select? = some k) : k ≤ c.chips := by
  cases r with
  | reset => cases h
  | host w =>
    have hop := decodeRequest_isHostOp (c := c) (r := .host w) (fun _ _ => nofun) h
    cases i with
    | init | plot | clear | commit => cases hk
    | _ => cases hop
  | frame k' bits =>
    simp only [decodeRequest, decodeFrame] at h
    split at h
    · rename_i hin
      have hsel : i.select? = some k' := by
        split at h
        · cases h
        · split at h
          · cases h
            exact select?_commandInstr c k' _
          · cases h
        · split at h
          · cases h
            rfl
          · cases h
      have heq : k' = k := Option.some.inj (hsel.symm.trans hk)
      simp only [selectInRange, Bool.and_eq_true, decide_eq_true_eq] at hin
      exact heq ▸ hin.2
    · cases h

/-! ### INIT (R112, R113) -/

theorem foldl_sendCmd_cfg_fb (k : Nat) (ps : List Nat) (s : State) :
    (ps.foldl (fun s' p => s'.sendCmd k p) s).cfg = s.cfg ∧ (ps.foldl (fun s' p => s'.sendCmd k p) s).fb = s.fb :=
  List.foldlRecOn (motive := fun t : State => t.cfg = s.cfg ∧ t.fb = s.fb) ps _ ⟨rfl, rfl⟩ fun _ h _ _ => h

theorem configureChips_cfg_fb (s : State) : s.configureChips.cfg = s.cfg ∧ s.configureChips.fb = s.fb :=
  List.foldlRecOn (motive := fun t : State => t.cfg = s.cfg ∧ t.fb = s.fb) _ _ ⟨rfl, rfl⟩ fun t ⟨hc, hf⟩ _ _ =>
    ⟨(foldl_sendCmd_cfg_fb _ _ t).1.trans hc, (foldl_sendCmd_cfg_fb _ _ t).2.trans hf⟩

/-- The last of the configuration commands deselects (R100, R110). -/
theorem configureChips_sel {s : State} (hw : s.cfg.wf = true) : s.configureChips.sel = some 0 := by
  obtain ⟨n, hn⟩ := Nat.exists_eq_succ_of_ne_zero (Config.chips_pos hw).ne'
  rw [State.configureChips, hn, List.range_succ, List.foldl_concat]
  rfl

@[simp] theorem State.blankBody_cfg (s : State) : s.blankBody.cfg = s.cfg := (configureChips_cfg_fb _).1

theorem State.blankBody_fb (s : State) : s.blankBody.fb = clearBuffer s.cfg (filledBuffer s.cfg s.fb) := by
  rw [State.blankBody, State.clearBody_fb, (configureChips_cfg_fb _).1, (configureChips_cfg_fb _).2]
  rfl

theorem State.blankBody_fb_wf {s : State} (hm : Memory.wf s.fb) : Memory.wf s.blankBody.fb := by
  rw [State.blankBody_fb]
  exact clearBuffer_wf (filledBuffer_wf hm)

/-- Before INIT's COMMIT every cell counts as changed (R109). -/
theorem modified_blankBody {s : State} (hw : s.cfg.wf = true) (hm : Memory.wf s.fb) {key : Nat}
    (hk : key < s.cfg.size) : modified (Memory.read s.blankBody.fb key) = true := by
  rw [State.blankBody_fb]
  exact modified_clearBuffer_filledBuffer hw hm hk

theorem initBody_fb_wf {s : State} (hm : Memory.wf s.fb) : Memory.wf s.initBody.fb :=
  State.commitBody_fb_wf (State.blankBody_fb_wf hm)

theorem blankBody_below {s : State} (hw : s.cfg.wf = true) (hm : Memory.below s.cfg.size s.fb) :
    Memory.below s.cfg.size s.blankBody.fb := by
  rw [State.blankBody_fb]
  exact clearBuffer_below hw (filledBuffer_below hm)

theorem initBody_below {s : State} (hw : s.cfg.wf = true) (hm : Memory.below s.cfg.size s.fb) :
    Memory.below s.cfg.size s.initBody.fb := by
  have h := commitBody_below (s := s.blankBody)
  rw [State.blankBody_cfg] at h
  exact h hw (blankBody_below hw hm)

/-- INIT's COMMIT visits every cell and finds each changed, so data bits alone remain (R14, R16 (a)). -/
theorem initBody_unusedZero {s : State} (hw : s.cfg.wf = true) (hm : Memory.wf s.fb)
    (hbelow : Memory.below s.cfg.size s.fb) : ∀ p ∈ s.initBody.fb, UnusedZero s.cfg p.2 := by
  intro p hp
  have hk := initBody_below hw hbelow p hp
  have hread : Memory.read s.initBody.fb p.1 = sentCell s.cfg (Memory.read s.blankBody.fb p.1) := by
    have h := read_commitBody (s := s.blankBody) (key := p.1) (by rwa [State.blankBody_cfg]) (State.blankBody_fb_wf hm)
      (by rwa [State.blankBody_cfg])
    rwa [State.blankBody_cfg] at h
  rw [← Memory.read_of_mem (initBody_fb_wf hm) hp, hread, sentCell_of_modified (modified_blankBody hw hm hk)]
  exact unusedZero_cellData _

theorem initBody_selKnown {s : State} (hw : s.cfg.wf = true) : s.initBody.selKnown = true := by
  have hsel : s.blankBody.selKnown = true :=
    selKnown_of_sel (k := 0) (configureChips_sel (s := ({ s with inited := false } : State).idleLines.fillBody) hw)
      (Nat.zero_le _)
  exact commitBody_selKnown (s := s.blankBody) (by rwa [State.blankBody_cfg]) hsel

/-- INIT establishes the machine invariant from every well-formed state. -/
theorem initBody_inv {s : State} (hs : s.wf) : s.initBody.Inv := by
  obtain ⟨hw, hm, hbelow, -, -⟩ := id hs
  obtain ⟨hconf, es, htr, hes⟩ := initBody_emits s
  refine ⟨hes.wf hs (initBody_fb_wf hm) (initBody_below hw hbelow), fun _ => ⟨?_, hconf, initBody_selKnown hw, ?_⟩⟩
  · rw [State.linesIdle, hes.levels]
    exact htr.idle_after_idleEvents _
  · rw [State.unusedBitsZero, hes.cfg]
    exact initBody_unusedZero hw hm hbelow

/-! ### The step -/

/-- What keeps the machine invariant under encoder traffic: a frame buffer in range with its unused bits 0, and a known
select number. -/
theorem Transmits.inv {s t : State} (h : Transmits s t) (hs : s.Inv) (hfb : Memory.wf t.fb)
    (hbelow : Memory.below s.cfg.size t.fb)
    (hunused : (∀ p ∈ s.fb, UnusedZero s.cfg p.2) → ∀ p ∈ t.fb, UnusedZero s.cfg p.2)
    (hsel : s.selKnown = true → t.selKnown = true) : t.Inv := by
  obtain ⟨hwf, hinit⟩ := hs
  obtain ⟨es, -, hes⟩ := h.emits
  refine ⟨hes.wf hwf hfb hbelow, fun hi => ?_⟩
  obtain ⟨hidle, hconf, hknown, hzero⟩ := hinit (h.inited ▸ hi)
  refine ⟨?_, h.configured.trans hconf, hsel hknown, ?_⟩
  · exact h.idle hidle
  · rw [State.unusedBitsZero, hes.cfg]
    exact hunused hzero

/-- A frame sent to one of the chips keeps the machine invariant. -/
theorem inv_of_frame {s t u : State} {k : Nat} (hs : s.Inv) (hu : Transmits s u) (hfb : u.fb = s.fb)
    (hsel : u.sel = some k) (hk : k ≤ s.cfg.chips) (h : Guard.config s (.next u) = .next t) : t.Inv := by
  obtain ⟨-, hk'⟩ := Guard.config_next h
  cases hk'
  obtain ⟨⟨hw, hm, hbelow, -⟩, -⟩ := id hs
  exact hu.inv hs (hfb ▸ hm) (hfb ▸ hbelow) (fun hzero => hfb ▸ hzero)
    fun _ => selKnown_of_sel hsel (hu.cfg ▸ hk)

/-- A PLOT keeps the machine invariant (R78, R84: its keys are in range). -/
theorem plotBody_inv {x y : Int} {color : Nat} {s t : State} (hs : s.Inv) (h : plotBody x y color s = .next t) :
    t.Inv := by
  obtain ⟨⟨hw, hm, hbelow, -⟩, -⟩ := id hs
  have htr := transmits_plotBody h
  rcases plotBody_next h with rfl | ⟨-, rfl, hrange⟩
  · exact hs
  · have hkey := hrange.imp_right And.right
    exact htr.inv hs (plotPixel_wf hm) (plotPixel_below hw (fun ch hch => plotKey_lt_size hw hkey hch) hbelow)
      (plotPixel_unusedZero hw) id

/-- Every instruction that can be decoded keeps the machine invariant. -/
theorem exec_inv {s t : State} {i : Instr} (hs : s.Inv) (hsel : ∀ k, i.select? = some k → k ≤ s.cfg.chips)
    (h : exec i s = .next t) : t.Inv := by
  obtain ⟨⟨hw, hm, hbelow, -⟩, -⟩ := id hs
  cases i with
  | init =>
    obtain ⟨-, rfl⟩ := execInit_next h
    exact initBody_inv hs.1
  | plot x y color =>
    obtain ⟨-, -, hb⟩ := execPlot_next h
    exact plotBody_inv hs hb
  | clear =>
    obtain ⟨-, -, rfl⟩ := execClear_next h
    exact (transmits_fb s _).inv hs (clearBuffer_wf hm) (clearBuffer_below hw hbelow) (clearBuffer_unusedZero hw) id
  | commit =>
    obtain ⟨-, -, rfl⟩ := execCommit_next h
    exact (transmits_commitBody s).inv hs (State.commitBody_fb_wf hm) (commitBody_below hw hbelow) commitBody_unusedZero
      (commitBody_selKnown hw)
  | write k a d => exact inv_of_frame hs (transmits_sendData s k a d) rfl rfl (hsel k rfl) h
  | cmd k | sysdis k | panelcfg k | master k | sysen k | ledon k =>
    exact inv_of_frame hs (transmits_sendCmd s k _) rfl rfl (Nat.zero_le _) h

/-- The reset event keeps what the machine invariant says of an uninitialised state. -/
theorem resetEvent_inv {s : State} (hs : s.wf) : s.resetEvent.Inv := by
  obtain ⟨hw, -, -, hlen, hram⟩ := hs
  exact State.inv_of_not_inited ⟨hw, freeFrameBuffer_wf _ _, freeFrameBuffer_below _ _, hlen, hram⟩ rfl

/-- Settles O46: by the kinds of step, each instruction keeping the invariant. -/
theorem stepKeepsTheMachineInvariant : Obligations.StepKeepsTheMachineInvariant := by
  intro s t hs h
  obtain ⟨-, ⟨-, rfl⟩ | ⟨r, rest, i, -, hd, h⟩ | ⟨r, rest, -, -, rfl⟩⟩ := step_cases h
  · exact hs
  · exact exec_inv (s := { s with pending := rest }) hs (fun k hk => select_le_of_decodeRequest hd hk) h
  · exact resetEvent_inv (s := { s with pending := rest }) hs.1

end Sys2Proof.Machine
end

