-- ==== Sys2Proof/Proofs/Selection.lean ====
section
/-! PROOFS. The encoder's events at the reference receiver: what SELECT does to the chain (R46, R95 to R98), what the
bits of a write frame do to the selected chip (R47 to R49), and so what SENDDATA does to the display RAMs (R101). -/

namespace Sys2Proof.Config

/-- The opcodes differ, so they have a bit. -/
theorem idBits_pos (c : Config) : 0 < c.idBits := by
  by_contra h
  have hone : 2 ^ c.idBits = 1 := by rw [Nat.eq_zero_of_not_pos h, pow_zero]
  have h₁ := c.opCommand.isLt
  have h₂ := c.opWrite.isLt
  exact c.idsDiffer (BitVec.eq_of_toNat_eq (by omega))

end Sys2Proof.Config

namespace Sys2Proof.Machine

open Sys2Proof

/-! ### Clock pulses (R46) -/

@[simp] theorem length_iterate_shiftChain (v : Level) (n : Nat) (cs : List Chip) :
    ((shiftChain v)^[n] cs).length = cs.length := by
  induction n with
  | zero => rfl
  | succ n ih => rw [Function.iterate_succ_apply', length_shiftChain, ih]

/-- A rising CLK moves every stage on by one and takes `v` into the first. -/
theorem stages_shiftChain (v : Level) (cs : List Chip) :
    (shiftChain v cs).map (·.stage) = (v :: cs.map (·.stage)).take cs.length := by
  induction cs generalizing v with
  | nil => rfl
  | cons c cs ih => simp [shiftChain, ih]

theorem stages_iterate_shiftChain (v : Level) (n : Nat) (cs : List Chip) :
    ((shiftChain v)^[n] cs).map (·.stage) = (List.replicate n v ++ cs.map (·.stage)).take cs.length := by
  induction n with
  | zero => simp
  | succ n ih =>
    rw [Function.iterate_succ_apply', stages_shiftChain, ih, length_iterate_shiftChain]
    cases cs.length with
    | zero => rfl
    | succ l => simp [List.take_take, List.replicate_succ]

/-- The chips `cs'` have the display RAMs and the command logs of `cs`. -/
def SameContents (cs cs' : List Chip) : Prop := cs'.map (·.ram) = cs.map (·.ram) ∧ cs'.map (·.log) = cs.map (·.log)

theorem SameContents.trans {cs cs' cs'' : List Chip} (h : SameContents cs cs') (h' : SameContents cs' cs'') :
    SameContents cs cs'' := ⟨h'.1.trans h.1, h'.2.trans h.2⟩

theorem sameContents_shiftChain (v : Level) (cs : List Chip) : SameContents cs (shiftChain v cs) :=
  ⟨map_ram_shiftChain v cs, map_log_shiftChain v cs⟩

theorem sameContents_iterate_shiftChain (v : Level) (n : Nat) (cs : List Chip) :
    SameContents cs ((shiftChain v)^[n] cs) := by
  induction n with
  | zero => exact ⟨rfl, rfl⟩
  | succ n ih =>
    rw [Function.iterate_succ_apply']
    exact ih.trans (sameContents_shiftChain v _)

/-- Every selected chip's accumulator is empty. -/
def SelectedEmpty (cs : List Chip) : Prop := ∀ ch ∈ cs, ch.stage = .low → ch.acc = []

/-- A chip that becomes selected starts with an empty accumulator (R48). -/
theorem selectedEmpty_shiftChain {v : Level} {cs : List Chip} (h : SelectedEmpty cs) :
    SelectedEmpty (shiftChain v cs) := by
  induction cs generalizing v with
  | nil => exact h
  | cons c cs ih =>
    obtain ⟨hc, hcs⟩ := List.forall_mem_cons.1 h
    refine List.forall_mem_cons.2 ⟨fun hlow => ?_, ih hcs⟩
    rw [Chip.setStage_stage] at hlow
    subst hlow
    rw [Chip.setStage_acc]
    split
    · exact hc ‹_›
    · rfl

theorem selectedEmpty_iterate_shiftChain {v : Level} (n : Nat) {cs : List Chip} (h : SelectedEmpty cs) :
    SelectedEmpty ((shiftChain v)^[n] cs) := by
  induction n with
  | zero => exact h
  | succ n ih =>
    rw [Function.iterate_succ_apply']
    exact selectedEmpty_shiftChain ih

theorem selectedEmpty_of_high {n : Nat} {cs : List Chip} (h : cs.map (·.stage) = List.replicate n .high) :
    SelectedEmpty cs := by
  intro ch hch hlow
  have hmem : ch.stage ∈ cs.map (·.stage) := List.mem_map_of_mem hch
  rw [h] at hmem
  exact absurd (hlow.symm.trans (List.eq_of_mem_replicate hmem)) nofun

section Select

variable (c : Config) {lv : Lines Level} (hclk : lv.clk = .low)

include hclk

/-- A clock pulse from CLK low shifts the chain once and leaves the lines (R46, R94). -/
theorem busRun_clkPulse (r : Receiver) :
    busRun c (lv, r) clkPulse = (lv, { r with chips := shiftChain lv.cs r.chips }) := by
  obtain ⟨data, clk, wr, cs⟩ := lv
  subst hclk
  rfl

theorem busRun_clkPulses (n : Nat) (r : Receiver) :
    busRun c (lv, r) (clkPulses n) = (lv, { r with chips := (shiftChain lv.cs)^[n] r.chips }) := by
  induction n generalizing r with
  | zero => rfl
  | succ n ih => rw [clkPulses, busRun_append, busRun_clkPulse c hclk, ih, Function.iterate_succ_apply]

/-- SELECT(0) deselects every chip (R95, R98). -/
theorem busRun_flushEvents (n : Nat) (r : Receiver) :
    busRun c (lv, r) (flushEvents n)
      = ({ lv with cs := .high }, { r with chips := (shiftChain .high)^[n] r.chips }) :=
  busRun_clkPulses c (lv := { lv with cs := .high }) hclk n r

/-- SELECT(k) with a chip: the flush, a 0 into the first stage, and the 1s that move it on (R95, R96). -/
theorem busRun_selectEvents_succ (n k : Nat) (r : Receiver) :
    busRun c (lv, r) (selectEvents n (k + 1))
      = ({ lv with cs := .high },
          { r with chips := (shiftChain .high)^[k] (shiftChain .low ((shiftChain .high)^[n] r.chips)) }) := by
  have hpulse (r' : Receiver) : busRun c ({ lv with cs := .high }, r') (.set .cs false :: clkPulse)
      = ({ lv with cs := .low }, { r' with chips := shiftChain .low r'.chips }) :=
    busRun_clkPulse c (lv := { lv with cs := .low }) hclk r'
  have hpulses (r' : Receiver) : busRun c ({ lv with cs := .low }, r') (.set .cs true :: clkPulses k)
      = ({ lv with cs := .high }, { r' with chips := (shiftChain .high)^[k] r'.chips }) :=
    busRun_clkPulses c (lv := { lv with cs := .high }) hclk k r'
  rw [selectEvents, busRun_append, busRun_append, busRun_flushEvents c hclk, hpulse, hpulses]

end Select

theorem selectedOnly_zero (n : Nat) : selectedOnly n 0 = List.replicate n .high := by
  simp [selectedOnly]

/-- One 0 moved on by `k` 1s, in a chain of 1s. -/
theorem shifted_eq_selectedOnly (n k : Nat) :
    (List.replicate k Level.high ++ (Level.low :: List.replicate n Level.high).take n).take n
      = selectedOnly n (k + 1) := by
  apply List.ext_getElem
  · simp [selectedOnly]
  · intro i hi hi'
    simp only [selectedOnly, List.getElem_take, List.getElem_map, List.getElem_range, List.getElem_append,
      List.length_replicate, List.getElem_cons, List.getElem_replicate]
    rcases Nat.lt_trichotomy i k with h | h | h
    · rw [dif_pos h, if_neg (by omega)]
    · rw [dif_neg (by omega), dif_pos (by omega), if_pos (by omega)]
    · rw [dif_neg (by omega), dif_neg (by omega), if_neg (by omega)]

/-- What SELECT(k) does from any chain state with CLK low: one chip is selected, or none, with an empty accumulator;
no display RAM, no log and no other line is touched (R98). -/
theorem busRun_selectEvents (c : Config) {lv : Lines Level} (hclk : lv.clk = .low) {r : Receiver} {n k : Nat}
    (hlen : r.chips.length = n) :
    ∃ cs, busRun c (lv, r) (selectEvents n k) = ({ lv with cs := .high }, { r with chips := cs })
      ∧ SameContents r.chips cs ∧ cs.map (·.stage) = selectedOnly n k ∧ SelectedEmpty cs := by
  have hflush : ((shiftChain .high)^[n] r.chips).map (·.stage) = List.replicate n .high := by
    rw [stages_iterate_shiftChain, hlen, List.take_append_of_le_length (by simp), List.take_replicate, min_self]
  have hsame := sameContents_iterate_shiftChain .high n r.chips
  cases k with
  | zero =>
    exact ⟨_, busRun_flushEvents c hclk n r, hsame, hflush.trans (selectedOnly_zero n).symm,
      selectedEmpty_of_high hflush⟩
  | succ k =>
    refine ⟨_, busRun_selectEvents_succ c hclk n k r,
      (hsame.trans (sameContents_shiftChain _ _)).trans (sameContents_iterate_shiftChain _ _ _), ?_,
      selectedEmpty_iterate_shiftChain _ (selectedEmpty_shiftChain (selectedEmpty_of_high hflush))⟩
    rw [stages_iterate_shiftChain, stages_shiftChain, hflush, length_shiftChain, length_iterate_shiftChain, hlen]
    exact shifted_eq_selectedOnly n k

/-! ### Bits at the chips (R47, R48, R99) -/

theorem getElem?_latchChips (c : Config) (n : Nat) (d : Level) (k : Nat) (cs : List Chip) (i : Nat) :
    (latchChips c n d k cs)[i]? = cs[i]?.map (Chip.latch c n (k + i) d) := by
  induction cs generalizing k i with
  | nil => rfl
  | cons ch cs ih =>
    cases i with
    | zero => rfl
    | succ i =>
      rw [latchChips, List.getElem?_cons_succ, List.getElem?_cons_succ, ih, Nat.add_right_comm, Nat.add_assoc]

/-- One bit of the encoder: each chip latches it (R48, R99). -/
theorem getElem?_busRun_bitEvents (c : Config) (lv : Lines Level) (r : Receiver) (b : Bool) (i : Nat) :
    (busRun c (lv, r) (bitEvents b)).2.chips[i]? = r.chips[i]?.map (Chip.latch c r.free i (Level.ofBool b)) := by
  have h := getElem?_latchChips c r.free (Level.ofBool b) 0 r.chips i
  rwa [Nat.zero_add] at h

/-- A chip that is not selected keeps everything while bits are sent (R47). -/
theorem busRun_bitsEvents_unselected (c : Config) {b : Lines Level × Receiver} (bs : List Bool) {i : Nat} {ch : Chip}
    (hch : b.2.chips[i]? = some ch) (hstage : ch.stage ≠ .low) :
    (busRun c b (bitsEvents bs)).2.chips[i]? = some ch := by
  induction bs generalizing b with
  | nil => exact hch
  | cons x bs ih =>
    rw [bitsEvents, busRun_append]
    refine ih ?_
    rw [getElem?_busRun_bitEvents c b.1 b.2, hch, Option.map_some, Chip.latch_unselected hstage]

/-- A selected chip collects the bits as long as none of them completes a frame (R48). -/
theorem busRun_bitsEvents_collect (c : Config) {b : Lines Level × Receiver} (bs : List Bool) {i : Nat} {ch : Chip}
    (hch : b.2.chips[i]? = some ch) (hstage : ch.stage = .low)
    (hquiet : ∀ m < bs.length, frameEffect c (ch.acc ++ (bs.take (m + 1)).map Level.ofBool) = .nothing) :
    (busRun c b (bitsEvents bs)).2.chips[i]? = some { ch with acc := ch.acc ++ bs.map Level.ofBool } := by
  induction bs generalizing b ch with
  | nil => simpa [bitsEvents] using hch
  | cons x bs ih =>
    have hfirst : frameEffect c (ch.acc ++ [Level.ofBool x]) = .nothing := by simpa using hquiet 0 (by simp)
    have hlatch : ∀ n, ch.latch c n i (Level.ofBool x) = { ch with acc := ch.acc ++ [Level.ofBool x] } := fun n => by
      rw [Chip.latch_selected hstage, hfirst]
      rfl
    rw [bitsEvents, busRun_append]
    have h := ih (b := busRun c b (bitEvents x)) (ch := { ch with acc := ch.acc ++ [Level.ofBool x] })
      (by rw [getElem?_busRun_bitEvents c b.1 b.2, hch, Option.map_some, hlatch]) hstage
      (fun m hm => by simpa using hquiet (m + 1) (by simpa using hm))
    simpa using h

/-! ### The write frame at its chip (R49, R59) -/

theorem natOfBitsFrom_bitsMsb (acc v n : Nat) : natOfBitsFrom acc (bitsMsb v n) = acc * 2 ^ n + v % 2 ^ n := by
  induction n generalizing acc with
  | zero => simp [bitsMsb, natOfBitsFrom, Nat.mod_one]
  | succ n ih =>
    rw [bitsMsb, natOfBitsFrom, ih, Nat.toNat_testBit, Nat.mod_pow_succ, pow_succ]
    ring

/-- A number sent most significant bit first is read back (R57). -/
theorem natOfBits_bitsMsb {v n : Nat} (hv : v < 2 ^ n) : natOfBits (bitsMsb v n) = v := by
  rw [natOfBits, natOfBitsFrom_bitsMsb, Nat.zero_mul, Nat.zero_add, Nat.mod_eq_of_lt hv]

@[simp] theorem bitsOfLevels_map_ofBool (bs : List Bool) : bitsOfLevels (bs.map Level.ofBool) = some bs := by
  induction bs with
  | nil => rfl
  | cons b bs ih => cases b <;> simp [bitsOfLevels, ih, Level.ofBool, Level.toBool?]

@[simp] theorem levelsToNat_map_ofBool (bs : List Bool) : levelsToNat (bs.map Level.ofBool) = some (natOfBits bs) := by
  simp [levelsToNat]

section WriteFrame

variable (c : Config)

/-- Bits that begin with OP_WRITE are taken as a write frame (R49). -/
theorem frameEffect_writeId (rest : List Bool) :
    frameEffect c ((bitsMsb c.opWrite.toNat c.idBits ++ rest).map Level.ofBool)
      = writeFrameEffect c ((bitsMsb c.opWrite.toNat c.idBits ++ rest).map Level.ofBool) := by
  have hid : ((bitsMsb c.opWrite.toNat c.idBits ++ rest).map Level.ofBool).take c.idBits
      = (bitsMsb c.opWrite.toNat c.idBits).map Level.ofBool := by
    rw [← List.map_take, List.take_left' (length_bitsMsb _ _)]
  rw [frameEffect, if_neg (by simp), hid, levelsToNat_map_ofBool]
  exact if_pos (natOfBits_bitsMsb c.opWrite.isLt)

/-- A write frame has no effect before its last bit (R49). -/
theorem frameEffect_take_writeBits {a d m : Nat} (hm : m < c.writeFrameBits) :
    frameEffect c (((writeBits c a d).take m).map Level.ofBool) = .nothing := by
  have hlen : (((writeBits c a d).take m).map Level.ofBool).length = m := by
    rw [List.length_map, List.length_take, length_writeBits]
    omega
  rcases Nat.lt_or_ge m c.idBits with h | h
  · exact if_pos (by rwa [hlen])
  · have hsplit : (writeBits c a d).take m = bitsMsb c.opWrite.toNat c.idBits
        ++ (bitsMsb a c.addrBits ++ bitsMsb d c.ledsPerCell).take (m - c.idBits) := by
      rw [writeBits, List.append_assoc, List.take_append, length_bitsMsb, List.take_of_length_le (by simpa using h)]
    rw [hsplit, frameEffect_writeId, ← hsplit]
    exact if_pos (by rwa [hlen])

/-- A complete write frame sets its cell (R49). -/
theorem frameEffect_writeBits {a d : Nat} (ha : a < c.cells) (hfit : a < 2 ^ c.addrBits) (hd : d < 2 ^ c.ledsPerCell) :
    frameEffect c ((writeBits c a d).map Level.ofBool) = .writeRam a d := by
  have hrest : ((writeBits c a d).map Level.ofBool).drop c.idBits
      = (bitsMsb a c.addrBits).map Level.ofBool ++ (bitsMsb d c.ledsPerCell).map Level.ofBool := by
    rw [writeBits, List.append_assoc, List.map_append, List.drop_left' (by simp), List.map_append]
  have hlen : ((writeBits c a d).map Level.ofBool).length = c.writeFrameBits := by
    rw [List.length_map, length_writeBits]
  have heffect : frameEffect c ((writeBits c a d).map Level.ofBool)
      = writeFrameEffect c ((writeBits c a d).map Level.ofBool) := by
    rw [writeBits, List.append_assoc]
    exact frameEffect_writeId c _
  rw [heffect]
  simp only [writeFrameEffect, hlen, lt_irrefl, if_false, if_true, hrest]
  rw [List.take_left' (by simp), List.drop_left' (by simp), levelsToNat_map_ofBool, levelsToNat_map_ofBool,
    natOfBits_bitsMsb hfit, natOfBits_bitsMsb hd]
  exact if_pos ha

theorem bitsEvents_append (bs bs' : List Bool) : bitsEvents (bs ++ bs') = bitsEvents bs ++ bitsEvents bs' := by
  induction bs with
  | nil => rfl
  | cons b bs ih => rw [List.cons_append, bitsEvents, bitsEvents, ih, List.append_assoc]

/-- A selected chip with an empty accumulator takes a write frame: its cell is set, and its bits stay in the
accumulator (R48, R49). -/
theorem busRun_writeBits_selected {b : Lines Level × Receiver} {i : Nat} {ch : Chip} (hch : b.2.chips[i]? = some ch)
    (hstage : ch.stage = .low) (hacc : ch.acc = []) {a d : Nat} (ha : a < c.cells) (hfit : a < 2 ^ c.addrBits)
    (hd : d < 2 ^ c.ledsPerCell) :
    (busRun c b (bitsEvents (writeBits c a d))).2.chips[i]?
      = some { ch with
          acc := (writeBits c a d).map Level.ofBool
          ram := Memory.write a (BitVec.ofNat 8 d) ch.ram } := by
  have hlen := length_writeBits c a d
  obtain hnil | ⟨front, last, hbits⟩ := List.eq_nil_or_concat' (writeBits c a d)
  · have hpos : 0 < c.writeFrameBits := by
      have hid := c.idBits_pos
      unfold Config.writeFrameBits
      omega
    rw [hnil, List.length_nil] at hlen
    omega
  · rw [hbits, List.length_append, List.length_singleton] at hlen
    have hquiet : ∀ m < front.length,
        frameEffect c (ch.acc ++ (front.take (m + 1)).map Level.ofBool) = .nothing := fun m hm => by
      have h := frameEffect_take_writeBits c (a := a) (d := d) (m := m + 1) (by omega)
      rwa [hbits, List.take_append_of_le_length (by omega), ← List.nil_append (List.map _ _), ← hacc] at h
    have hfront := busRun_bitsEvents_collect c front hch hstage hquiet
    have hlast := getElem?_busRun_bitEvents c (busRun c b (bitsEvents front)).1 (busRun c b (bitsEvents front)).2 last i
    have heffect := frameEffect_writeBits c ha hfit hd
    rw [hbits, List.map_append, List.map_singleton] at heffect
    rw [hbits, bitsEvents_append, busRun_append, bitsEvents, bitsEvents, List.append_nil, hlast, hfront,
      Option.map_some, Chip.latch_selected (ch := { ch with acc := ch.acc ++ front.map Level.ofBool }) hstage]
    simp only [hacc, List.nil_append, heffect, List.map_append, List.map_singleton]
    rfl

end WriteFrame

/-! ### SENDDATA at the display RAMs (R101) -/

theorem sendDataEvents_eq (c : Config) (k a d : Nat) :
    sendDataEvents c k a d = selectEvents c.chips k ++ bitsEvents (writeBits c a d) := by
  simp only [sendDataEvents, sendBitsEvents, writeBits, bitsEvents_append, List.append_assoc]

theorem State.ram_of_getElem? {s : State} {i : Nat} {ch : Chip} (h : s.rx.chips[i]? = some ch) (a : Nat) :
    s.ram (i + 1) a = Memory.read ch.ram a := by
  rw [State.ram, Nat.add_sub_cancel, h]

/-- A chip after SELECT(k): its display RAM as before, selected exactly when it is the one, and then with an empty
accumulator (R98). -/
theorem getElem?_of_select {cs cs' : List Chip} {n k i : Nat} (hsame : SameContents cs cs')
    (hstages : cs'.map (·.stage) = selectedOnly n k) (hempty : SelectedEmpty cs') {ch : Chip} (hch : cs[i]? = some ch) :
    ∃ ch', cs'[i]? = some ch' ∧ ch'.ram = ch.ram ∧ ch'.stage = (if i + 1 = k then .low else .high)
      ∧ (i + 1 = k → ch'.acc = []) := by
  have hram : cs'[i]?.map (·.ram) = some ch.ram := by
    rw [← List.getElem?_map, hsame.1, List.getElem?_map, hch]
    rfl
  obtain ⟨ch', hch', hram⟩ := Option.map_eq_some_iff.1 hram
  have hstage : ch'.stage = if i + 1 = k then .low else .high := by
    have h : (cs'.map (·.stage))[i]? = some ch'.stage := by rw [List.getElem?_map, hch', Option.map_some]
    rw [hstages, selectedOnly, List.getElem?_map] at h
    obtain ⟨j, hj, heq⟩ := Option.map_eq_some_iff.1 h
    obtain ⟨hlt, hji⟩ := List.getElem?_eq_some_iff.1 hj
    rw [List.getElem_range] at hji
    rw [← heq, ← hji]
  refine ⟨ch', hch', hram, hstage, fun hk => hempty ch' (List.mem_of_getElem? hch') ?_⟩
  rw [hstage, if_pos hk]

/-- SENDDATA sets one cell of one display RAM, and nothing else of any (R49, R98, R101). -/
theorem ram_sendData {s : State} (hs : s.wf) (hclk : s.levels.clk = .low) {k a d : Nat} (ha : a < s.cfg.cells)
    (hd : d < 2 ^ s.cfg.ledsPerCell) {i : Nat} (hi : i < s.cfg.chips) (a' : Nat) :
    (s.sendData k a d).ram (i + 1) a' = if i + 1 = k ∧ a' = a then BitVec.ofNat 8 d else s.ram (i + 1) a' := by
  obtain ⟨hw, -, -, hlen, hramWf⟩ := hs
  have hfit : a < 2 ^ s.cfg.addrBits := lt_of_lt_of_le ha (Config.cells_le_two_pow hw)
  obtain ⟨ch, hch⟩ : ∃ ch, s.rx.chips[i]? = some ch := ⟨_, List.getElem?_eq_getElem (by omega)⟩
  obtain ⟨cs, hrun, hsame, hstages, hempty⟩ := busRun_selectEvents s.cfg hclk (r := s.rx) (k := k) hlen
  obtain ⟨ch', hch', hram', hstage', hacc'⟩ := getElem?_of_select hsame hstages hempty hch
  have hrx : (s.sendData k a d).rx
      = (busRun s.cfg ({ s.levels with cs := .high }, { s.rx with chips := cs })
          (bitsEvents (writeBits s.cfg a d))).2 := by
    rw [State.sendData_eq, State.emit_rx, sendDataEvents_eq, busRun_append, hrun]
  by_cases hk : i + 1 = k
  · rw [if_pos hk] at hstage'
    have h := busRun_writeBits_selected s.cfg (b := ({ s.levels with cs := .high }, { s.rx with chips := cs })) hch'
      hstage' (hacc' hk) ha hfit hd
    obtain ⟨hwf, -⟩ := hramWf ch (List.mem_of_getElem? hch)
    rw [← hrx] at h
    rw [State.ram_of_getElem? h, State.ram_of_getElem? hch, hram', Memory.read_write _ _ _ hwf]
    simp only [hk, true_and]
  · rw [if_neg hk] at hstage'
    have h := busRun_bitsEvents_unselected s.cfg (b := ({ s.levels with cs := .high }, { s.rx with chips := cs }))
      (writeBits s.cfg a d) hch' (by rw [hstage']; exact nofun)
    rw [← hrx] at h
    rw [State.ram_of_getElem? h, State.ram_of_getElem? hch, hram', if_neg fun h => hk h.1]

end Sys2Proof.Machine
end

