-- ==== Sys2Proof/Proofs/Coherence.lean ====
section
/-! PROOFS. Host operations keep clean cells equal to the chips' cells (O48): PLOT and CLEAR change a cell only under
its flag, COMMIT sends a cell before it clears its flag, and INIT's COMMIT finds every flag set. -/

namespace Sys2Proof.Machine

open Sys2Proof

/-! ### PLOT and CLEAR (R15, R43) -/

/-- PLOT and CLEAR change the frame buffer alone. -/
theorem exec_bufferOp_eq {s t : State} {i : Instr} (hi : (∃ x y color, i = .plot x y color) ∨ i = .clear)
    (h : exec i s = .next t) : t = { s with fb := t.fb } := by
  obtain ⟨x, y, color, rfl⟩ | rfl := hi
  · obtain ⟨-, -, hb⟩ := execPlot_next h
    rcases plotBody_next hb with rfl | ⟨-, rfl, -⟩ <;> rfl
  · obtain ⟨-, -, rfl⟩ := execClear_next h
    rfl

/-- A cell whose flag is clear afterwards was not touched, nor was its chip. -/
theorem cleanCellsMatch_bufferOp {s t : State} {i : Instr} (hs : s.wf)
    (hi : (∃ x y color, i = .plot x y color) ∨ i = .clear) (h : exec i s = .next t) (hclean : s.cleanCellsMatch) :
    t.cleanCellsMatch := by
  have hkey := plotAndClearOnlySetFlags s t i hs hi h
  rw [exec_bufferOp_eq hi h]
  intro a ha chip hchip hflag
  rcases hkey (cellKey s.cfg a chip) with hsame | ⟨hset, -⟩
  · have hcell : ({ s with fb := t.fb } : State).cell a chip = s.cell a chip := hsame
    rw [hcell] at hflag ⊢
    exact hclean a ha chip hchip hflag
  · exact absurd (hset.symm.trans hflag) nofun

/-! ### COMMIT (R89) -/

/-- What COMMIT keeps from visit to visit. -/
structure Committing (s : State) : Prop where
  wf : s.wf
  idle : IdleLevels s.levels
  clean : s.cleanCellsMatch

theorem commitCell_wf {s : State} (hs : s.wf) {p : Nat × Nat} (hp : p ∈ scanOrder s.cfg) : (s.commitCell p).wf := by
  obtain ⟨hw, hm, hbelow, -⟩ := id hs
  obtain ⟨es, -, hes⟩ := (transmits_commitCell s p).emits
  refine hes.wf hs (State.commitCell_fb_wf hm) fun q hq => ?_
  rcases mem_commitCell_fb hq with hq | ⟨hk, -⟩
  · exact hbelow q hq
  · obtain ⟨ha, hchip⟩ := (mem_scanOrder hw).1 hp
    exact hk ▸ cellKey_lt_size ha hchip

/-- A frame buffer write touches no chip. -/
@[simp] theorem State.setCell_ram (s : State) (a chip : Nat) (v : Byte) (k a' : Nat) :
    (s.setCell a chip v).ram k a' = s.ram k a' := rfl

/-- The display RAMs after the visit of a dirty cell: the cell's data at its chip (R49, R89). -/
theorem ram_commitCell {s : State} (hs : s.wf) (hidle : IdleLevels s.levels) {a chip : Nat} (ha : a < s.cfg.cells)
    (hdirty : modified (s.cell a chip) = true) {i : Nat} (hi : i < s.cfg.chips) (a' : Nat) :
    (s.commitCell (a, chip)).ram (i + 1) a'
      = if i = chip ∧ a' = a then cellData s.cfg (s.cell a chip) else s.ram (i + 1) a' := by
  obtain ⟨hw, -⟩ := id hs
  obtain ⟨hclk, -⟩ := hidle
  have h := ram_sendData hs hclk (k := chip + 1) ha (toNat_cellData_lt (Config.wf_leds hw) (s.cell a chip)) hi a'
  rw [BitVec.ofNat_toNat, BitVec.setWidth_eq] at h
  rw [State.commitCell_dirty (p := (a, chip)) hdirty, State.setCell_ram, h]
  simp only [Nat.add_right_cancel_iff]

/-- A visit keeps coherence: the cell it cleans has just been sent, and the others and their chips stay (R89). -/
theorem cleanCellsMatch_commitCell {s : State} (hs : Committing s) {p : Nat × Nat} (hp : p ∈ scanOrder s.cfg) :
    (s.commitCell p).cleanCellsMatch := by
  obtain ⟨a, chip⟩ := p
  obtain ⟨hwf, hidle, hclean⟩ := hs
  obtain ⟨hw, hm, -⟩ := id hwf
  obtain ⟨ha, hchip⟩ := (mem_scanOrder hw).1 hp
  cases hdirty : modified (s.cell a chip) with
  | false =>
    rw [State.commitCell_clean (p := (a, chip)) hdirty]
    exact hclean
  | true =>
    intro a' ha' chip' hchip' hflag
    rw [State.commitCell_cfg] at ha' hchip' ⊢
    have hread : (s.commitCell (a, chip)).cell a' chip'
        = if cellKey s.cfg a' chip' = cellKey s.cfg a chip then sentCell s.cfg (s.cell a' chip')
          else s.cell a' chip' := by
      rw [State.cell, State.commitCell_cfg]
      exact read_commitCell hm (a, chip) _
    rw [ram_commitCell hwf hidle ha hdirty hchip' a']
    by_cases hsame : chip' = chip ∧ a' = a
    · obtain ⟨rfl, rfl⟩ := hsame
      rw [hread, if_pos rfl, if_pos ⟨rfl, rfl⟩, sentCell_of_modified hdirty, cellData_cellData]
    · have hkey : cellKey s.cfg a' chip' ≠ cellKey s.cfg a chip := fun h => by
        obtain ⟨rfl, rfl⟩ := cellKey_inj hchip' hchip h
        exact hsame ⟨rfl, rfl⟩
      rw [hread, if_neg hkey] at hflag ⊢
      rw [if_neg hsame]
      exact hclean a' ha' chip' hchip' hflag

theorem committing_commitCell {s : State} (hs : Committing s) {p : Nat × Nat} (hp : p ∈ scanOrder s.cfg) :
    Committing (s.commitCell p) :=
  ⟨commitCell_wf hs.wf hp, (transmits_commitCell s p).idle hs.idle, cleanCellsMatch_commitCell hs hp⟩

theorem committing_commitBody {s : State} (hs : Committing s) : Committing s.commitBody :=
  commitBody_keeps_of_mem (fun _ _ hp hc ht => committing_commitCell ht (hc ▸ hp)) hs

/-! ### INIT (R109 to R111) -/

/-- Before INIT's COMMIT no cell is clean, so coherence asks nothing. -/
theorem committing_blankBody {s : State} (hs : s.wf) : Committing s.blankBody := by
  obtain ⟨hw, hm, hbelow, -⟩ := id hs
  obtain ⟨-, es, htr, hes⟩ := blankBody_emits s
  refine ⟨hes.wf hs (State.blankBody_fb_wf hm) (blankBody_below hw hbelow), ?_, fun a ha chip hchip hflag => ?_⟩
  · rw [hes.levels]
    exact htr.idle_after_idleEvents _
  · have hset : modified (s.blankBody.cell a chip) = true := by
      rw [State.cell, State.blankBody_cfg]
      rw [State.blankBody_cfg] at ha hchip
      exact modified_blankBody hw hm (cellKey_lt_size ha hchip)
    exact absurd (hset.symm.trans hflag) nofun

theorem initBody_cleanCellsMatch {s : State} (hs : s.wf) : s.initBody.cleanCellsMatch :=
  (committing_commitBody (committing_blankBody hs)).clean

/-! ### The step -/

/-- Every host operation keeps coherence. -/
theorem cleanCellsMatch_exec {s t : State} {i : Instr} (hs : s.Inv) (hclean : s.inited = true → s.cleanCellsMatch)
    (hop : i.isHostOp = true) (h : exec i s = .next t) : t.cleanCellsMatch := by
  obtain ⟨hwf, hinit⟩ := hs
  cases i with
  | init =>
    obtain ⟨-, rfl⟩ := execInit_next h
    exact initBody_cleanCellsMatch hwf
  | plot x y color =>
    obtain ⟨-, hi, -⟩ := execPlot_next h
    exact cleanCellsMatch_bufferOp hwf (.inl ⟨x, y, color, rfl⟩) h (hclean hi)
  | clear =>
    obtain ⟨-, hi, -⟩ := execClear_next h
    exact cleanCellsMatch_bufferOp hwf (.inr rfl) h (hclean hi)
  | commit =>
    obtain ⟨-, hi, rfl⟩ := execCommit_next h
    obtain ⟨hidle, -⟩ := hinit hi
    exact (committing_commitBody ⟨hwf, hidle, hclean hi⟩).clean
  | _ => cases hop

/-- Settles O48: with host requests and reset events pending, the machine invariant is O46's and every host operation
keeps coherence. -/
theorem hostStepsKeepCoherence : Obligations.HostStepsKeepCoherence := by
  rintro s t ⟨hinv, hreq, hclean⟩ h
  have htinv := stepKeepsTheMachineInvariant s t hinv h
  obtain ⟨-, ⟨-, rfl⟩ | ⟨r, rest, i, hp, hd, h⟩ | ⟨r, rest, hp, -, rfl⟩⟩ := step_cases h
  · exact ⟨htinv, hreq, hclean⟩
  · obtain ⟨hr, hrest⟩ := hostRequestsOnly_cons (hp ▸ hreq)
    obtain ⟨es, hes⟩ := exec_emits h
    refine ⟨htinv, hes.pending ▸ hrest, fun _ => ?_⟩
    exact cleanCellsMatch_exec (s := { s with pending := rest }) hinv hclean (decodeRequest_isHostOp hr hd) h
  · exact ⟨htinv, (hostRequestsOnly_cons (hp ▸ hreq)).2, nofun⟩

end Sys2Proof.Machine
end

