-- ==== Sys2Proof/Proofs/ReceiverEvents.lean ====
section
/-! PROOFS. The reference receiver event by event: what one event does to the stages (O29) and to one chip (O30), and
what SELECT does to every accumulator (O52). -/

namespace Sys2Proof.Machine

open Sys2Proof

/-! ### One chip of the chain -/

/-- A shift of the chain is a stage change of each chip (R46). -/
theorem getElem?_shiftChain {v : Level} {cs : List Chip} {j : Nat} {ch : Chip} (h : cs[j]? = some ch) :
    ∃ u, (shiftChain v cs)[j]? = some (ch.setStage u) := by
  induction cs generalizing v j with
  | nil => cases h
  | cons c cs ih =>
    cases j with
    | zero => exact ⟨v, congrArg (Option.map (Chip.setStage v)) h⟩
    | succ j => exact ih h

/-- So is the shift of unknown effect (R46). -/
theorem getElem?_scrambleChain {n k : Nat} {cs : List Chip} {j : Nat} {ch : Chip} (h : cs[j]? = some ch) :
    ∃ u, (scrambleChain n k cs)[j]? = some (ch.setStage u) := by
  induction cs generalizing k j with
  | nil => cases h
  | cons c cs ih =>
    cases j with
    | zero => exact ⟨_, congrArg (Option.map (Chip.setStage (freeStageLevel n k))) h⟩
    | succ j => exact ih h

theorem getElem?_strayChips (n : Nat) (d : Level) (k : Nat) (cs : List Chip) (j : Nat) :
    (strayChips n d k cs)[j]? = cs[j]?.map (Chip.strayLatch n (k + j) d) := by
  induction cs generalizing k j with
  | nil => rfl
  | cons ch cs ih =>
    cases j with
    | zero => rfl
    | succ j => rw [strayChips, List.getElem?_cons_succ, List.getElem?_cons_succ, ih, Nat.add_right_comm, Nat.add_assoc]

theorem map_stage_latchChips (c : Config) (n : Nat) (d : Level) (k : Nat) (cs : List Chip) :
    (latchChips c n d k cs).map (·.stage) = cs.map (·.stage) := by
  induction cs generalizing k with
  | nil => rfl
  | cons ch cs ih => simp [latchChips, ih]

theorem map_stage_strayChips (n : Nat) (d : Level) (k : Nat) (cs : List Chip) :
    (strayChips n d k cs).map (·.stage) = cs.map (·.stage) := by
  induction cs generalizing k with
  | nil => rfl
  | cons ch cs ih => simp [strayChips, ih]

section OneEvent

variable {c : Config} {lv : Lines Level} {r : Receiver} {e : Event}

/-- Only a `Set` to 1 of CLK or of WR does anything at the receiver (R46, R48). -/
theorem Receiver.take_other (hclk : e ≠ .set .clk true) (hwr : e ≠ .set .wr true) : r.take c lv e = r := by
  unfold Receiver.take
  split
  · exact absurd rfl hclk
  · exact absurd rfl hwr
  all_goals rfl

/-- A `Set(WR, 1)` changes no stage (R47, R48). -/
theorem Receiver.stages_wrHigh (c : Config) (lv : Lines Level) (r : Receiver) : (r.wrHigh c lv).stages = r.stages := by
  unfold Receiver.wrHigh
  split
  · exact map_stage_latchChips _ _ _ _ _
  · rfl
  · exact map_stage_strayChips _ _ _ _

/-- Only a `Set(CLK, 1)` changes a stage (R46). -/
theorem Receiver.stages_take (he : e ≠ .set .clk true) : (r.take c lv e).stages = r.stages := by
  by_cases hwr : e = .set .wr true
  · subst hwr
    exact r.stages_wrHigh c lv
  · rw [Receiver.take_other he hwr]

/-- Everything a `Set(CLK, 1)` can do to a chip: a stage change, the one to its own stage being none (R46, R48). -/
theorem Receiver.clkHigh_chip {j : Nat} {ch ch' : Chip} (hch : r.chips[j]? = some ch)
    (hch' : (r.clkHigh lv).chips[j]? = some ch') : ∃ v, ch' = ch.setStage v := by
  unfold Receiver.clkHigh at hch'
  split at hch'
  · obtain ⟨v, hv⟩ := getElem?_shiftChain (v := lv.cs) hch
    exact ⟨v, Option.some.inj (hch'.symm.trans hv)⟩
  · exact ⟨ch.stage, (Option.some.inj (hch'.symm.trans hch)).trans (Chip.setStage_same rfl).symm⟩
  · obtain ⟨v, hv⟩ := getElem?_scrambleChain (n := r.free) (k := 0) hch
    exact ⟨v, Option.some.inj (hch'.symm.trans hv)⟩

/-- Everything one event can do to a chip: a latch at a rise of WR, a stray latch at a WR driven high from an unknown
level, and otherwise a stage change at most (R46, R48, R136). -/
theorem Receiver.take_chip {j : Nat} {ch ch' : Chip} (hch : r.chips[j]? = some ch)
    (hch' : (r.take c lv e).chips[j]? = some ch') :
    (e = .set .wr true ∧ lv.wr = .low ∧ ∃ n, ch' = ch.latch c n j lv.data)
      ∨ (e = .set .wr true ∧ lv.wr = .unknown ∧ ∃ n, ch' = ch.strayLatch n j lv.data)
      ∨ ((e ≠ .set .wr true ∨ lv.wr = .high) ∧ ∃ v, ch' = ch.setStage v) := by
  have hsame (h : r.chips[j]? = some ch') : ∃ v, ch' = ch.setStage v :=
    ⟨ch.stage, (Option.some.inj (h.symm.trans hch)).trans (Chip.setStage_same rfl).symm⟩
  by_cases hwr : e = .set .wr true
  · subst hwr
    rw [show r.take c lv (.set .wr true) = r.wrHigh c lv from rfl, Receiver.wrHigh] at hch'
    split at hch'
    case h_1 hlow =>
      rw [getElem?_latchChips, hch, Option.map_some, Nat.zero_add] at hch'
      exact .inl ⟨rfl, hlow, _, (Option.some.inj hch').symm⟩
    case h_2 hhigh => exact .inr (.inr ⟨.inr hhigh, hsame hch'⟩)
    case h_3 hunknown =>
      rw [getElem?_strayChips, hch, Option.map_some, Nat.zero_add] at hch'
      exact .inr (.inl ⟨rfl, hunknown, _, (Option.some.inj hch').symm⟩)
  · refine .inr (.inr ⟨.inl hwr, ?_⟩)
    by_cases hclk : e = .set .clk true
    · subst hclk
      exact Receiver.clkHigh_chip hch hch'
    · rw [Receiver.take_other hclk hwr] at hch'
      exact hsame hch'

end OneEvent

/-- Settles O29: by the level CLK had, and no event but a `Set(CLK, 1)` touches the chain. -/
theorem chainShiftsOnClkRise : Obligations.ChainShiftsOnClkRise := by
  refine fun c lv r => ⟨fun hlow => ?_, fun hhigh => ?_, fun e => Receiver.stages_take⟩
  · have htake : r.take c lv (.set .clk true) = { r with chips := shiftChain lv.cs r.chips } := by
      simp only [Receiver.take, Receiver.clkHigh, hlow]
    rw [htake, Receiver.stages, Receiver.stages, stages_shiftChain, List.length_map]
  · simp only [Receiver.take, Receiver.clkHigh, hhigh]

/-- Settles O30: by the three things an event can do to a chip. -/
theorem accumulatorsLatchOnWrRise : Obligations.AccumulatorsLatchOnWrRise := by
  intro c lv r e j ch ch' hch hch'
  rcases Receiver.take_chip hch hch' with ⟨rfl, hwr, n, rfl⟩ | ⟨rfl, hwr, n, rfl⟩ | ⟨hno, v, rfl⟩
  · refine ⟨fun h => absurd (Chip.latch_stage ..) h, fun _ => ⟨fun _ _ hlow => ?_, ?_, ?_, fun hno => ?_⟩⟩
    · rw [Chip.latch_selected hlow, Chip.takeEffect_acc]
    · simp [hwr]
    · simp [hwr]
    · have hstage : ch.stage ≠ .low := fun hlow => by simp [hwr, hlow] at hno
      rw [Chip.latch_unselected hstage]
  · refine ⟨fun h => absurd (Chip.strayLatch_stage ..) h, fun _ => ⟨?_, fun _ _ _ => ?_, fun _ _ => ?_, fun hno => ?_⟩⟩
    · simp [hwr]
    · rcases ch.strayLatch_cases n j lv.data with h | ⟨-, h⟩
      · exact .inl (congrArg Chip.acc h)
      · exact .inr (congrArg Chip.acc h)
    · exact ⟨Chip.strayLatch_ram .., Chip.strayLatch_log ..⟩
    · have hstage : ch.stage = .high := by simpa [hwr] using hno
      rw [Chip.strayLatch_unselected hstage]
  · rw [Chip.setStage_stage, Chip.setStage_acc]
    refine ⟨fun hne => if_neg (Ne.symm hne), fun heq => ?_⟩
    have hacc : (if ch.stage = v then ch.acc else []) = ch.acc := if_pos heq.symm
    rw [hacc]
    have hwr (he : e = .set .wr true) : lv.wr = .high := hno.resolve_left (not_not_intro he)
    refine ⟨fun he hlow => ?_, fun he hunknown => ?_, fun he hunknown => ?_, fun _ => rfl⟩
    · exact absurd ((hwr he).symm.trans hlow) nofun
    · exact absurd ((hwr he).symm.trans hunknown) nofun
    · exact absurd ((hwr he).symm.trans hunknown) nofun

/-! ### The accumulators under SELECT (R51, R136) -/

/-- Every deselected chip's accumulator is empty. -/
def DeselectedEmpty (cs : List Chip) : Prop := ∀ ch ∈ cs, ch.stage = .high → ch.acc = []

/-- A chip that becomes deselected does so with an empty accumulator (R48). -/
theorem deselectedEmpty_shiftChain (v : Level) (cs : List Chip) (h : DeselectedEmpty cs) :
    DeselectedEmpty (shiftChain v cs) := by
  induction cs generalizing v with
  | nil => exact h
  | cons c cs ih =>
    obtain ⟨hc, hcs⟩ := List.forall_mem_cons.1 h
    refine List.forall_mem_cons.2 ⟨fun hhigh => ?_, ih _ hcs⟩
    rw [Chip.setStage_stage] at hhigh
    rw [Chip.setStage_acc, hhigh]
    split
    · exact hc ‹_›
    · rfl

theorem iterate_shiftChain_keeps {P : List Chip → Prop} (hP : ∀ v cs, P cs → P (shiftChain v cs)) (v : Level) (n : Nat)
    {cs : List Chip} (h : P cs) : P ((shiftChain v)^[n] cs) := by
  induction n with
  | zero => exact h
  | succ n ih =>
    rw [Function.iterate_succ_apply']
    exact hP v _ ih

/-- What every shift of the chain keeps, SELECT keeps: from CLK low it only shifts (R46, R95, R96). -/
theorem busRun_selectEvents_keeps {P : List Chip → Prop} (hP : ∀ v cs, P cs → P (shiftChain v cs)) (c : Config)
    {lv : Lines Level} (hclk : lv.clk = .low) (n k : Nat) {r : Receiver} (h : P r.chips) :
    P (busRun c (lv, r) (selectEvents n k)).2.chips := by
  cases k with
  | zero =>
    rw [selectEvents, busRun_flushEvents c hclk]
    exact iterate_shiftChain_keeps hP _ _ h
  | succ k =>
    rw [busRun_selectEvents_succ c hclk]
    exact iterate_shiftChain_keeps hP _ _ (hP _ _ (iterate_shiftChain_keeps hP _ _ h))

theorem mem_selectedOnly {l : Level} {n k : Nat} (h : l ∈ selectedOnly n k) : l = .low ∨ l = .high := by
  obtain ⟨i, -, rfl⟩ := List.mem_map.1 h
  split
  · exact .inl rfl
  · exact .inr rfl

/-- Settles O52: SELECT leaves each chip selected or deselected, and the accumulators of either kind empty. -/
theorem selectEmptiesTheAccumulators : Obligations.SelectEmptiesTheAccumulators := by
  intro c lv r k hclk hlen _ hempty ch hch
  have hdeselected := busRun_selectEvents_keeps deselectedEmpty_shiftChain c hclk c.chips k hempty
  obtain ⟨cs, hrun, -, hstages, hselected⟩ := busRun_selectEvents c hclk (k := k) hlen
  rw [hrun] at hdeselected hch
  have hstage : ch.stage ∈ selectedOnly c.chips k := hstages ▸ List.mem_map_of_mem hch
  rcases mem_selectedOnly hstage with hlow | hhigh
  · exact hselected ch hch hlow
  · exact hdeselected ch hch hhigh

end Sys2Proof.Machine
end

