-- ==== Sys2Proof/Proofs/Transactions.lean ====
section
/-! PROOFS. One bus transaction at the reference receiver: the selected chip takes the frame's effect and no other chip
changes. From it what a command frame (O26) and a write frame (O28) do to the chips. -/

namespace Sys2Proof.Machine

open Sys2Proof

/-! ### Reading the chips -/

theorem State.cmdlog_of_getElem? {s : State} {i : Nat} {ch : Chip} (h : s.rx.chips[i]? = some ch) :
    s.cmdlog i = ch.log := by
  rw [State.cmdlog, h]

/-- The command logs of two states whose chips hold the same logs. -/
theorem State.cmdlog_congr {s t : State} (h : t.rx.chips.map (·.log) = s.rx.chips.map (·.log)) (i : Nat) :
    t.cmdlog i = s.cmdlog i := by
  have hread (u : State) : u.cmdlog i = ((u.rx.chips.map (·.log))[i]?).getD [] := by
    rw [State.cmdlog, List.getElem?_map]
    cases u.rx.chips[i]? <;> rfl
  rw [hread, hread, h]

/-- The display RAMs of two states whose chips hold the same display RAMs. -/
theorem State.ram_congr {s t : State} (h : t.rx.chips.map (·.ram) = s.rx.chips.map (·.ram)) (k a : Nat) :
    t.ram k a = s.ram k a := by
  have hread (u : State) :
      u.ram k a = ((u.rx.chips.map (·.ram))[k - 1]?).elim Memory.unlisted (Memory.read · a) := by
    rw [State.ram, List.getElem?_map]
    cases u.rx.chips[k - 1]? <;> rfl
  rw [hread, hread, h]

theorem map_eq_of_getElem? {β : Type} {f : Chip → β} {cs cs' : List Chip} (hlen : cs'.length = cs.length)
    (h : ∀ (i : Nat) (ch : Chip), cs[i]? = some ch → ∃ ch', cs'[i]? = some ch' ∧ f ch' = f ch) :
    cs'.map f = cs.map f := by
  refine List.ext_getElem? fun i => ?_
  rw [List.getElem?_map, List.getElem?_map]
  cases hi : cs[i]? with
  | none => rw [List.getElem?_eq_none (by rw [hlen]; exact List.getElem?_eq_none_iff.1 hi), Option.map_none]
  | some ch =>
    obtain ⟨ch', hch', hf⟩ := h i ch hi
    rw [hch', Option.map_some, Option.map_some, hf]

/-! ### Frames -/

/-- The bits are a frame with the effect `e` at the chip that takes them: the last bit has it, and no earlier one has
any (R49, R50). -/
structure IsFrame (c : Config) (bs : List Bool) (e : FrameEffect) : Prop where
  pos : 0 < bs.length
  quiet : ∀ m < bs.length, frameEffect c ((bs.take m).map Level.ofBool) = .nothing
  effect : frameEffect c (bs.map Level.ofBool) = e

theorem writeFrameBits_pos (c : Config) : 0 < c.writeFrameBits := by
  have hid := c.idBits_pos
  unfold Config.writeFrameBits
  omega

theorem cmdFrameBits_pos (c : Config) : 0 < c.cmdFrameBits := by
  have hid := c.idBits_pos
  unfold Config.cmdFrameBits
  omega

/-- A write frame sets its cell (R49). -/
theorem isFrame_writeBits (c : Config) {a d : Nat} (ha : a < c.cells) (hfit : a < 2 ^ c.addrBits)
    (hd : d < 2 ^ c.ledsPerCell) : IsFrame c (writeBits c a d) (.writeRam a d) where
  pos := by
    rw [length_writeBits]
    exact writeFrameBits_pos c
  quiet m hm := frameEffect_take_writeBits c (by rwa [length_writeBits] at hm)
  effect := frameEffect_writeBits c ha hfit hd

/-- Bits that begin with OP_COMMAND are taken as a command frame (R50). -/
theorem frameEffect_commandId (c : Config) (rest : List Bool) :
    frameEffect c ((bitsMsb c.opCommand.toNat c.idBits ++ rest).map Level.ofBool)
      = commandFrameEffect c ((bitsMsb c.opCommand.toNat c.idBits ++ rest).map Level.ofBool) := by
  have hid : ((bitsMsb c.opCommand.toNat c.idBits ++ rest).map Level.ofBool).take c.idBits
      = (bitsMsb c.opCommand.toNat c.idBits).map Level.ofBool := by
    rw [← List.map_take, List.take_left' (length_bitsMsb _ _)]
  have hdiffer : c.opCommand.toNat ≠ c.opWrite.toNat := fun h => c.idsDiffer (BitVec.eq_of_toNat_eq h)
  rw [frameEffect, if_neg (by simp), hid, levelsToNat_map_ofBool]
  simp only [natOfBits_bitsMsb c.opCommand.isLt, hdiffer, if_false, if_true]

/-- A command frame logs its payload (R50). -/
theorem isFrame_commandBits (c : Config) {p : Nat} (hp : p < 2 ^ c.cmdPayloadBits) :
    IsFrame c (commandBits c p) (.logCommand p) where
  pos := by
    rw [length_commandBits]
    exact cmdFrameBits_pos c
  quiet m hm := by
    rw [length_commandBits] at hm
    have hlen : (((commandBits c p).take m).map Level.ofBool).length = m := by
      rw [List.length_map, List.length_take, length_commandBits]
      omega
    rcases Nat.lt_or_ge m c.idBits with h | h
    · exact if_pos (by rwa [hlen])
    · have hsplit : (commandBits c p).take m = bitsMsb c.opCommand.toNat c.idBits
          ++ (bitsMsb p c.cmdPayloadBits ++ bitsMsb c.padValue.toNat c.cmdPadBits).take (m - c.idBits) := by
        rw [commandBits, List.append_assoc, List.take_append, length_bitsMsb,
          List.take_of_length_le (by simpa using h)]
      rw [hsplit, frameEffect_commandId, ← hsplit]
      exact if_neg (by rw [hlen]; exact hm.ne)
  effect := by
    have hlen : ((commandBits c p).map Level.ofBool).length = c.cmdFrameBits := by
      rw [List.length_map, length_commandBits]
    have hpayload : (((commandBits c p).map Level.ofBool).drop c.idBits).take c.cmdPayloadBits
        = (bitsMsb p c.cmdPayloadBits).map Level.ofBool := by
      rw [commandBits, List.append_assoc, ← List.map_drop, List.drop_left' (length_bitsMsb _ _), ← List.map_take,
        List.take_left' (length_bitsMsb _ _)]
    have heffect : frameEffect c ((commandBits c p).map Level.ofBool)
        = commandFrameEffect c ((commandBits c p).map Level.ofBool) := by
      rw [commandBits, List.append_assoc]
      exact frameEffect_commandId c _
    rw [heffect, commandFrameEffect, if_pos hlen, hpayload, levelsToNat_map_ofBool]
    simp only [natOfBits_bitsMsb hp]

/-- A selected chip with an empty accumulator takes a frame's effect (R48 to R50). -/
theorem busRun_bitsEvents_frame (c : Config) {b : Lines Level × Receiver} {i : Nat} {ch : Chip}
    (hch : b.2.chips[i]? = some ch) (hstage : ch.stage = .low) (hacc : ch.acc = []) {bs : List Bool} {e : FrameEffect}
    (hframe : IsFrame c bs e) :
    ∃ n, (busRun c b (bitsEvents bs)).2.chips[i]?
      = some (({ ch with acc := bs.map Level.ofBool } : Chip).takeEffect c n i e) := by
  obtain ⟨hpos, hquiet, heffect⟩ := hframe
  obtain rfl | ⟨front, last, rfl⟩ := List.eq_nil_or_concat' bs
  · exact absurd hpos (Nat.lt_irrefl 0)
  · rw [List.length_append, List.length_singleton] at hquiet
    have hcollect := busRun_bitsEvents_collect c front hch hstage fun m hm => by
      have h := hquiet (m + 1) (by omega)
      rwa [List.take_append_of_le_length hm, ← List.nil_append (List.map _ _), ← hacc] at h
    have hlast := getElem?_busRun_bitEvents c (busRun c b (bitsEvents front)).1 (busRun c b (bitsEvents front)).2 last i
    refine ⟨(busRun c b (bitsEvents front)).2.free, ?_⟩
    rw [List.map_append, List.map_singleton] at heffect ⊢
    rw [bitsEvents_append, busRun_append, bitsEvents, bitsEvents, List.append_nil, hlast, hcollect, Option.map_some,
      Chip.latch_selected (ch := { ch with acc := ch.acc ++ front.map Level.ofBool }) hstage]
    simp only [hacc, List.nil_append, heffect]

/-! ### Bits leave the stages and CLK (R47, R99) -/

theorem stages_busRun_bitsEvents (c : Config) (b : Lines Level × Receiver) (bs : List Bool) :
    (busRun c b (bitsEvents bs)).2.stages = b.2.stages := by
  induction bs generalizing b with
  | nil => rfl
  | cons x bs ih =>
    rw [bitsEvents, busRun_append, ih]
    exact Receiver.stages_wrHigh c _ b.2

theorem clk_busRun_bitsEvents (c : Config) (b : Lines Level × Receiver) (bs : List Bool) :
    (busRun c b (bitsEvents bs)).1.clk = b.1.clk := by
  induction bs generalizing b with
  | nil => rfl
  | cons x bs ih =>
    rw [bitsEvents, busRun_append, ih]
    rfl

/-! ### One transaction -/

/-- A chip selected and bits sent to it: SENDDATA, and SENDCMD up to its deselect (R100, R101). -/
def State.transact (s : State) (k : Nat) (bs : List Bool) : State :=
  s.emit (selectEvents s.cfg.chips k ++ bitsEvents bs)

theorem State.sendData_eq_transact (s : State) (k a d : Nat) :
    s.sendData k a d = { s.transact k (writeBits s.cfg a d) with sel := some k } := by
  rw [State.sendData_eq, sendDataEvents_eq]
  rfl

theorem State.sendCmd_eq_transact (s : State) (k p : Nat) :
    s.sendCmd k p = (s.transact k (commandBits s.cfg p)).select 0 := by
  have hevents : sendCmdEvents s.cfg k p
      = (selectEvents s.cfg.chips k ++ bitsEvents (commandBits s.cfg p)) ++ selectEvents s.cfg.chips 0 := by
    simp only [sendCmdEvents, sendBitsEvents, commandBits, bitsEvents_append, List.append_assoc]
  rw [State.sendCmd_eq, hevents, ← State.emit_emit]
  rfl

section Transaction

variable {s : State}

@[simp] theorem State.transact_cfg (k : Nat) (bs : List Bool) : (s.transact k bs).cfg = s.cfg := rfl

@[simp] theorem State.length_transact (k : Nat) (bs : List Bool) :
    (s.transact k bs).rx.chips.length = s.rx.chips.length := length_busRun _ _ _

variable (hlen : s.rx.chips.length = s.cfg.chips) (hclk : s.levels.clk = .low)

include hlen hclk

theorem State.transact_stages (k : Nat) (bs : List Bool) :
    (s.transact k bs).rx.stages = selectedOnly s.cfg.chips k := by
  obtain ⟨cs, hrun, -, hstages, -⟩ := busRun_selectEvents s.cfg hclk (k := k) hlen
  rw [State.transact, State.emit_rx, busRun_append, stages_busRun_bitsEvents, hrun]
  exact hstages

theorem State.transact_clk (k : Nat) (bs : List Bool) : (s.transact k bs).levels.clk = .low := by
  obtain ⟨cs, hrun, -⟩ := busRun_selectEvents s.cfg hclk (k := k) hlen
  rw [State.transact, State.emit_levels, busRun_append, clk_busRun_bitsEvents, hrun]
  exact hclk

/-- The chip of a transaction takes the frame's effect, and every other chip keeps its display RAM and its log. -/
theorem State.transact_chip {k : Nat} {bs : List Bool} {e : FrameEffect} (hframe : IsFrame s.cfg bs e) {i : Nat}
    {ch : Chip} (hch : s.rx.chips[i]? = some ch) :
    ∃ ch' n, (s.transact k bs).rx.chips[i]? = some ch'
      ∧ ch'.ram = (if i + 1 = k then ch.takeEffect s.cfg n i e else ch).ram
      ∧ ch'.log = (if i + 1 = k then ch.takeEffect s.cfg n i e else ch).log := by
  obtain ⟨cs, hrun, hsame, hstages, hempty⟩ := busRun_selectEvents s.cfg hclk (k := k) hlen
  obtain ⟨ch₁, hch₁, hram, hstage, hacc⟩ := getElem?_of_select hsame hstages hempty hch
  have hlog : ch₁.log = ch.log := by
    have h := congrArg (·[i]?) hsame.2
    simpa [hch, hch₁] using h
  rw [State.transact, State.emit_rx, busRun_append, hrun]
  by_cases hk : i + 1 = k
  · rw [if_pos hk] at hstage
    obtain ⟨n, h⟩ := busRun_bitsEvents_frame s.cfg (b := ({ s.levels with cs := .high }, { s.rx with chips := cs })) hch₁
      hstage (hacc hk) hframe
    refine ⟨_, n, h, ?_⟩
    rw [if_pos hk]
    cases e <;> simp only [Chip.takeEffect, hram, hlog, and_self]
  · rw [if_neg hk] at hstage
    refine ⟨ch₁, 0, busRun_bitsEvents_unselected s.cfg bs hch₁ (by rw [hstage]; exact nofun), ?_⟩
    rw [if_neg hk]
    exact ⟨hram, hlog⟩

/-- SELECT leaves the contents of the chips, and one chip selected or none (R98). -/
theorem State.select_chips (k : Nat) :
    SameContents s.rx.chips (s.select k).rx.chips ∧ (s.select k).rx.stages = selectedOnly s.cfg.chips k := by
  obtain ⟨cs, hrun, hsame, hstages, -⟩ := busRun_selectEvents s.cfg hclk (k := k) hlen
  rw [State.select_eq, State.emit_rx, hrun]
  exact ⟨hsame, hstages⟩

/-! ### SENDDATA (R101) -/

/-- A write frame changes no command log (R49). -/
theorem State.cmdlog_sendData {k a d : Nat} (hframe : IsFrame s.cfg (writeBits s.cfg a d) (.writeRam a d)) (i : Nat) :
    (s.sendData k a d).cmdlog i = s.cmdlog i := by
  rw [State.sendData_eq_transact]
  refine State.cmdlog_congr (map_eq_of_getElem? (s.length_transact k _) fun i ch hch => ?_) i
  obtain ⟨ch', n, hch', -, hlog⟩ := State.transact_chip hlen hclk (k := k) hframe hch
  refine ⟨ch', hch', hlog.trans ?_⟩
  split <;> rfl

theorem State.stages_sendData (k a d : Nat) : (s.sendData k a d).rx.stages = selectedOnly s.cfg.chips k := by
  rw [State.sendData_eq_transact]
  exact State.transact_stages hlen hclk k _

theorem State.clk_sendData (k a d : Nat) : (s.sendData k a d).levels.clk = .low := by
  rw [State.sendData_eq_transact]
  exact State.transact_clk hlen hclk k _

/-! ### SENDCMD (R100) -/

theorem State.select_zero_transact_chips (k : Nat) (bs : List Bool) :
    SameContents (s.transact k bs).rx.chips ((s.transact k bs).select 0).rx.chips
      ∧ ((s.transact k bs).select 0).rx.stages = selectedOnly s.cfg.chips 0 :=
  State.select_chips ((s.length_transact k bs).trans hlen) (State.transact_clk hlen hclk k bs) 0

/-- A command frame is logged by its chip alone (R50). -/
theorem State.cmdlog_sendCmd {k p : Nat} (hp : p < 2 ^ s.cfg.cmdPayloadBits) {i : Nat} (hi : i < s.cfg.chips) :
    (s.sendCmd k p).cmdlog i = s.cmdlog i ++ (if i + 1 = k then [p] else []) := by
  obtain ⟨ch, hch⟩ : ∃ ch, s.rx.chips[i]? = some ch := ⟨_, List.getElem?_eq_getElem (hlen ▸ hi)⟩
  obtain ⟨ch', n, hch', -, hlog⟩ := State.transact_chip hlen hclk (k := k) (isFrame_commandBits s.cfg hp) hch
  obtain ⟨⟨-, hsame⟩, -⟩ := State.select_zero_transact_chips hlen hclk k (commandBits s.cfg p)
  rw [State.sendCmd_eq_transact, State.cmdlog_congr hsame, State.cmdlog_of_getElem? hch', State.cmdlog_of_getElem? hch,
    hlog]
  split
  · rfl
  · exact (List.append_nil _).symm

/-- A command frame changes no display RAM (R50). -/
theorem State.ram_sendCmd {k p : Nat} (hp : p < 2 ^ s.cfg.cmdPayloadBits) (j a : Nat) :
    (s.sendCmd k p).ram j a = s.ram j a := by
  obtain ⟨⟨hsame, -⟩, -⟩ := State.select_zero_transact_chips hlen hclk k (commandBits s.cfg p)
  rw [State.sendCmd_eq_transact]
  refine State.ram_congr (hsame.trans (map_eq_of_getElem? (s.length_transact k _) fun i ch hch => ?_)) j a
  obtain ⟨ch', n, hch', hram, -⟩ := State.transact_chip hlen hclk (k := k) (isFrame_commandBits s.cfg hp) hch
  refine ⟨ch', hch', hram.trans ?_⟩
  split <;> rfl

theorem State.stages_sendCmd (k p : Nat) : (s.sendCmd k p).rx.stages = selectedOnly s.cfg.chips 0 := by
  rw [State.sendCmd_eq_transact]
  exact (State.select_zero_transact_chips hlen hclk k _).2

end Transaction

/-! ### The frame rows -/

/-- The payload of a well-formed command frame row fits its field (R58, R62). -/
theorem payload_lt_of_commandOf {c : Config} {i : Instr} {k p : Nat} (hwf : i.wf c = true)
    (h : commandOf c i = some (k, p)) : p < 2 ^ c.cmdPayloadBits := by
  cases i with
  | init | plot | clear | commit | write => cases h
  | cmd k' p' =>
    cases h
    simp only [Instr.wf, Bool.and_eq_true, decide_eq_true_eq] at hwf
    exact hwf.2
  | sysdis | panelcfg | master | sysen | ledon =>
    cases h
    exact BitVec.isLt _

/-- Settles O26: SENDCMD is a transaction whose frame logs its payload, and a deselect. -/
theorem commandReachesOneChip : Obligations.CommandReachesOneChip := by
  rintro s i k p ⟨hw, -, -, hlen, -⟩ hwf hcmd hclk
  have hp := payload_lt_of_commandOf hwf hcmd
  exact ⟨s.sendCmd k p, (exec_command hcmd).trans (Guard.config_of_wf hw),
    fun c hc => State.cmdlog_sendCmd hlen hclk hp hc, State.ram_sendCmd hlen hclk hp, State.stages_sendCmd hlen hclk k p⟩

/-- Settles O28: SENDDATA is a transaction whose frame sets its cell. -/
theorem writeReachesOneCell : Obligations.WriteReachesOneCell := by
  intro s k a d hs hwf hclk
  obtain ⟨hw, -, -, hlen, -⟩ := id hs
  simp only [Instr.wf, selectInRange, Bool.and_eq_true, decide_eq_true_eq] at hwf
  obtain ⟨⟨⟨hk, hkc⟩, ha⟩, hd⟩ := hwf
  have hframe := isFrame_writeBits s.cfg ha (lt_of_lt_of_le ha (Config.cells_le_two_pow hw)) hd
  refine ⟨s.sendData k a d, (exec_write s k a d).trans (Guard.config_of_wf hw), ?_, fun c hc a' hother => ?_,
    State.cmdlog_sendData hlen hclk hframe, State.stages_sendData hlen hclk k a d⟩
  · obtain ⟨j, rfl⟩ := Nat.exists_eq_add_of_le' hk
    rw [ram_sendData hs hclk ha hd (by omega), if_pos ⟨rfl, rfl⟩]
  · rw [ram_sendData hs hclk ha hd hc, if_neg (by omega)]

end Sys2Proof.Machine
end

