-- ==== Sys2Proof/Proofs/DisplayRam.lean ====
section
/-! PROOFS. The display RAMs under the host's operations: PLOT and CLEAR leave them (O21), COMMIT brings exactly the
dirty cells to them (O33) and so makes them equal to the frame buffer (O37). -/

namespace Sys2Proof.Machine

open Sys2Proof

/-- Settles O21: PLOT and CLEAR change the frame buffer alone, and the display RAMs are the receiver's. -/
theorem plotAndClearAreSilent : Obligations.PlotAndClearAreSilent := by
  intro s t i hi h
  have heq := exec_bufferOp_eq hi h
  refine ⟨heq, fun k a => ?_⟩
  rw [heq]
  rfl

/-! ### The scan order (R88) -/

/-- COMMIT visits no cell twice: the cells of different chips, base addresses and bands differ. -/
theorem nodup_scanOrder (c : Config) : (scanOrder c).Nodup := by
  have hband {b b' ch ch' : Nat} (hb : b < c.band) (hb' : b' < c.band) (h : b + ch * c.band = b' + ch' * c.band) :
      b = b' ∧ ch = ch' := by
    have hmod := congrArg (· % c.band) h
    simp only [Nat.add_mul_mod_self_right, Nat.mod_eq_of_lt hb, Nat.mod_eq_of_lt hb'] at hmod
    subst hmod
    exact ⟨rfl, Nat.eq_of_mul_eq_mul_right (by omega) (Nat.add_left_cancel h)⟩
  refine List.nodup_flatMap.2 ⟨fun chip _ => List.nodup_flatMap.2 ⟨fun b hb => ?_, ?_⟩, ?_⟩
  · refine List.Nodup.map_on (fun ch _ ch' _ h => ?_) List.nodup_range
    exact (hband (List.mem_range.1 hb) (List.mem_range.1 hb) (congrArg Prod.fst h)).2
  · refine List.nodup_range.imp_of_mem fun {b b'} hb hb' hne => ?_
    intro p hp hp'
    obtain ⟨ch, -, rfl⟩ := List.mem_map.1 hp
    obtain ⟨ch', -, h⟩ := List.mem_map.1 hp'
    exact hne (hband (List.mem_range.1 hb) (List.mem_range.1 hb') (congrArg Prod.fst h).symm).1
  · refine List.nodup_range.imp fun {chip chip'} hne => ?_
    intro p hp hp'
    simp only [List.mem_flatMap, List.mem_map] at hp hp'
    obtain ⟨b, -, ch, -, rfl⟩ := hp
    obtain ⟨b', -, ch', -, h⟩ := hp'
    exact hne (congrArg Prod.snd h).symm

/-! ### One visit of COMMIT at the chips (R89) -/

section Visit

variable {s : State} (hs : s.wf) (hclk : s.levels.clk = .low) {a chip : Nat} (hp : (a, chip) ∈ scanOrder s.cfg)

include hs hclk

theorem clk_commitCell (p : Nat × Nat) : (s.commitCell p).levels.clk = .low := by
  obtain ⟨-, -, -, hlen, -⟩ := hs
  cases hdirty : modified (s.cell p.1 p.2) with
  | false => rwa [State.commitCell_clean hdirty]
  | true =>
    rw [State.commitCell_dirty hdirty]
    exact State.clk_sendData hlen hclk _ _ _

/-- A visited dirty cell leaves its chip alone selected (R133). -/
theorem stages_commitCell {p : Nat × Nat} (hdirty : modified (s.cell p.1 p.2) = true) :
    (s.commitCell p).rx.stages = selectedOnly s.cfg.chips (p.2 + 1) := by
  obtain ⟨-, -, -, hlen, -⟩ := hs
  rw [State.commitCell_dirty hdirty]
  exact State.stages_sendData hlen hclk _ _ _

include hp

/-- A visit changes no command log. -/
theorem cmdlog_commitCell (c : Nat) : (s.commitCell (a, chip)).cmdlog c = s.cmdlog c := by
  obtain ⟨hw, -, -, hlen, -⟩ := hs
  obtain ⟨ha, -⟩ := (mem_scanOrder hw).1 hp
  cases hdirty : modified (s.cell a chip) with
  | false => rw [State.commitCell_clean (p := (a, chip)) hdirty]
  | true =>
    have hframe := isFrame_writeBits s.cfg ha (lt_of_lt_of_le ha (Config.cells_le_two_pow hw))
      (toNat_cellData_lt (Config.wf_leds hw) (s.cell a chip))
    rw [State.commitCell_dirty (p := (a, chip)) hdirty]
    exact State.cmdlog_sendData hlen hclk hframe c

/-- A visit brings the cell to its chip when its flag is set, and changes no other cell of a display RAM. -/
theorem ram_visit {i : Nat} (hi : i < s.cfg.chips) (a' : Nat) :
    (s.commitCell (a, chip)).ram (i + 1) a'
      = if (a', i) = (a, chip) ∧ modified (s.cell a chip) = true then cellData s.cfg (s.cell a chip)
        else s.ram (i + 1) a' := by
  obtain ⟨hw, -⟩ := id hs
  obtain ⟨ha, -⟩ := (mem_scanOrder hw).1 hp
  cases hdirty : modified (s.cell a chip) with
  | false => simp [State.commitCell_clean (p := (a, chip)) hdirty]
  | true =>
    have h := ram_sendData hs hclk (k := chip + 1) ha (toNat_cellData_lt (Config.wf_leds hw) (s.cell a chip)) hi a'
    rw [BitVec.ofNat_toNat, BitVec.setWidth_eq] at h
    rw [State.commitCell_dirty (p := (a, chip)) hdirty, State.setCell_ram, h]
    simp only [Nat.add_right_cancel_iff, Prod.mk.injEq, and_true, and_comm (a := i = chip)]

end Visit

/-! ### The visits of COMMIT so far (R88, R89) -/

/-- What COMMIT has done once it has visited the cells of `l`, from a state with CLK low: their dirty ones stand at their
chips, the last of these is selected, and no other cell and no log has changed (R89, R133). -/
structure Visited (s : State) (l : List (Nat × Nat)) (t : State) : Prop where
  cfg : t.cfg = s.cfg
  wf : t.wf
  clk : t.levels.clk = .low
  cells : ∀ a chip, chip < s.cfg.chips → (a, chip) ∉ l → t.cell a chip = s.cell a chip
  logs : ∀ c, t.cmdlog c = s.cmdlog c
  rams : ∀ c < s.cfg.chips, ∀ a, t.ram (c + 1) a
    = if (a, c) ∈ l ∧ modified (s.cell a c) = true then cellData s.cfg (s.cell a c) else s.ram (c + 1) a
  stages : ∀ p, (l.filter fun q => modified (s.cell q.1 q.2)).getLast? = some p →
    t.rx.stages = selectedOnly s.cfg.chips (p.2 + 1)

theorem Visited.nil {s : State} (hs : s.wf) (hclk : s.levels.clk = .low) : Visited s [] s where
  cfg := rfl
  wf := hs
  clk := hclk
  cells _ _ _ _ := rfl
  logs _ := rfl
  rams _ _ _ := by simp
  stages _ h := by cases h

/-- A visit of a cell leaves the others (R89). -/
theorem cell_commitCell_other {s : State} (hm : Memory.wf s.fb) {a a' chip chip' : Nat} (hchip : chip < s.cfg.chips)
    (hchip' : chip' < s.cfg.chips) (hne : (a', chip') ≠ (a, chip)) :
    (s.commitCell (a, chip)).cell a' chip' = s.cell a' chip' := by
  rw [State.cell, State.commitCell_cfg, read_commitCell hm, if_neg]
  · rfl
  · intro hkey
    obtain ⟨rfl, rfl⟩ := cellKey_inj hchip' hchip hkey
    exact hne rfl

/-- A cell visited for the first time is still as COMMIT found it, so the visit does for it what R89 says. -/
theorem Visited.commitCell {s t : State} {l : List (Nat × Nat)} (h : Visited s l t) {a chip : Nat}
    (hp : (a, chip) ∈ scanOrder s.cfg) (hnew : (a, chip) ∉ l) : Visited s (l ++ [(a, chip)]) (t.commitCell (a, chip)) := by
  obtain ⟨hcfg, hwf, hclk, hcells, hlogs, hrams, hstages⟩ := h
  obtain ⟨hw, hm, -⟩ := id hwf
  rw [← hcfg] at hp
  obtain ⟨-, hchip⟩ := (mem_scanOrder hw).1 hp
  have hcell : t.cell a chip = s.cell a chip := hcells a chip (hcfg ▸ hchip) hnew
  refine ⟨(State.commitCell_cfg t _).trans hcfg, commitCell_wf hwf hp, clk_commitCell hwf hclk _,
    fun a' chip' hchip' hout => ?_, fun c => (cmdlog_commitCell hwf hclk hp c).trans (hlogs c), fun c hc a' => ?_,
    fun p hlast => ?_⟩
  · rw [List.mem_append, List.mem_singleton, not_or] at hout
    rw [cell_commitCell_other hm hchip (hcfg ▸ hchip') hout.2, hcells a' chip' hchip' hout.1]
  · rw [ram_visit hwf hclk hp (hcfg ▸ hc) a', hcell, hcfg, hrams c hc a']
    by_cases heq : (a', c) = (a, chip)
    · obtain ⟨rfl, rfl⟩ := Prod.mk.inj heq
      simp [hnew]
    · simp [heq]
  · rw [List.filter_append] at hlast
    cases hdirty : modified (s.cell a chip) with
    | false =>
      rw [State.commitCell_clean (p := (a, chip)) (hcell ▸ hdirty)]
      exact hstages p (by simpa [hdirty] using hlast)
    | true =>
      have hlast' : (a, chip) = p := by simpa [hdirty] using hlast
      rw [← hlast', stages_commitCell hwf hclk (p := (a, chip)) (hcell ▸ hdirty), hcfg]

theorem visited_foldl {s : State} (hs : s.wf) (hclk : s.levels.clk = .low) {l : List (Nat × Nat)} (hnodup : l.Nodup)
    (hsub : ∀ p ∈ l, p ∈ scanOrder s.cfg) : Visited s l (l.foldl State.commitCell s) := by
  induction l using List.reverseRecOn with
  | nil => exact .nil hs hclk
  | append_singleton l p ih =>
    rw [List.foldl_concat]
    have hnew : p ∉ l := fun hp => List.disjoint_of_nodup_append hnodup hp List.mem_cons_self
    exact (ih hnodup.of_append_left fun q hq => hsub q (List.mem_append_left _ hq)).commitCell (hsub p (by simp)) hnew

/-- COMMIT has visited every cell once (R88, R90). -/
theorem visited_commitBody {s : State} (hs : s.wf) (hclk : s.levels.clk = .low) :
    Visited s (scanOrder s.cfg) s.commitBody := visited_foldl hs hclk (nodup_scanOrder s.cfg) fun _ => id

theorem exec_commit {s : State} (hw : s.cfg.wf = true) (hi : s.inited = true) : exec .commit s = .next s.commitBody :=
  (Guard.config_of_wf hw).trans (Guard.inited_of_inited hi)

/-- Settles O33: by the visits of COMMIT, which are to all the cells. -/
theorem commitReachesExactlyTheDirtyCells : Obligations.CommitReachesExactlyTheDirtyCells := by
  intro s hs hi hclk
  obtain ⟨hw, -⟩ := id hs
  have h := visited_commitBody hs hclk
  refine ⟨s.commitBody, exec_commit hw hi, fun c hc a => ?_, h.logs, h.stages⟩
  rw [h.rams c hc a]
  simp only [mem_scanOrder hw, hc, and_true]
  rfl

/-! ### Coherence after COMMIT (R52) -/

/-- Settles O37: COMMIT keeps clean cells equal to the chips' cells, and leaves every cell clean. -/
theorem commitMakesTheChipsCoherent : Obligations.CommitMakesTheChipsCoherent := by
  rintro s ⟨hs, hinit⟩ hi hclean
  obtain ⟨hw, hm, -⟩ := id hs
  obtain ⟨hidle, -⟩ := hinit hi
  have hcfg : s.commitBody.cfg = s.cfg := (transmits_commitBody s).cfg
  refine ⟨s.commitBody, exec_commit hw hi, fun a ha c hc => ?_⟩
  have hflag : modified (s.commitBody.cell a c) = false := by
    rw [State.cell, hcfg, read_commitBody hw hm (cellKey_lt_size ha hc)]
    exact modified_sentCell (Config.wf_leds hw) _
  have hmatch := (committing_commitBody ⟨hs, hidle, hclean⟩).clean a (hcfg ▸ ha) c (hcfg ▸ hc) hflag
  rw [hcfg] at hmatch
  exact ⟨hmatch, hflag⟩

end Sys2Proof.Machine
end

