-- ==== Sys2Proof/Proofs/HostWords.lean ====
section
/-! PROOFS. The host command word as four digits in mixed radix (R54, R55): the decoder reads the fields it was packed
from, every word names a well-formed host operation, and the canonical words at the default parameters (R56). -/

namespace Sys2Proof

/-! ### Fields and coordinates (R10) -/

/-- The field between the digits above it and the digits below it. -/
theorem field_eq_of_digits {w v r lo len : Nat} (q : Nat) (hv : v < 2 ^ len) (hr : r < 2 ^ lo)
    (hw : w = (q * 2 ^ len + v) * 2 ^ lo + r) : field w lo len = v := by
  rw [hw, field, Nat.mul_comm _ (2 ^ lo), Nat.mul_add_div (by positivity), Nat.div_eq_of_lt hr, Nat.add_zero,
    Nat.mul_add_mod_self_right, Nat.mod_eq_of_lt hv]

theorem field_lt (v lo len : Nat) : field v lo len < 2 ^ len := Nat.mod_lt _ (by positivity)

/-- W is positive and fits below the sign bit, so the coordinates have one (R7). -/
theorem Config.coordBits_pos {c : Config} (hw : c.wf = true) : 0 < c.coordBits := by
  obtain ⟨⟨hwidth, -⟩, -, -, -, -, -, hfits, -⟩ := wf_iff.1 hw
  by_contra h
  rw [Nat.eq_zero_of_not_pos h, Nat.zero_sub, pow_zero] at hfits
  omega

/-- A sign-extended COORD_BITS-bit field is a signed COORD_BITS-bit value (R10, R54). -/
theorem coordInRange_sext {c : Config} (hn : 0 < c.coordBits) {v : Nat} (hv : v < 2 ^ c.coordBits) :
    coordInRange c (sext c.coordBits v) = true := by
  obtain ⟨n, hn'⟩ := Nat.exists_eq_add_of_lt hn
  rw [Nat.zero_add] at hn'
  have hpow : ((2 ^ n : Nat) : Int) = (2 : Int) ^ n := by push_cast; rfl
  rw [hn', pow_succ] at hv
  simp only [coordInRange, sext, hn', Nat.add_sub_cancel, pow_succ, ← hpow, Bool.and_eq_true, decide_eq_true_eq]
  split <;> omega

/-! ### The host command word (R54, R55) -/

/-- The two coordinate fields together fit below the colour. -/
theorem coordFields_lt {c : Config} {y x : Nat} (hy : y < 2 ^ c.coordBits) (hx : x < 2 ^ c.coordBits) :
    y * 2 ^ c.coordBits + x < 2 ^ (2 * c.coordBits) := by
  rw [two_mul, pow_add]
  exact digit_lt hy hx

/-- The three operand fields together fit below the operation. -/
theorem operandFields_lt {c : Config} {color y x : Nat} (hcolor : color < 2 ^ c.colors) (hy : y < 2 ^ c.coordBits)
    (hx : x < 2 ^ c.coordBits) :
    color * 2 ^ (2 * c.coordBits) + (y * 2 ^ c.coordBits + x) < 2 ^ (2 * c.coordBits + c.colors) := by
  rw [Nat.add_comm (2 * _), pow_add]
  exact digit_lt hcolor (coordFields_lt hy hx)

/-- The decoder reads the fields the word was packed from. -/
theorem decodeHost_packHost {c : Config} {op color y x : Nat} (hop : op < 4) (hcolor : color < 2 ^ c.colors)
    (hy : y < 2 ^ c.coordBits) (hx : x < 2 ^ c.coordBits) :
    decodeHost c (packHost c op color y x) = .ok (hostInstr c op color y x) := by
  have fop : field (packHost c op color y x) (2 * c.coordBits + c.colors) 2 = op :=
    field_eq_of_digits 0 hop (operandFields_lt hcolor hy hx) (by rw [packHost]; ring)
  have fcolor : field (packHost c op color y x) (2 * c.coordBits) c.colors = color :=
    field_eq_of_digits op hcolor (coordFields_lt hy hx) (by rw [packHost]; ring)
  have fy : field (packHost c op color y x) c.coordBits c.coordBits = y :=
    field_eq_of_digits (op * 2 ^ c.colors + color) hy hx (by rw [packHost]; ring)
  have fx : field (packHost c op color y x) 0 c.coordBits = x :=
    field_eq_of_digits ((op * 2 ^ c.colors + color) * 2 ^ c.coordBits + y) hx (Nat.two_pow_pos 0)
      (by rw [packHost]; ring)
  rw [decodeHost, if_pos (packHost_lt hop hcolor hy hx), fop, fcolor, fy, fx]

/-- Fields that fit their widths name a well-formed operation (R55). -/
theorem wf_hostInstr {c : Config} (hn : 0 < c.coordBits) {op color y x : Nat} (hcolor : color < 2 ^ c.colors)
    (hy : y < 2 ^ c.coordBits) (hx : x < 2 ^ c.coordBits) : (hostInstr c op color y x).wf c = true := by
  unfold hostInstr
  split_ifs
  · rfl
  · simp [Instr.wf, coordInRange_sext hn hx, coordInRange_sext hn hy, hcolor]
  · rfl
  · rfl

/-- Decoding is total on the words of the port's width (R55). -/
theorem decodeRequest_host_total {c : Config} (hn : 0 < c.coordBits) {w : Nat} (hfit : w < 2 ^ c.hostBits) :
    ∃ i : Instr, decodeRequest c (.host w) = .ok (some i) ∧ i.isHostOp = true ∧ i.wf c = true := by
  have hdecode := congrArg (Except.map some) (if_pos hfit : decodeHost c w = _)
  exact ⟨_, hdecode, Machine.decodeRequest_isHostOp (r := .host w) nofun hdecode,
    wf_hostInstr hn (field_lt ..) (field_lt ..) (field_lt ..)⟩

/-- The word of an operation without operands has the other fields 0 (R55). -/
theorem packHost_plain (c : Config) (op : Nat) : packHost c op 0 0 0 = op * 2 ^ (2 * c.coordBits + c.colors) := by
  simp [packHost]

/-- Settles O1: the word is four digits, which `field` reads back; every value of each is legal. -/
theorem hostWordsDecodeByTheirFields : Obligations.HostWordsDecodeByTheirFields := by
  intro c hw
  refine ⟨fun op color y x hop hcolor hy hx => ?_, fun w => ?_, ?_, ?_, ?_⟩
  · exact congrArg (Except.map some) (decodeHost_packHost hop hcolor hy hx)
  · exact decodeRequest_host_total (Config.coordBits_pos hw)
  · rw [encode, packHost_plain, Nat.zero_mul]
  · rw [encode, packHost_plain]
  · rw [encode, packHost_plain]

/-! ### The default parameters (R56) -/

/-- Fields that fit do not overlap, so the word is their bitwise or. -/
theorem packHost_eq_or {c : Config} {color y x : Nat} (op : Nat) (hcolor : color < 2 ^ c.colors)
    (hy : y < 2 ^ c.coordBits) (hx : x < 2 ^ c.coordBits) :
    packHost c op color y x
      = op <<< (2 * c.coordBits + c.colors) ||| color <<< (2 * c.coordBits) ||| y <<< c.coordBits ||| x := by
  have hcoord := coordFields_lt hy hx
  have hoperand := operandFields_lt hcolor hy hx
  rw [← Nat.shiftLeft_eq] at hcoord
  rw [← Nat.shiftLeft_eq, ← Nat.shiftLeft_eq] at hoperand
  rw [Nat.or_assoc, Nat.or_assoc, ← Nat.shiftLeft_add_eq_or_of_lt hx, ← Nat.shiftLeft_add_eq_or_of_lt hcoord,
    ← Nat.shiftLeft_add_eq_or_of_lt hoperand]
  simp only [packHost, Nat.shiftLeft_eq, Nat.add_assoc]

/-- Settles O2: PLOT by `packHost_eq_or`; the other words are closed and the kernel evaluates them. -/
theorem canonicalHostWords : Obligations.CanonicalHostWords := by
  refine ⟨rfl, rfl, rfl, fun x y color hwf => ?_, rfl, rfl, rfl, rfl⟩
  simp only [Instr.wf, Bool.and_eq_true, decide_eq_true_eq] at hwf
  obtain ⟨-, hcolor⟩ := hwf
  exact congrArg Request.host (packHost_eq_or (c := Config.standard) 1 hcolor (unsext_lt 8 y) (unsext_lt 8 x))

end Sys2Proof
end

