-- ==== Sys2Proof/Proofs/Frames.lean ====
section
/-! PROOFS. The bus frames (R57 to R60): the fields sent one after another are one number sent from its most significant
bit, and the decoder of the bus reads the fields back from the encoder's events (R67). -/

namespace Sys2Proof

/-! ### A frame as a number (R58, R59) -/

theorem bitsMsb_congr {v w n : Nat} (h : ∀ i < n, v.testBit i = w.testBit i) : bitsMsb v n = bitsMsb w n := by
  induction n with
  | zero => rfl
  | succ n ih => rw [bitsMsb, bitsMsb, h n (by omega), ih fun i hi => h i (by omega)]

/-- Only the low bits of a field are sent. -/
theorem bitsMsb_mod (v n : Nat) : bitsMsb (v % 2 ^ n) n = bitsMsb v n :=
  bitsMsb_congr fun i hi => by simp [Nat.testBit_mod_two_pow, hi]

/-- A number whose low digit is `w` is sent as the digits above it and then `w`. -/
theorem bitsMsb_digits (v m : Nat) {w n : Nat} (hw : w < 2 ^ n) :
    bitsMsb (v * 2 ^ n + w) (m + n) = bitsMsb v m ++ bitsMsb w n := by
  have hbit (i : Nat) := Nat.testBit_two_pow_mul_add v hw i
  rw [Nat.mul_comm]
  induction m with
  | zero =>
    rw [Nat.zero_add]
    exact bitsMsb_congr fun i hi => by rw [hbit, if_pos hi]
  | succ m ih =>
    rw [Nat.succ_add, bitsMsb, hbit, if_neg (by omega), Nat.add_sub_cancel, ih, bitsMsb, List.cons_append]

/-- The pad as sent fits its width (R58). -/
theorem padField_lt (c : Config) : padField c < 2 ^ c.cmdPadBits := Nat.mod_lt _ (by positivity)

/-- A command frame is the number {OP_COMMAND, payload, PAD_VALUE} (R58). -/
theorem commandBits_eq_bitsMsb (c : Config) {p : Nat} (hp : p < 2 ^ c.cmdPayloadBits) :
    commandBits c p
      = bitsMsb (c.opCommand.toNat * 2 ^ (c.cmdPayloadBits + c.cmdPadBits) + p * 2 ^ c.cmdPadBits + padField c)
          c.cmdFrameBits := by
  rw [pow_add, ← Nat.mul_assoc, ← Nat.add_mul, Config.cmdFrameBits, bitsMsb_digits _ _ (padField_lt c),
    bitsMsb_digits _ _ hp, padField, bitsMsb_mod, commandBits]

/-- A write frame is the number {OP_WRITE, address, data} (R59). -/
theorem writeBits_eq_bitsMsb (c : Config) {a d : Nat} (ha : a < 2 ^ c.addrBits) (hd : d < 2 ^ c.ledsPerCell) :
    writeBits c a d
      = bitsMsb (c.opWrite.toNat * 2 ^ (c.addrBits + c.ledsPerCell) + a * 2 ^ c.ledsPerCell + d) c.writeFrameBits := by
  rw [pow_add, ← Nat.mul_assoc, ← Nat.add_mul, Config.writeFrameBits, bitsMsb_digits _ _ hd, bitsMsb_digits _ _ ha,
    writeBits]

end Sys2Proof

namespace Sys2Proof.Machine

open Sys2Proof

/-- SENDCMD sends the bits of a command frame, and deselects (R100). -/
theorem sendCmdEvents_eq (c : Config) (k p : Nat) :
    sendCmdEvents c k p = selectEvents c.chips k ++ bitsEvents (commandBits c p) ++ selectEvents c.chips 0 := by
  simp only [sendCmdEvents, sendBitsEvents, commandBits, bitsEvents_append, List.append_assoc]

/-- Settles O4: the fields in order are one number, by `bitsMsb_digits`. -/
theorem framesAreTheirFieldsInOrder : Obligations.FramesAreTheirFieldsInOrder := by
  intro c k p a d hp ha hd
  rw [← commandBits_eq_bitsMsb c hp, ← writeBits_eq_bitsMsb c ha hd]
  exact ⟨rfl, rfl, sendCmdEvents_eq c k p, sendDataEvents_eq c k a d⟩

/-! ### The decoder on the frames (R67) -/

@[simp] theorem take_bitsMsb_append (v n : Nat) (bs : List Bool) : (bitsMsb v n ++ bs).take n = bitsMsb v n :=
  List.take_left' (length_bitsMsb v n)

@[simp] theorem drop_bitsMsb_append (v n : Nat) (bs : List Bool) : (bitsMsb v n ++ bs).drop n = bs :=
  List.drop_left' (length_bitsMsb v n)

/-- Bits of a command frame's length that begin with OP_COMMAND. -/
theorem frameFields_commandId (c : Config) {rest : List Bool} (hlen : rest.length = c.cmdPayloadBits + c.cmdPadBits) :
    frameFields c (bitsMsb c.opCommand.toNat c.idBits ++ rest)
      = .ok (.command (natOfBits (rest.take c.cmdPayloadBits)) (natOfBits (rest.drop c.cmdPayloadBits))) := by
  have hid : natOfBits (bitsMsb c.opCommand.toNat c.idBits) = c.opCommand.toNat := natOfBits_bitsMsb c.opCommand.isLt
  simp [frameFields, hid, hlen, Config.cmdFrameBits, Nat.add_assoc]

/-- Bits of a write frame's length that begin with OP_WRITE, which is not OP_COMMAND. -/
theorem frameFields_writeId (c : Config) {rest : List Bool} (hlen : rest.length = c.addrBits + c.ledsPerCell) :
    frameFields c (bitsMsb c.opWrite.toNat c.idBits ++ rest)
      = .ok (.write (natOfBits (rest.take c.addrBits)) (natOfBits (rest.drop c.addrBits))) := by
  have hid : natOfBits (bitsMsb c.opWrite.toNat c.idBits) = c.opWrite.toNat := natOfBits_bitsMsb c.opWrite.isLt
  have hdiffer : c.opWrite.toNat ≠ c.opCommand.toNat := fun h => c.idsDiffer (BitVec.eq_of_toNat_eq h.symm)
  simp [frameFields, hid, hdiffer, hlen, Config.writeFrameBits, Nat.add_assoc]

/-- A command frame is read back as its payload and pad. -/
theorem frameFields_commandBits (c : Config) {p : Nat} (hp : p < 2 ^ c.cmdPayloadBits) :
    frameFields c (commandBits c p) = .ok (.command p (padField c)) := by
  rw [commandBits, List.append_assoc, frameFields_commandId c (by simp), take_bitsMsb_append, drop_bitsMsb_append,
    natOfBits_bitsMsb hp, ← bitsMsb_mod, ← padField, natOfBits_bitsMsb (padField_lt c)]

/-- A write frame is read back as its address and data. -/
theorem frameFields_writeBits (c : Config) {a d : Nat} (ha : a < 2 ^ c.addrBits) (hd : d < 2 ^ c.ledsPerCell) :
    frameFields c (writeBits c a d) = .ok (.write a d) := by
  rw [writeBits, List.append_assoc, frameFields_writeId c (by simp), take_bitsMsb_append, drop_bitsMsb_append,
    natOfBits_bitsMsb ha, natOfBits_bitsMsb hd]

/-! ### The levels at the rising edges of WR (R67) -/

@[simp] theorem strobedLevels_clkPulses (d : Level) (low : Bool) (n : Nat) (es : List Event) :
    strobedLevels d low (clkPulses n ++ es) = strobedLevels d low es := by
  induction n with
  | zero => rfl
  | succ n ih => exact ih

/-- SELECT drives neither DATA nor WR (R95, R96). -/
@[simp] theorem strobedLevels_selectEvents (d : Level) (low : Bool) (n k : Nat) (es : List Event) :
    strobedLevels d low (selectEvents n k ++ es) = strobedLevels d low es := by
  cases k <;> simp [selectEvents, flushEvents, clkPulse, strobedLevels]

/-- The bits sent are the levels strobed, when nothing is strobed afterwards (R99). -/
theorem strobedLevels_bitsEvents {es : List Event} (hes : ∀ d low, strobedLevels d low es = []) (bs : List Bool)
    (d : Level) (low : Bool) : strobedLevels d low (bitsEvents bs ++ es) = bs.map Level.ofBool := by
  induction bs generalizing d low with
  | nil => exact hes d low
  | cons b bs ih => exact congrArg (Level.ofBool b :: ·) (ih _ _)

/-- Decoding the events of one selection decodes the bits sent in it. -/
theorem decodeBus_selection (c : Config) (n k : Nat) (bs : List Bool) {es : List Event}
    (hes : ∀ d low, strobedLevels d low es = []) :
    decodeBus c (selectEvents n k ++ bitsEvents bs ++ es) = frameFields c bs := by
  rw [decodeBus, List.append_assoc, strobedLevels_selectEvents, strobedLevels_bitsEvents hes, bitsOfLevels_map_ofBool]

/-- The deselect at a command frame's end strobes nothing (R100). -/
theorem strobedLevels_deselect (n : Nat) (d : Level) (low : Bool) : strobedLevels d low (selectEvents n 0) = [] := by
  rw [← List.append_nil (selectEvents n 0), strobedLevels_selectEvents, strobedLevels]

/-- Settles O8: the strobed levels are the frame's bits, and its fields are read back from them. -/
theorem busDecoderRecoversTheFields : Obligations.BusDecoderRecoversTheFields := by
  intro c k p a d hp ha hd
  constructor
  · rw [sendCmdEvents_eq, decodeBus_selection c _ k _ (strobedLevels_deselect _), frameFields_commandBits c hp]
  · rw [sendDataEvents_eq, ← List.append_nil (_ ++ _), decodeBus_selection c _ k _ fun _ _ => rfl,
      frameFields_writeBits c ha hd]

end Sys2Proof.Machine
end

