-- ==== Sys2Proof/Proofs/PlotClear.lean ====
section
/-! PROOFS. PLOT and CLEAR (40_plot_clear.md): the coordinate mapping is one-to-one (R80) and in range (R84), a PLOT
reads back at its own pixel and leaves every other one (R75, R79), also at y = H (R78), and CLEAR leaves the closed
form of R83. -/

namespace Sys2Proof.Machine

open Sys2Proof

/-! ### The coordinate mapping (R73, R74, R80) -/

section Mapping

variable {c : Config}

/-- A number's digits below and above `n` are its own. -/
theorem digit_inj {a a' b b' n : Nat} (hb : b < n) (hb' : b' < n) (h : a * n + b = a' * n + b') :
    a = a' ∧ b = b' := by
  have hmod := congrArg (· % n) h
  simp only [Nat.mul_add_mod', Nat.mod_eq_of_lt hb, Nat.mod_eq_of_lt hb'] at hmod
  subst hmod
  exact ⟨Nat.eq_of_mul_eq_mul_right (by omega) (Nat.add_right_cancel h), rfl⟩

theorem div_cw_lt (hw : c.wf = true) {x : Nat} (hx : x < c.w) : x / c.cw < c.chipsX := by
  rw [Nat.div_lt_iff_lt_mul (Config.cw_pos hw), Nat.mul_comm, ← Config.w_eq hw]
  exact hx

theorem mod_chh_div_lt (hw : c.wf = true) (y : Nat) : y % c.chh / c.ledsPerCell < c.cpc := by
  rw [Nat.div_lt_iff_lt_mul (Config.leds_pos hw), ← Config.chh_eq hw]
  exact Nat.mod_lt _ (Config.chh_pos hw)

/-- A chip's region holds whole cells, so the position inside a cell is the same for the panel and the region. -/
theorem mod_chh_mod (hw : c.wf = true) (y : Nat) : y % c.chh % c.ledsPerCell = y % c.ledsPerCell :=
  Nat.mod_mod_of_dvd _ ⟨c.cpc, by rw [Config.chh_eq hw, Nat.mul_comm]⟩

/-- A channel's cell address names the channel and the base address. -/
theorem channelAddress_inj {base base' ch ch' : Nat} (hb : base < c.band) (hb' : base' < c.band)
    (h : channelAddress c base ch = channelAddress c base' ch') : ch = ch' ∧ base = base' := by
  unfold channelAddress at h
  exact digit_inj hb hb' (by omega)

/-- The chip index names the chip's column and row on the panel. -/
theorem chipIndex_inj (hw : c.wf = true) {x x' y y' : Nat} (hx : x < c.w) (hx' : x' < c.w)
    (h : chipIndex c x y = chipIndex c x' y') : y / c.chh = y' / c.chh ∧ x / c.cw = x' / c.cw := by
  unfold chipIndex at h
  exact digit_inj (div_cw_lt hw hx) (div_cw_lt hw hx') (by rw [Nat.mul_comm, Nat.add_comm, h]; ring)

/-- The base address names the column and the cell in it. -/
theorem baseAddress_inj (hw : c.wf = true) {x x' y y' : Nat} (h : baseAddress c x y = baseAddress c x' y') :
    x % c.cw = x' % c.cw ∧ y % c.chh / c.ledsPerCell = y' % c.chh / c.ledsPerCell :=
  digit_inj (mod_chh_div_lt hw y) (mod_chh_div_lt hw y') h

theorem bitPosition_inj (hw : c.wf = true) {y y' : Nat} (h : bitPosition c y = bitPosition c y') :
    y % c.ledsPerCell = y' % c.ledsPerCell := by
  have hy := Nat.mod_lt y (Config.leds_pos hw)
  have hy' := Nat.mod_lt y' (Config.leds_pos hw)
  unfold bitPosition at h
  omega

/-- Different pixels and channels have different data bits (R80). -/
theorem mapping_inj (hw : c.wf = true) {x x' y y' ch ch' : Nat} (hx : x < c.w) (hx' : x' < c.w)
    (haddr : channelAddress c (baseAddress c x y) ch = channelAddress c (baseAddress c x' y') ch')
    (hchip : chipIndex c x y = chipIndex c x' y') (hbit : bitPosition c y = bitPosition c y') :
    x = x' ∧ y = y' ∧ ch = ch' := by
  obtain ⟨hch, hbase⟩ := channelAddress_inj (baseAddress_lt_band hw x y) (baseAddress_lt_band hw x' y') haddr
  obtain ⟨hrow, hcol⟩ := chipIndex_inj hw hx hx' hchip
  obtain ⟨hlx, hcell⟩ := baseAddress_inj hw hbase
  have hpos : y % c.chh % c.ledsPerCell = y' % c.chh % c.ledsPerCell := by
    rw [mod_chh_mod hw, mod_chh_mod hw, bitPosition_inj hw hbit]
  have hly : y % c.chh = y' % c.chh := Nat.ext_div_mod hcell hpos
  exact ⟨Nat.ext_div_mod hcol hlx, Nat.ext_div_mod hrow hly, hch⟩

/-! ### The ranges of PLOT's arithmetic (R84) -/

theorem chipIndex_le (hw : c.wf = true) {x y : Nat} (hx : x < c.w) (hy : y ≤ c.h) :
    chipIndex c x y ≤ c.chips + c.chipsX - 1 := by
  have hcol := div_cw_lt hw hx
  have hrow : y / c.chh ≤ c.chipsY :=
    Nat.div_le_of_le_mul (by rw [← Config.h_eq hw]; exact hy)
  have hmul : c.chipsX * (y / c.chh) ≤ c.chips := Nat.mul_le_mul_left _ hrow
  unfold chipIndex
  omega

theorem bitMask_eq_two_pow (c : Config) (y : Nat) : bitMask c y = BitVec.ofNat 8 (2 ^ bitPosition c y) := by
  refine BitVec.eq_of_toNat_eq ?_
  simp [bitMask, Nat.shiftLeft_eq]

theorem cellData_le (c : Config) (v : Byte) : cellData c v ≤ c.dataMask := by
  rw [BitVec.le_def, cellData, BitVec.toNat_and]
  exact Nat.and_le_right

/-- What a channel stores is data, whatever the cell held (R84). -/
theorem plottedData_le (hw : c.wf = true) (old : Byte) (y : Nat) (lit : Bool) :
    plottedData c old (bitMask c y) lit ≤ c.dataMask := by
  rw [← cellData_plottedData (cellData_bitMask hw y)]
  exact cellData_le c _

/-! ### The row below the panel (R78) -/

theorem height_div_chh (hw : c.wf = true) : c.h / c.chh = c.chipsY := by
  rw [Config.h_eq hw, Nat.mul_div_cancel_left _ (Config.chh_pos hw)]

theorem height_mod_chh (hw : c.wf = true) : c.h % c.chh = 0 := by
  rw [Config.h_eq hw, Nat.mul_mod_right]

theorem chipIndex_height (hw : c.wf = true) (x : Nat) : chipIndex c x c.h = x / c.cw + c.chips := by
  rw [chipIndex, height_div_chh hw, Config.chips]

theorem baseAddress_height (hw : c.wf = true) (x : Nat) : baseAddress c x c.h = x % c.cw * c.cpc := by
  rw [baseAddress, height_mod_chh hw, Nat.zero_div, Nat.add_zero]

theorem bitMask_height (hw : c.wf = true) : bitMask c c.h = 1#8 <<< (c.ledsPerCell - 1) := by
  rw [bitMask, bitPosition, ← mod_chh_mod hw, height_mod_chh hw, Nat.zero_mod, Nat.sub_zero]

/-- The key of chip index CHIPS + k in row `a` is that of chip k in the next row (R32, R78). -/
theorem cellKey_beyond (c : Config) (a k : Nat) : cellKey c a (k + c.chips) = cellKey c (a + 1) k := by
  unfold cellKey
  ring

/-- The cells that a PLOT with y = H aliases to (R78). -/
theorem plotKey_height (hw : c.wf = true) (x ch : Nat) :
    plotKey c x c.h ch = cellKey c (x % c.cw * c.cpc + ch * c.band + 1) (x / c.cw) := by
  rw [plotKey, chipIndex_height hw, baseAddress_height hw, channelAddress, cellKey_beyond]

theorem lastLinearIndex_height (hw : c.wf = true) (x : Nat) :
    lastLinearIndex c x c.h = (x % c.cw * c.cpc + (c.colors - 1) * c.band) * c.chips + (x / c.cw + c.chips) := by
  rw [lastLinearIndex, chipIndex_height hw, baseAddress_height hw, channelAddress, cellKey]

end Mapping

/-- Settles O17: `exists_pixel` reaches every bit, and `mapping_inj` says that no bit is reached twice. -/
theorem mappingIsABijection : Obligations.MappingIsABijection := by
  intro c hw
  refine ⟨fun x hx y hy ch hch => ?_, fun x hx y _ ch _ x' hx' y' _ ch' _ => mapping_inj hw hx hx',
    fun a ha chip hchip b hb => exists_pixel hw ha hchip hb⟩
  exact ⟨channelAddress_lt_cells hw (baseAddress_lt_band hw x y) hch, chipIndex_lt hw hx hy,
    bitPosition_lt (Config.leds_pos hw) y⟩

/-- Settles O18: each range by the lemma of the function it is about. -/
theorem plotArithmeticStaysInRange : Obligations.PlotArithmeticStaysInRange := by
  intro c hw
  refine ⟨Config.cw_pos hw, Config.chh_pos hw, Config.leds_pos hw, Config.cpc_pos hw, Config.band_pos hw,
    fun x hx y hy ch hch => ⟨chipIndex_le hw hx hy, Nat.mod_lt _ (Config.cw_pos hw), Nat.mod_lt _ (Config.chh_pos hw),
      baseAddress_lt_band hw x y, channelAddress_lt_cells hw (baseAddress_lt_band hw x y) hch,
      ⟨bitPosition c y, bitPosition_lt (Config.leds_pos hw) y, bitMask_eq_two_pow c y⟩,
      fun old lit => ⟨cellData_le c old, plottedData_le hw old y lit⟩⟩⟩

/-! ### A cell after one channel of a PLOT (R75, R76) -/

section PlottedCell

variable {c : Config}

theorem getLsbD_cellData (hw : c.wf = true) (v : Byte) {i : Nat} (hi : i < c.ledsPerCell) :
    (cellData c v).getLsbD i = v.getLsbD i := by
  rw [cellData, BitVec.getLsbD_and, getLsbD_dataMask (Config.wf_leds hw), decide_eq_true hi, Bool.and_true]

/-- Bytes that are all data are equal when their data bits are. -/
theorem eq_of_data_bits (hw : c.wf = true) {v w : Byte} (hv : cellData c v = v) (hw' : cellData c w = w)
    (h : ∀ i < c.ledsPerCell, v.getLsbD i = w.getLsbD i) : v = w := by
  refine BitVec.eq_of_getLsbD_eq fun i _ => ?_
  rw [← hv, ← hw', cellData, cellData, BitVec.getLsbD_and, BitVec.getLsbD_and, getLsbD_dataMask (Config.wf_leds hw)]
  by_cases hi : i < c.ledsPerCell
  · rw [h i hi]
  · rw [decide_eq_false hi, Bool.and_false, Bool.and_false]

/-- The updater's result has the candidate data, whether it stores it or the cell has it already (R76). -/
theorem cellData_plottedCell (hw : c.wf = true) (y : Nat) (lit : Bool) (old : Byte) :
    cellData c (plottedCell c (bitMask c y) lit old) = plottedData c old (bitMask c y) lit := by
  rcases updatedCell_cases (c := c) old (plottedData c old (bitMask c y) lit) with ⟨heq, hu⟩ | ⟨-, hu⟩
  · rw [plottedCell, hu, heq]
  · rw [plottedCell, hu, cellData_or_modFlag (Config.wf_leds hw), cellData_plottedData (cellData_bitMask hw y)]

/-- The candidate data has the channel's bit at the pixel's position and the old data elsewhere (R75). -/
theorem getLsbD_plottedData (hw : c.wf = true) (old : Byte) (y : Nat) (lit : Bool) {i : Nat} (hi : i < c.ledsPerCell) :
    (plottedData c old (bitMask c y) lit).getLsbD i = if i = bitPosition c y then lit else old.getLsbD i := by
  have hl := Config.wf_leds hw
  have hmask := getLsbD_bitMask hl (Config.leds_pos hw) y i
  cases lit with
  | true =>
    rw [plottedData, if_pos rfl, BitVec.getLsbD_or, getLsbD_cellData hw old hi, hmask]
    by_cases h : i = bitPosition c y <;> simp [h]
  | false =>
    rw [plottedData, if_neg Bool.false_ne_true, ← cellData, getLsbD_cellData hw _ hi, BitVec.getLsbD_and,
      getLsbD_cellData hw old hi, BitVec.getLsbD_not, hmask, decide_eq_true (show i < 8 by omega)]
    by_cases h : i = bitPosition c y <;> simp [h]

theorem getLsbD_plottedCell (hw : c.wf = true) (y : Nat) (lit : Bool) (old : Byte) {i : Nat}
    (hi : i < c.ledsPerCell) :
    (plottedCell c (bitMask c y) lit old).getLsbD i = if i = bitPosition c y then lit else old.getLsbD i := by
  rw [← getLsbD_cellData hw _ hi, cellData_plottedCell hw, getLsbD_plottedData hw old y lit hi]

/-- A channel plotted a second time finds its data in the cell. -/
theorem plottedCell_plottedCell (hw : c.wf = true) (y : Nat) (lit : Bool) (old : Byte) :
    plottedCell c (bitMask c y) lit (plottedCell c (bitMask c y) lit old) = plottedCell c (bitMask c y) lit old := by
  have hagain : plottedData c (plottedCell c (bitMask c y) lit old) (bitMask c y) lit
      = cellData c (plottedCell c (bitMask c y) lit old) := by
    refine eq_of_data_bits hw (cellData_plottedData (cellData_bitMask hw y) _ _) (cellData_cellData _) fun i hi => ?_
    rw [getLsbD_plottedData hw _ y lit hi, getLsbD_cellData hw _ hi, getLsbD_plottedCell hw y lit old hi]
    split <;> rfl
  conv_lhs => rw [plottedCell, updatedCell, if_pos hagain.symm]

theorem and_bitMask_eq_zero_iff (hw : c.wf = true) (v : Byte) (y : Nat) :
    v &&& bitMask c y = 0#8 ↔ v.getLsbD (bitPosition c y) = false := by
  have hl := Config.wf_leds hw
  have h0 := Config.leds_pos hw
  constructor
  · intro h
    have hbit := congrArg (BitVec.getLsbD · (bitPosition c y)) h
    simpa [getLsbD_bitMask hl h0] using hbit
  · intro h
    refine BitVec.eq_of_getLsbD_eq fun i _ => ?_
    rw [BitVec.getLsbD_and, getLsbD_bitMask hl h0, BitVec.getLsbD_zero]
    by_cases hi : i = bitPosition c y
    · rw [hi, h, Bool.false_and]
    · rw [decide_eq_false hi, Bool.and_false]

end PlottedCell

/-! ### The frame buffer after a PLOT that names cells (R75, R79) -/

section PlotPixel

variable {c : Config} {m : Memory}

/-- A second PLOT with the same operands changes nothing (R79). -/
theorem plotPixel_plotPixel (hw : c.wf = true) (hm : Memory.wf m) (x y color : Nat) :
    plotPixel c x y color (plotPixel c x y color m) = plotPixel c x y color m := by
  have hwf : Memory.wf (plotPixel c x y color m) := plotPixel_wf hm
  refine Memory.eq_of_read (plotPixel_wf hwf) hwf fun key => ?_
  by_cases hk : ∃ ch < c.colors, key = plotKey c x y ch
  · obtain ⟨ch, hch, rfl⟩ := hk
    rw [read_plotPixel_channel hw hwf x y color hch, read_plotPixel_channel hw hm x y color hch,
      plottedCell_plottedCell hw]
  · exact read_plotPixel_other hw hwf fun ch hch h => hk ⟨ch, hch, h⟩

/-- A PLOT gives its pixel's bit of each channel the colour's. -/
theorem getLsbD_plotPixel_same (hw : c.wf = true) (hm : Memory.wf m) (x y color : Nat) {ch : Nat}
    (hch : ch < c.colors) :
    (Memory.read (plotPixel c x y color m) (plotKey c x y ch)).getLsbD (bitPosition c y) = color.testBit ch := by
  rw [read_plotPixel_channel hw hm x y color hch, getLsbD_plottedCell hw y _ _ (bitPosition_lt (Config.leds_pos hw) y),
    if_pos rfl, channelLit]

/-- A PLOT leaves the bits of every other in-panel pixel, since no two pixels share one. -/
theorem getLsbD_plotPixel_other (hw : c.wf = true) (hm : Memory.wf m) {x y x' y' : Nat} (color ch' : Nat)
    (hx : x < c.w) (hy : y < c.h) (hx' : x' < c.w) (hy' : y' < c.h) (hne : x' ≠ x ∨ y' ≠ y) :
    (Memory.read (plotPixel c x y color m) (plotKey c x' y' ch')).getLsbD (bitPosition c y')
      = (Memory.read m (plotKey c x' y' ch')).getLsbD (bitPosition c y') := by
  by_cases hk : ∃ ch < c.colors, plotKey c x' y' ch' = plotKey c x y ch
  · obtain ⟨ch, hch, hkey⟩ := hk
    have hbit : bitPosition c y' ≠ bitPosition c y := by
      intro hbit
      obtain ⟨haddr, hchip⟩ := cellKey_inj (chipIndex_lt hw hx' hy') (chipIndex_lt hw hx hy) hkey
      obtain ⟨rfl, rfl, -⟩ := mapping_inj hw hx' hx haddr hchip hbit
      exact hne.elim (· rfl) (· rfl)
    rw [hkey, read_plotPixel_channel hw hm x y color hch,
      getLsbD_plottedCell hw y _ _ (bitPosition_lt (Config.leds_pos hw) y'), if_neg hbit]
  · rw [read_plotPixel_other hw hm fun ch hch h => hk ⟨ch, hch, h⟩]

end PlotPixel

/-! ### The pixel function after a PLOT (R79, R81) -/

/-- The state a PLOT at (x, y) leaves when it names cells (R77). -/
abbrev State.plotted (s : State) (x y color : Nat) : State := { s with fb := plotPixel s.cfg x y color s.fb }

/-- A colour is the sum of its lit channels. -/
theorem foldl_channels_eq_mod {unlit : Nat → Prop} [DecidablePred unlit] {color n : Nat}
    (h : ∀ ch < n, (unlit ch ↔ color.testBit ch = false)) :
    (List.range n).foldl (fun v ch => v + if unlit ch then 0 else 2 ^ ch) 0 = color % 2 ^ n := by
  induction n with
  | zero => rw [List.range_zero, List.foldl_nil, pow_zero, Nat.mod_one]
  | succ n ih =>
    rw [List.range_succ, List.foldl_concat, ih fun ch hch => h ch (by omega), Nat.mod_pow_succ, ← Nat.toNat_testBit]
    simp only [h n (by omega)]
    cases color.testBit n <;> simp

section Plot

variable {s : State}

theorem State.plotted_plotted (hw : s.cfg.wf = true) (hm : Memory.wf s.fb) (x y color : Nat) :
    (s.plotted x y color).plotted x y color = s.plotted x y color := by
  simp only [State.plotted, plotPixel_plotPixel hw hm]

/-- The plotted pixel reads back, also where y = H aliases to cells of the panel (R78, R79). -/
theorem pixel_plotted_same (hw : s.cfg.wf = true) (hm : Memory.wf s.fb) (x y : Nat) {color : Nat}
    (hcolor : color < 2 ^ s.cfg.colors) : pixel (s.plotted x y color) x y = color := by
  refine (foldl_channels_eq_mod fun ch hch => ?_).trans (Nat.mod_eq_of_lt hcolor)
  rw [← getLsbD_plotPixel_same hw hm x y color hch]
  exact and_bitMask_eq_zero_iff hw _ y

theorem pixel_plotted_other (hw : s.cfg.wf = true) (hm : Memory.wf s.fb) {x y x' y' : Nat} (color : Nat)
    (hx : x < s.cfg.w) (hy : y < s.cfg.h) (hx' : x' < s.cfg.w) (hy' : y' < s.cfg.h) (hne : x' ≠ x ∨ y' ≠ y) :
    pixel (s.plotted x y color) x' y' = pixel s x' y' := by
  refine List.foldl_ext _ _ _ fun v ch _ => ?_
  have hbit := getLsbD_plotPixel_other hw hm color ch hx hy hx' hy' hne
  simp only [and_bitMask_eq_zero_iff hw, State.cell, hbit]

/-! ### What PLOT answers (R72, R77, R78) -/

theorem rangeRejects_iff {c : Config} {x y : Int} :
    rangeRejects c x y = true ↔ x < 0 ∨ (c.w : Int) ≤ x ∨ y < 0 ∨ (c.h : Int) < y := by
  simp [rangeRejects, or_assoc]

theorem rangeRejects_of_accepted {c : Config} {x y : Nat} (hx : x < c.w) (hy : y ≤ c.h) :
    rangeRejects c x y = false := by
  rw [Bool.eq_false_iff, Ne, rangeRejects_iff]
  omega

theorem exec_plot_of_inited (hw : s.cfg.wf = true) (hi : s.inited = true) (x y : Int) (color : Nat) :
    exec (.plot x y color) s = plotBody x y color s :=
  (Guard.config_of_wf hw).trans (Guard.inited_of_inited hi)

theorem exec_plot_rejected (hw : s.cfg.wf = true) (hi : s.inited = true) {x y : Int} (color : Nat)
    (h : x < 0 ∨ (s.cfg.w : Int) ≤ x ∨ y < 0 ∨ (s.cfg.h : Int) < y) : exec (.plot x y color) s = .next s :=
  (exec_plot_of_inited hw hi x y color).trans (plotBody_rejected (rangeRejects_iff.2 h))

theorem exec_plot_inside (hw : s.cfg.wf = true) (hi : s.inited = true) {x y : Nat} (color : Nat) (hx : x < s.cfg.w)
    (hy : y < s.cfg.h) : exec (.plot x y color) s = .next (s.plotted x y color) :=
  (exec_plot_of_inited hw hi x y color).trans
    (plotBody_inside (rangeRejects_of_accepted hx hy.le) (chipIndex_lt hw hx hy))

theorem exec_plot_height (hw : s.cfg.wf = true) (hi : s.inited = true) {x : Nat} (color : Nat) (hx : x < s.cfg.w) :
    exec (.plot x s.cfg.h color) s = plotBeyond x s.cfg.h color s :=
  (exec_plot_of_inited hw hi x s.cfg.h color).trans
    (plotBody_beyond (rangeRejects_of_accepted hx le_rfl) (by
      rw [Int.toNat_natCast, Int.toNat_natCast, chipIndex_height hw]
      exact Nat.le_add_left _ _))

/-- An accepted PLOT whose cells are in range updates them, in the panel or by their linear index (R77, R78). -/
theorem plotBody_of_cells {x y : Int} {color : Nat} (hr : rangeRejects s.cfg x y = false)
    (hcells : chipIndex s.cfg x.toNat y.toNat < s.cfg.chips
      ∨ (s.cfg.yEqH = .aliasFlat ∧ lastLinearIndex s.cfg x.toNat y.toNat < s.cfg.size)) :
    plotBody x y color s = .next (s.plotted x.toNat y.toNat color) := by
  rcases Nat.lt_or_ge (chipIndex s.cfg x.toNat y.toNat) s.cfg.chips with hc | hc
  · exact plotBody_inside hr hc
  · obtain ⟨hy, hlast⟩ := hcells.resolve_left (Nat.not_lt.2 hc)
    rw [plotBody_beyond hr hc, plotBeyond_alias hy hlast]

/-- A PLOT that completes completes again and changes nothing more (R79). -/
theorem exec_plot_again (hm : Memory.wf s.fb) {t : State} {x y : Int} {color : Nat}
    (h : exec (.plot x y color) s = .next t) : exec (.plot x y color) t = .next t := by
  obtain ⟨hw, hi, hb⟩ := execPlot_next h
  rcases plotBody_next hb with rfl | ⟨hr, rfl, hcells⟩
  · exact h
  · calc exec (.plot x y color) (s.plotted x.toNat y.toNat color)
        = plotBody x y color (s.plotted x.toNat y.toNat color) :=
          exec_plot_of_inited (s := s.plotted _ _ color) hw hi x y color
      _ = .next ((s.plotted x.toNat y.toNat color).plotted x.toNat y.toNat color) :=
          plotBody_of_cells (s := s.plotted _ _ color) hr hcells
      _ = .next (s.plotted x.toNat y.toNat color) := by rw [State.plotted_plotted hw hm]

end Plot

/-! ### The statements about PLOT -/

/-- Settles O13: the check is R72's, and PLOT answers the state itself when it rejects. -/
theorem outOfRangePlotIsSilent : Obligations.OutOfRangePlotIsSilent := fun _ _ _ color hw hi =>
  ⟨rangeRejects_iff, exec_plot_rejected hw hi color⟩

/-- Settles O14: `plotPixel` read at each channel's key and at every other key. -/
theorem plotUpdatesItsCells : Obligations.PlotUpdatesItsCells := by
  rintro s x y color ⟨hw, hm, -⟩ hi hx hy
  exact ⟨s.plotted x y color, exec_plot_inside hw hi color hx hy, rfl, chipIndex_lt hw hx hy,
    fun ch hch => read_plotPixel_channel hw hm x y color hch, fun key hkey => read_plotPixel_other hw hm hkey⟩

/-- Settles O15: y = H has chip index x div CW + CHIPS, and so the keys of chip x div CW one address further. -/
theorem plotAtThePanelHeight : Obligations.PlotAtThePanelHeight := by
  refine ⟨by decide, ?_⟩
  rintro s x color ⟨hw, hm, -⟩ hi hx
  dsimp only
  rw [exec_plot_height hw hi color hx, ← lastLinearIndex_height hw, ← chipIndex_height hw, ← bitMask_height hw]
  refine ⟨plotBeyond_fault, plotBeyond_ignore, plotBeyond_alias_outside, fun hy hlast => ?_⟩
  refine ⟨s.plotted x s.cfg.h color, plotBeyond_alias hy hlast, rfl, pixel_plotted_same hw hm x s.cfg.h,
    fun ch hch => ?_, fun key hkey => ?_⟩
  · have hread := read_plotPixel_channel hw hm x s.cfg.h color hch
    rw [plotKey_height hw] at hread
    exact hread
  · refine read_plotPixel_other hw hm fun ch hch => ?_
    rw [plotKey_height hw]
    exact hkey ch hch

/-- Settles O16: read-back and the other pixels by the bits, idempotence by `exec_plot_again`. -/
theorem plotReadsBack : Obligations.PlotReadsBack := by
  rintro s color ⟨hw, hm, -⟩ hi hcolor
  refine ⟨fun x hx y hy => ?_, fun x y => exec_plot_rejected hw hi color,
    fun x y t h => ⟨exec_plot_again hm h, ?_⟩⟩
  · exact ⟨_, exec_plot_inside hw hi color hx hy, pixel_plotted_same hw hm x y hcolor,
      fun x' hx' y' hy' => pixel_plotted_other hw hm color hx hy hx' hy'⟩
  · rw [exec_bufferOp_eq (.inl ⟨x, y, color, rfl⟩) h]

/-! ### CLEAR (R82, R83) -/

section Clear

variable {c : Config} {m : Memory} {key : Nat}

/-- The cell is as it was, or holds data under the flag with its unused bits 0: what PLOTs can make of a cell. -/
def KeptOrStored (c : Config) (old new : Byte) : Prop :=
  new = old ∨ ∃ v : Byte, cellData c v = v ∧ new = v ||| Config.modFlag

theorem keptOrStored_plottedCell (hw : c.wf = true) (y : Nat) (lit : Bool) (old : Byte) :
    KeptOrStored c old (plottedCell c (bitMask c y) lit old) := by
  rcases updatedCell_cases (c := c) old (plottedData c old (bitMask c y) lit) with ⟨-, hu⟩ | ⟨-, hu⟩
  · exact .inl hu
  · exact .inr ⟨_, cellData_plottedData (cellData_bitMask hw y) old lit, hu⟩

theorem KeptOrStored.trans {u v w : Byte} (h : KeptOrStored c u v) (h' : KeptOrStored c v w) : KeptOrStored c u w := by
  rcases h' with rfl | hstored
  · exact h
  · exact .inr hstored

theorem keptOrStored_clearBuffer (hw : c.wf = true) (hm : Memory.wf m) (key : Nat) :
    KeptOrStored c (Memory.read m key) (Memory.read (clearBuffer c m) key) := by
  rw [clearBuffer_eq]
  refine (Memory.foldl_keeps (P := fun m' => Memory.wf m' ∧ KeptOrStored c (Memory.read m key) (Memory.read m' key)) _
    (fun m' u _ ⟨hwf, hd⟩ => ⟨plotChannel_wf hwf, ?_⟩) ⟨hm, .inl rfl⟩).2
  rw [read_plotChannel hwf]
  split
  case isTrue hk =>
    subst hk
    exact hd.trans (keptOrStored_plottedCell hw u.2 false _)
  case isFalse => exact hd

/-- An update of CLEAR lights no LED. -/
theorem getLsbD_plotChannel_of_unlit (hw : c.wf = true) (hm : Memory.wf m) (k y : Nat) {b : Nat}
    (hb : b < c.ledsPerCell) (h : (Memory.read m key).getLsbD b = false) :
    (Memory.read (plotChannel c k (bitMask c y) false m) key).getLsbD b = false := by
  rw [read_plotChannel hm]
  split
  case isTrue hk =>
    subst hk
    rw [getLsbD_plottedCell hw y false _ hb, h, ite_self]
  case isFalse => exact h

/-- After CLEAR no LED of any cell is lit: some pixel's update darkens it, and none lights it again. -/
theorem cellData_clearBuffer (hw : c.wf = true) (hm : Memory.wf m) (hk : key < c.size) :
    cellData c (Memory.read (clearBuffer c m) key) = 0#8 := by
  by_contra hlit
  obtain ⟨b, hb, hbit⟩ := exists_getLsbD_of_cellData_ne_zero (Config.wf_leds hw) hlit
  obtain ⟨y, hmem, rfl⟩ := exists_mem_clearUpdates hw hk hb
  rw [clearBuffer_eq] at hbit
  have hdark := (foldl_reaches (P := Memory.wf)
    (Q := fun m' => Memory.wf m' ∧ (Memory.read m' key).getLsbD (bitPosition c y) = false) hmem
    (fun _ _ _ hwf => plotChannel_wf hwf)
    (fun m' u _ ⟨hwf, hd⟩ => ⟨plotChannel_wf hwf, getLsbD_plotChannel_of_unlit hw hwf u.1 u.2 hb hd⟩)
    (fun m' hwf => ⟨plotChannel_wf hwf, by
      rw [read_plotChannel hwf, if_pos rfl, getLsbD_plottedCell hw y false _ hb, if_pos rfl]⟩) hm).2
  rw [hdark] at hbit
  cases hbit

/-- The closed form of CLEAR (R83). -/
theorem read_clearBuffer (hw : c.wf = true) (hm : Memory.wf m) (hk : key < c.size) :
    Memory.read (clearBuffer c m) key
      = if cellData c (Memory.read m key) ≠ 0#8 then Config.modFlag else Memory.read m key := by
  have hdark := cellData_clearBuffer hw hm hk
  split
  case isTrue hlit =>
    rcases keptOrStored_clearBuffer hw hm key with hkept | ⟨v, hv, hstored⟩
    · rw [hkept] at hdark
      exact absurd hdark hlit
    · rw [hstored, cellData_or_modFlag (Config.wf_leds hw), hv] at hdark
      rw [hstored, hdark, BitVec.zero_or]
  case isFalse hunlit =>
    rcases darkened_clearBuffer hw hm key with hkept | ⟨-, hlt⟩
    · exact hkept
    · rw [not_not.1 hunlit] at hlt
      exact absurd hlt (Nat.not_lt_zero _)

theorem read_clearBuffer_of_size_le (hw : c.wf = true) (hm : Memory.below c.size m) (hk : c.size ≤ key) :
    Memory.read (clearBuffer c m) key = Memory.read m key := by
  have habsent {m : Memory} (hm : Memory.below c.size m) : Memory.read m key = Memory.unlisted :=
    Memory.read_absent fun p hp h => absurd (hm p hp) (by omega)
  rw [habsent (clearBuffer_below hw hm), habsent hm]

end Clear

theorem exec_clear_of_inited {s : State} (hw : s.cfg.wf = true) (hi : s.inited = true) :
    exec .clear s = .next s.clearBody :=
  (Guard.config_of_wf hw).trans (Guard.inited_of_inited hi)

/-- Settles O19: every cell by `read_clearBuffer`; a key that is no cell's is listed neither before nor after. -/
theorem clearBlanksTheBuffer : Obligations.ClearBlanksTheBuffer := by
  rintro s ⟨hw, hm, hbelow, -⟩ hi
  exact ⟨s.clearBody, exec_clear_of_inited hw hi, rfl,
    fun a ha chip hchip => read_clearBuffer hw hm (cellKey_lt_size ha hchip),
    fun key hk => read_clearBuffer_of_size_le hw hbelow hk⟩

end Sys2Proof.Machine
end

