-- ==== Sys2Proof/Proofs/EncoderEvents.lean ====
section
/-! PROOFS. The event lists of a write transaction: their lengths (R105), and the levels they leave the lines at,
whatever the levels before (R94 to R101). -/

namespace Sys2Proof.Machine

open Sys2Proof

/-! ### Lengths (R105) -/

@[simp] theorem length_clkPulses (n : Nat) : (clkPulses n).length = 2 * n := by
  induction n with
  | zero => rfl
  | succ n ih =>
    rw [clkPulses, List.length_append, ih]
    simp only [clkPulse, List.length_cons, List.length_nil]
    omega

@[simp] theorem length_selectEvents_zero (n : Nat) : (selectEvents n 0).length = 2 * n + 1 := by
  simp [selectEvents, flushEvents]

@[simp] theorem length_selectEvents_succ (n k : Nat) : (selectEvents n (k + 1)).length = 2 * n + 5 + 2 * k := by
  simp only [selectEvents, flushEvents, clkPulse, List.length_append, List.length_cons, List.length_nil,
    length_clkPulses]
  omega

@[simp] theorem length_bitsEvents (bs : List Bool) : (bitsEvents bs).length = 3 * bs.length := by
  induction bs with
  | nil => rfl
  | cons b bs ih =>
    rw [bitsEvents, List.length_append, ih, List.length_cons]
    simp only [bitEvents, List.length_cons, List.length_nil]
    omega

@[simp] theorem length_sendBitsEvents (v n : Nat) : (sendBitsEvents v n).length = 3 * n := by
  rw [sendBitsEvents, length_bitsEvents, length_bitsMsb]

theorem length_sendDataEvents_succ (c : Config) (k a d : Nat) :
    (sendDataEvents c (k + 1) a d).length
      = (2 * c.chips + 5 + 2 * k) + 3 * (c.idBits + c.addrBits + c.ledsPerCell) := by
  simp only [sendDataEvents, List.length_append, length_selectEvents_succ, length_sendBitsEvents]
  omega

/-! ### Levels (R94 to R101) -/

/-- The last bit sent is the lowest one (R57). -/
theorem bitsMsb_succ_eq_concat (v n : Nat) : bitsMsb v (n + 1) = bitsMsb (v / 2) n ++ [v.testBit 0] := by
  have h := bitsMsb_digits (v / 2) n (w := v % 2) (n := 1) (Nat.mod_lt _ (by decide))
  rw [pow_one, Nat.div_add_mod'] at h
  simpa [bitsMsb] using h

theorem foldl_levelsAfter_clkPulses_succ (n : Nat) (lv : Lines Level) :
    (clkPulses (n + 1)).foldl levelsAfter lv = { lv with clk := .low } := by
  induction n generalizing lv with
  | zero => rfl
  | succ n ih =>
    rw [clkPulses, List.foldl_append, ih]
    rfl

/-- SELECT on a chain of chips leaves CLK low and CS high (R95, R96, R104). -/
theorem foldl_levelsAfter_selectEvents {n : Nat} (hn : 0 < n) (k : Nat) (lv : Lines Level) :
    (selectEvents n k).foldl levelsAfter lv = { lv with clk := .low, cs := .high } := by
  obtain ⟨m, rfl⟩ := Nat.exists_eq_succ_of_ne_zero hn.ne'
  have hflush : (flushEvents (m + 1)).foldl levelsAfter lv = { lv with clk := .low, cs := .high } :=
    foldl_levelsAfter_clkPulses_succ m _
  match k with
  | 0 => exact hflush
  | 1 =>
    rw [selectEvents, List.foldl_append, List.foldl_append, hflush]
    rfl
  | k + 2 =>
    rw [selectEvents, List.foldl_append, List.foldl_append, hflush, List.foldl_cons, foldl_levelsAfter_clkPulses_succ]
    rfl

/-- A bit string leaves WR high and DATA at its last bit (R99). -/
theorem foldl_levelsAfter_bitsEvents_concat (bs : List Bool) (b : Bool) (lv : Lines Level) :
    (bitsEvents (bs ++ [b])).foldl levelsAfter lv = { lv with data := Level.ofBool b, wr := .high } := by
  induction bs generalizing lv with
  | nil => rfl
  | cons b' bs ih =>
    rw [List.cons_append, bitsEvents, List.foldl_append, ih]
    rfl

/-- A write transaction leaves every line at a level of its own making (R101, R102). -/
theorem foldl_levelsAfter_sendDataEvents {c : Config} (hw : c.wf = true) (k a d : Nat) (lv : Lines Level) :
    (sendDataEvents c k a d).foldl levelsAfter lv = ⟨Level.ofBool (d.testBit 0), .low, .high, .high⟩ := by
  obtain ⟨n, hn⟩ := Nat.exists_eq_succ_of_ne_zero (Config.leds_pos hw).ne'
  rw [sendDataEvents_eq, writeBits, hn, bitsMsb_succ_eq_concat, ← List.append_assoc, List.foldl_append,
    foldl_levelsAfter_selectEvents (Config.chips_pos hw), foldl_levelsAfter_bitsEvents_concat]

end Sys2Proof.Machine
end

