-- ==== Sys2Proof/Proofs/Commit.lean ====
section
/-! PROOFS. COMMIT (41_commit.md): the scan order (R88), the transactions it sends and what it leaves of the controller
(R89 to R92), and the operations that find nothing to do after it and after INIT (R90, R92, R113). -/

namespace Sys2Proof.Machine

open Sys2Proof

/-! ### The scan order (R88) -/

theorem channelAddress_mod_band {c : Config} {base : Nat} (hb : base < c.band) (ch : Nat) :
    channelAddress c base ch % c.band = base := by
  rw [channelAddress, Nat.add_mul_mod_self_right, Nat.mod_eq_of_lt hb]

theorem channelAddress_div_band {c : Config} {base : Nat} (hb : base < c.band) (ch : Nat) :
    channelAddress c base ch / c.band = ch := by
  rw [channelAddress, Nat.add_mul_div_right _ _ (by omega), Nat.div_eq_of_lt hb, Nat.zero_add]

/-- `p` is a cell of a chip before `q`'s, or of the same chip at a base address before `q`'s, or at the same base
address in a colour band before `q`'s (R88). -/
def ScannedBefore (c : Config) (p q : Nat × Nat) : Prop :=
  p.2 < q.2 ∨ (p.2 = q.2 ∧ (p.1 % c.band < q.1 % c.band
    ∨ (p.1 % c.band = q.1 % c.band ∧ p.1 / c.band < q.1 / c.band)))

/-- Each of the three loops ascends, and so does the scan. -/
theorem pairwise_scanOrder (c : Config) : (scanOrder c).Pairwise (ScannedBefore c) := by
  refine List.pairwise_flatMap.2 ⟨fun chip _ => List.pairwise_flatMap.2 ⟨fun b hb => ?_, ?_⟩, ?_⟩
  · have hb := List.mem_range.1 hb
    refine List.pairwise_map.2 (List.pairwise_lt_range.imp fun {ch ch'} hlt => .inr ⟨rfl, .inr ⟨?_, ?_⟩⟩)
    · exact (channelAddress_mod_band hb ch).trans (channelAddress_mod_band hb ch').symm
    · exact lt_of_eq_of_lt (channelAddress_div_band hb ch) (hlt.trans_eq (channelAddress_div_band hb ch').symm)
  · refine List.pairwise_lt_range.imp_of_mem fun {b b'} hb hb' hlt p hp q hq => ?_
    obtain ⟨ch, -, rfl⟩ := List.mem_map.1 hp
    obtain ⟨ch', -, rfl⟩ := List.mem_map.1 hq
    refine .inr ⟨rfl, .inl ?_⟩
    exact lt_of_eq_of_lt (channelAddress_mod_band (List.mem_range.1 hb) ch)
      (hlt.trans_eq (channelAddress_mod_band (List.mem_range.1 hb') ch').symm)
  · refine List.pairwise_lt_range.imp fun {chip chip'} hlt p hp q hq => .inl ?_
    simp only [List.mem_flatMap, List.mem_map] at hp hq
    obtain ⟨b, -, ch, -, rfl⟩ := hp
    obtain ⟨b', -, ch', -, rfl⟩ := hq
    exact hlt

/-- Settles O31: every cell is visited, and each loop ascends. -/
theorem scanOrderVisitsEveryCellOnce : Obligations.ScanOrderVisitsEveryCellOnce := fun c hw =>
  ⟨fun _ _ => mem_scanOrder hw, pairwise_scanOrder c⟩

/-! ### What the visits of a list of cells send (R89) -/

/-- The cells of a list whose flag is set. -/
def dirtyAmong (s : State) (l : List (Nat × Nat)) : List (Nat × Nat) := l.filter fun p => modified (s.cell p.1 p.2)

/-- The transaction that sends a cell (R89). -/
def cellEvents (s : State) (p : Nat × Nat) : List Event :=
  sendDataEvents s.cfg (p.2 + 1) p.1 (cellData s.cfg (s.cell p.1 p.2)).toNat

/-- `sel` once the cells of a list have been sent. -/
def selAfter (sel : Option Nat) (l : List (Nat × Nat)) : Option Nat := l.getLast?.elim sel fun p => some (p.2 + 1)

theorem selAfter_cons (sel : Option Nat) (p : Nat × Nat) (l : List (Nat × Nat)) :
    selAfter sel (p :: l) = selAfter (some (p.2 + 1)) l := by
  rw [selAfter, selAfter, List.getLast?_cons]
  cases l.getLast? <;> rfl

theorem dirtyAmong_congr {s t : State} {l : List (Nat × Nat)} (h : ∀ p ∈ l, t.cell p.1 p.2 = s.cell p.1 p.2) :
    dirtyAmong t l = dirtyAmong s l :=
  List.filter_congr fun p hp => by rw [h p hp]

theorem flatMap_cellEvents_congr {s t : State} {l : List (Nat × Nat)} (hcfg : t.cfg = s.cfg)
    (h : ∀ p ∈ l, t.cell p.1 p.2 = s.cell p.1 p.2) : l.flatMap (cellEvents t) = l.flatMap (cellEvents s) :=
  List.flatMap_congr fun p hp => by rw [cellEvents, cellEvents, hcfg, h p hp]

/-- The visit of a dirty cell is the emission of its transaction, with the frame buffer apart (R89). -/
theorem commitCell_dirty_eq_emit {s : State} {p : Nat × Nat} (h : modified (s.cell p.1 p.2) = true) :
    s.commitCell p = { s.emit (cellEvents s p) with fb := (s.commitCell p).fb, sel := some (p.2 + 1) } := by
  rw [State.commitCell_dirty h, State.sendData_eq]
  rfl

/-- Visits of different cells send those that were dirty from the start, and change nothing of the controller but the
frame buffer, the trace, the lines and `sel` (R89, R91). -/
theorem foldl_commitCell_eq_emit {s : State} (hm : Memory.wf s.fb) {l : List (Nat × Nat)} (hnodup : l.Nodup)
    (hchips : ∀ p ∈ l, p.2 < s.cfg.chips) :
    l.foldl State.commitCell s
      = { s.emit ((dirtyAmong s l).flatMap (cellEvents s)) with
          fb := (l.foldl State.commitCell s).fb
          sel := selAfter s.sel (dirtyAmong s l) } := by
  induction l generalizing s with
  | nil => simp [dirtyAmong, selAfter, State.emit]
  | cons p l ih =>
    obtain ⟨hnew, hnodup⟩ := List.nodup_cons.1 hnodup
    obtain ⟨hchip, hchips⟩ := List.forall_mem_cons.1 hchips
    rw [List.foldl_cons]
    cases hp : modified (s.cell p.1 p.2) with
    | false =>
      have hdirty : dirtyAmong s (p :: l) = dirtyAmong s l := List.filter_cons_of_neg (by simp [hp])
      rw [State.commitCell_clean hp, hdirty]
      exact ih hm hnodup hchips
    | true =>
      have hdirty : dirtyAmong s (p :: l) = p :: dirtyAmong s l := List.filter_cons_of_pos hp
      have hcells : ∀ q ∈ l, (s.commitCell p).cell q.1 q.2 = s.cell q.1 q.2 := fun q hq =>
        cell_commitCell_other hm hchip (hchips q hq) (ne_of_mem_of_not_mem hq hnew)
      have hevents : (dirtyAmong s l).flatMap (cellEvents (s.commitCell p))
          = (dirtyAmong s l).flatMap (cellEvents s) :=
        flatMap_cellEvents_congr (State.commitCell_cfg s p) fun q hq => hcells q (List.mem_of_mem_filter hq)
      rw [ih (s := s.commitCell p) (State.commitCell_fb_wf hm) hnodup (by simpa using hchips),
        dirtyAmong_congr hcells, hevents, hdirty, List.flatMap_cons, selAfter_cons, ← State.emit_emit,
        commitCell_dirty_eq_emit hp]
      rfl

theorem commitEvents_eq (s : State) : commitEvents s = (dirtyCells s).flatMap (cellEvents s) := rfl

/-- COMMIT is the emission of the dirty cells' transactions, with the frame buffer and `sel` apart (R89 to R91). -/
theorem commitBody_eq_emit {s : State} (hw : s.cfg.wf = true) (hm : Memory.wf s.fb) :
    s.commitBody
      = { s.emit (commitEvents s) with fb := s.commitBody.fb, sel := selAfter s.sel (dirtyCells s) } :=
  foldl_commitCell_eq_emit hm (nodup_scanOrder s.cfg) fun _ hp => ((mem_scanOrder hw).1 hp).2

/-! ### What COMMIT leaves (R89 to R91) -/

@[simp] theorem State.commitBody_cfg (s : State) : s.commitBody.cfg = s.cfg := (transmits_commitBody s).cfg

section CommitBody

variable {s : State} (hw : s.cfg.wf = true) (hm : Memory.wf s.fb)

include hw hm

theorem trace_commitBody : s.commitBody.trace = s.trace ++ commitEvents s := by
  rw [commitBody_eq_emit hw hm]
  rfl

theorem cell_commitBody {a chip : Nat} (ha : a < s.cfg.cells) (hchip : chip < s.cfg.chips) :
    s.commitBody.cell a chip = sentCell s.cfg (s.cell a chip) := by
  rw [State.cell, State.commitBody_cfg]
  exact read_commitBody hw hm (cellKey_lt_size ha hchip)

/-- A key that is no cell's is not visited. -/
theorem read_commitBody_of_size_le {key : Nat} (hk : s.cfg.size ≤ key) :
    Memory.read s.commitBody.fb key = Memory.read s.fb key := by
  rw [State.commitBody, read_foldl_commitCell (Config.wf_leds hw) hm, if_neg]
  rintro ⟨p, hp, rfl⟩
  obtain ⟨ha, hchip⟩ := (mem_scanOrder hw).1 hp
  exact absurd (cellKey_lt_size ha hchip) (Nat.not_lt.2 hk)

/-- With no dirty cell nothing is sent. -/
theorem bus_commitBody_of_clean (h : (dirtyCells s).getLast? = none) :
    s.commitBody.sel = s.sel ∧ s.commitBody.levels = s.levels ∧ s.commitBody.rx = s.rx := by
  have hnone := List.getLast?_eq_none_iff.1 h
  have hevents : commitEvents s = [] := by rw [commitEvents_eq, hnone, List.flatMap_nil]
  rw [commitBody_eq_emit hw hm, hevents, hnone]
  exact ⟨rfl, rfl, rfl⟩

/-- The lines and `sel` are those of the last frame. -/
theorem bus_commitBody_of_dirty {p : Nat × Nat} (h : (dirtyCells s).getLast? = some p) :
    s.commitBody.sel = some (p.2 + 1)
      ∧ s.commitBody.levels
        = ⟨Level.ofBool ((cellData s.cfg (s.cell p.1 p.2)).toNat.testBit 0), .low, .high, .high⟩ := by
  obtain ⟨front, hfront⟩ := List.getLast?_eq_some_iff.1 h
  have hevents : commitEvents s = front.flatMap (cellEvents s) ++ cellEvents s p := by
    rw [commitEvents_eq, hfront, List.flatMap_append, List.flatMap_singleton]
  rw [commitBody_eq_emit hw hm, hevents, selAfter, h]
  refine ⟨rfl, (busRun_levels _ _ _).trans ?_⟩
  rw [List.foldl_append]
  exact foldl_levelsAfter_sendDataEvents hw _ _ _ _

end CommitBody

/-- A cell left as sent has its data and a clear flag (R14, R89). -/
theorem sentCell_spec {c : Config} (hl : c.ledsPerCell ≤ 7) (v : Byte) :
    sentCell c v = (if modified v then v &&& c.dataMask else v)
      ∧ modified (sentCell c v) = false ∧ sentCell c v &&& c.dataMask = v &&& c.dataMask := by
  refine ⟨rfl, modified_sentCell hl v, ?_⟩
  cases h : modified v with
  | false => rw [sentCell_of_clean h]
  | true =>
    rw [sentCell_of_modified h]
    exact cellData_cellData v

/-- The lowest LED of a cell is one of its data bits. -/
theorem testBit_zero_cellData {c : Config} (hw : c.wf = true) (v : Byte) :
    (cellData c v).toNat.testBit 0 = v.getLsbD 0 := by
  rw [BitVec.testBit_toNat]
  exact getLsbD_cellData hw v (Config.leds_pos hw)

/-- Settles O32: COMMIT is the emission of the dirty cells' transactions, and leaves each cell as sent. -/
theorem commitSendsTheDirtyCells : Obligations.CommitSendsTheDirtyCells := by
  rintro s ⟨hw, hm, -⟩ hi
  refine ⟨s.commitBody, exec_commit hw hi, ?_, trace_commitBody hw hm, fun a ha chip hchip => ?_,
    fun key hk => read_commitBody_of_size_le hw hm hk, ?_⟩
  · rw [commitBody_eq_emit hw hm]
    rfl
  · rw [cell_commitBody hw hm ha hchip]
    exact sentCell_spec (Config.wf_leds hw) _
  · split
    next hnone => exact bus_commitBody_of_clean hw hm hnone
    next p hsome =>
      rw [← testBit_zero_cellData hw]
      exact bus_commitBody_of_dirty hw hm hsome

/-- Settles O36: the trace grows by the dirty cells' transactions, whose lengths are R105's. -/
theorem commitEventCount : Obligations.CommitEventCount := by
  rintro s ⟨hw, hm, -⟩ hi
  refine ⟨s.commitBody, exec_commit hw hi, ?_⟩
  rw [trace_commitBody hw hm, List.length_append, commitEvents, List.length_flatMap]
  simp only [length_sendDataEvents_succ]

/-! ### Nothing to do (R90, R92, R113) -/

/-- With every flag clear each visit skips its cell. -/
theorem commitBody_of_clean {s : State} (hw : s.cfg.wf = true)
    (h : ∀ a < s.cfg.cells, ∀ chip < s.cfg.chips, modified (s.cell a chip) = false) : s.commitBody = s := by
  refine commitBody_keeps_of_mem (P := fun t => t = s) (fun t p hp _ ht => ?_) rfl
  obtain ⟨ha, hchip⟩ := (mem_scanOrder hw).1 hp
  rw [ht, State.commitCell_clean (h p.1 ha p.2 hchip)]

/-- Settles O34: every visit skips its cell. -/
theorem commitOfACleanBufferIsEmpty : Obligations.CommitOfACleanBufferIsEmpty := by
  rintro s ⟨hw, -⟩ hi hclean
  rw [exec_commit hw hi, commitBody_of_clean hw hclean]

/-- After COMMIT no flag is set, so COMMIT again changes nothing (R90). -/
theorem commitBody_commitBody {s : State} (hw : s.cfg.wf = true) (hm : Memory.wf s.fb) :
    s.commitBody.commitBody = s.commitBody := by
  refine commitBody_of_clean (s := s.commitBody) (by rwa [State.commitBody_cfg]) ?_
  rw [State.commitBody_cfg]
  intro a ha chip hchip
  rw [cell_commitBody hw hm ha hchip]
  exact modified_sentCell (Config.wf_leds hw) _

/-- Settles O35: COMMIT completes and leaves every cell clean. -/
theorem secondCommitIsEmpty : Obligations.SecondCommitIsEmpty := by
  rintro s ⟨hw, hm, -⟩ hi
  refine ⟨s.commitBody, exec_commit hw hi, ?_⟩
  rw [exec_commit (s := s.commitBody) (by rwa [State.commitBody_cfg]) ((transmits_commitBody s).inited.trans hi),
    commitBody_commitBody hw hm]

/-- INIT's COMMIT sends every cell, whose data CLEAR has made 0: no cell of the frame buffer is left lit or flagged
(R109, R111, R113). -/
theorem initBody_fb {s : State} (hs : s.wf) : s.initBody.fb = [] := by
  obtain ⟨hw, hm, hbelow, -⟩ := hs
  refine Memory.eq_of_read (initBody_fb_wf hm) ⟨List.Pairwise.nil, nofun⟩ fun key => ?_
  rcases Nat.lt_or_ge key s.cfg.size with hk | hk
  · have hread := read_commitBody (s := s.blankBody) (key := key) (by rwa [State.blankBody_cfg])
      (State.blankBody_fb_wf hm) (by rwa [State.blankBody_cfg])
    rw [State.blankBody_cfg, sentCell_of_modified (modified_blankBody hw hm hk), State.blankBody_fb,
      cellData_clearBuffer hw (filledBuffer_wf hm) hk] at hread
    exact hread
  · exact Memory.read_absent fun p hp h => absurd (initBody_below hw hbelow p hp) (by omega)

/-- On an empty frame buffer CLEAR finds no lit LED (R83). -/
theorem clearBuffer_nil {c : Config} (hw : c.wf = true) : clearBuffer c [] = [] := by
  have hm : Memory.wf [] := ⟨List.Pairwise.nil, nofun⟩
  refine Memory.eq_of_read (clearBuffer_wf hm) hm fun key => ?_
  rcases Nat.lt_or_ge key c.size with hk | hk
  · have hunlit : cellData c (Memory.read [] key) = 0#8 := BitVec.zero_and
    rw [read_clearBuffer hw hm hk, if_neg (not_not.2 hunlit)]
  · exact read_clearBuffer_of_size_le hw nofun hk

/-- Settles O43: INIT leaves an empty frame buffer, in which CLEAR finds no lit LED and COMMIT no flag. -/
theorem freshClearAndCommitDoNothing : Obligations.FreshClearAndCommitDoNothing := by
  intro s hs
  obtain ⟨hw, -⟩ := id hs
  have hfb := initBody_fb hs
  obtain ⟨-, es, -, hes⟩ := initBody_emits s
  have hw' : s.initBody.cfg.wf = true := hes.cfg ▸ hw
  refine ⟨s.initBody, Guard.config_of_wf hw, ?_, ?_⟩
  · rw [exec_clear_of_inited hw' rfl, State.clearBody, hfb, clearBuffer_nil hw', ← hfb]
  · rw [exec_commit hw' rfl, commitBody_of_clean hw' fun a _ chip _ => ?_]
    rw [State.cell, hfb]
    exact BitVec.msb_zero

end Sys2Proof.Machine
end

