-- ==== Sys2Proof/Proofs/BusEncoder.lean ====
section
/-! PROOFS. The bus encoder family (42_bus_encoder.md): the event lists written out (R94 to R99), their lengths (R105),
what SELECT guarantees (R98), and that the frame rows complete (R100 to R102). -/

namespace Sys2Proof.Machine

open Sys2Proof

/-! ### The event lists (R94 to R99) -/

theorem clkPulses_eq_flatten (n : Nat) : clkPulses n = (List.replicate n clkPulse).flatten := by
  induction n with
  | zero => rfl
  | succ n ih => rw [clkPulses, ih, List.replicate_succ, List.flatten_cons]

theorem bitsEvents_eq_flatMap (bs : List Bool) : bitsEvents bs = bs.flatMap bitEvents := by
  induction bs with
  | nil => rfl
  | cons b bs ih => rw [bitsEvents, ih, List.flatMap_cons]

theorem bitsMsb_eq_map_testBit (v n : Nat) : bitsMsb v n = (List.range n).reverse.map v.testBit := by
  induction n with
  | zero => rfl
  | succ n ih => rw [bitsMsb, ih, List.range_succ, List.reverse_concat, List.map_cons]

/-- Settles O22: the recursions over clock pulses and bits, written out as lists. -/
theorem encoderEventSequences : Obligations.EncoderEventSequences := by
  refine ⟨rfl, fun n => ?_, fun n k hk => ?_, fun v n => ?_⟩
  · rw [selectEvents, flushEvents, clkPulses_eq_flatten]
  · obtain ⟨j, rfl⟩ := Nat.exists_eq_add_of_le' hk
    simp only [selectEvents, clkPulses_eq_flatten, Nat.add_sub_cancel, List.append_assoc, List.cons_append,
      List.nil_append]
  · rw [sendBitsEvents, bitsEvents_eq_flatMap, bitsMsb_eq_map_testBit, List.flatMap_map]
    rfl

/-! ### The event counts (R105) -/

section OfPos

variable {k : Nat} (hk : 1 ≤ k)

include hk

theorem length_selectEvents_of_pos (n : Nat) : (selectEvents n k).length = 2 * n + 5 + 2 * (k - 1) := by
  obtain ⟨j, rfl⟩ := Nat.exists_eq_add_of_le' hk
  exact length_selectEvents_succ n j

theorem length_sendCmdEvents_of_pos (c : Config) (p : Nat) : (sendCmdEvents c k p).length
    = (2 * c.chips + 5 + 2 * (k - 1)) + 3 * (c.idBits + c.cmdPayloadBits + c.cmdPadBits) + (2 * c.chips + 1) := by
  simp only [sendCmdEvents, List.length_append, length_selectEvents_of_pos hk, length_selectEvents_zero,
    length_sendBitsEvents]
  omega

theorem length_sendDataEvents_of_pos (c : Config) (a d : Nat) : (sendDataEvents c k a d).length
    = (2 * c.chips + 5 + 2 * (k - 1)) + 3 * (c.idBits + c.addrBits + c.ledsPerCell) := by
  obtain ⟨j, rfl⟩ := Nat.exists_eq_add_of_le' hk
  exact length_sendDataEvents_succ c j a d

end OfPos

/-- Settles O23: each count from its length lemma, the default instance's by its numbers. -/
theorem eventCounts : Obligations.EventCounts := by
  have hchips : Config.standard.chips = 4 := rfl
  refine ⟨length_selectEvents_zero, ?_, ?_, fun n k hk => length_selectEvents_of_pos hk n, length_sendBitsEvents,
    fun c k p hk => length_sendCmdEvents_of_pos hk c p, fun c k a d hk => length_sendDataEvents_of_pos hk c a d,
    fun k p hk => ?_, fun k a d hk => ?_⟩
  · rw [length_selectEvents_zero, hchips]
  · simp only [List.map_cons, List.map_nil, length_selectEvents_succ, hchips]
  · rw [length_sendCmdEvents_of_pos hk, hchips]
    simp only [Config.standard]
    omega
  · rw [length_sendDataEvents_of_pos hk, hchips]
    simp only [Config.standard]
    omega

/-! ### What SELECT guarantees (R98) -/

/-- Settles O24: `busRun_selectEvents`, with CLK at the level it had. -/
theorem selectEstablishesOneChip : Obligations.SelectEstablishesOneChip := by
  intro c lv r k hclk hlen _
  obtain ⟨cs, hrun, ⟨hram, hlog⟩, hstages, hempty⟩ := busRun_selectEvents c hclk (k := k) hlen
  have hlines : ({ lv with cs := .high } : Lines Level) = { lv with clk := .low, cs := .high } := by rw [← hclk]
  rw [hrun]
  exact ⟨hstages, rfl, hram, hlog, hempty, hlines⟩

/-! ### The frame rows (R100 to R102) -/

/-- A command transaction leaves DATA at the frame's last bit and the other lines idle, whatever the levels before
(R100, R104). -/
theorem foldl_levelsAfter_sendCmdEvents {c : Config} (hw : c.wf = true) (k p : Nat) (lv : Lines Level) :
    ∃ b, (sendCmdEvents c k p).foldl levelsAfter lv = ⟨Level.ofBool b, .low, .high, .high⟩ := by
  have hchips := Config.chips_pos hw
  obtain hnil | ⟨front, last, hbits⟩ := List.eq_nil_or_concat' (commandBits c p)
  · have hlen := length_commandBits c p
    rw [hnil] at hlen
    exact absurd hlen (cmdFrameBits_pos c).ne
  · refine ⟨last, ?_⟩
    rw [sendCmdEvents_eq, hbits, List.foldl_append, List.foldl_append, foldl_levelsAfter_selectEvents hchips,
      foldl_levelsAfter_bitsEvents_concat, foldl_levelsAfter_selectEvents hchips]

theorem levels_sendCmd {s : State} (hw : s.cfg.wf = true) (k p : Nat) : IdleLevels (s.sendCmd k p).levels := by
  obtain ⟨b, hb⟩ := foldl_levelsAfter_sendCmdEvents hw k p s.levels
  rw [State.sendCmd_eq, State.emit_levels, busRun_levels, hb]
  exact ⟨rfl, rfl, rfl, by cases b <;> exact nofun⟩

theorem levels_sendData {s : State} (hw : s.cfg.wf = true) (k a d : Nat) :
    (s.sendData k a d).levels = ⟨Level.ofBool (d.testBit 0), .low, .high, .high⟩ := by
  rw [State.sendData_eq, State.emit_levels, busRun_levels]
  exact foldl_levelsAfter_sendDataEvents hw k a d s.levels

/-- Settles O25: every command frame row is SENDCMD, which emits its events and rests idle. -/
theorem commandFramesComplete : Obligations.CommandFramesComplete := by
  intro s i k p hw hcmd
  refine ⟨s.sendCmd k p, (exec_command hcmd).trans (Guard.config_of_wf hw), ?_, ?_, levels_sendCmd hw k p⟩
  · rw [State.sendCmd_eq]
    rfl
  · rfl

/-- Settles O27: the write frame row is SENDDATA, which emits its events and leaves its chip selected. -/
theorem writeFrameCompletes : Obligations.WriteFrameCompletes := by
  intro s k a d hw
  refine ⟨s.sendData k a d, (exec_write s k a d).trans (Guard.config_of_wf hw), ?_, ?_, levels_sendData hw k a d⟩
  · rw [State.sendData_eq]
    rfl
  · rfl

end Sys2Proof.Machine
end

