-- ==== Sys2Proof/Proofs/Init.lean ====
section
/-! PROOFS. INIT at the controller (43_init.md): the events it emits and the state it leaves (R108 to R113), said once
as one equation, from which its count of events and its independence of the prior state and of SENTINEL follow. -/

namespace Sys2Proof.Machine

open Sys2Proof

/-! ### What the parts of INIT emit -/

/-- A state after an emission, but for the fields no event determines. -/
theorem Emits.eq_emit {s t : State} {es : List Event} (h : Emits s t es) :
    t = { s.emit es with fb := t.fb, configured := t.configured, inited := t.inited, sel := t.sel } := by
  obtain ⟨hcfg, hpending, hresets, htrace, hbus⟩ := h
  obtain ⟨cfg, fb, levels, configured, trace, inited, sel, rx, pending, resets⟩ := t
  subst hcfg hpending hresets htrace
  simp only [State.emit, ← hbus]

theorem emits_fillBody (s : State) : Emits s s.fillBody [] := ⟨rfl, rfl, rfl, (List.append_nil _).symm, rfl⟩

theorem emits_clearBody (s : State) : Emits s s.clearBody [] := ⟨rfl, rfl, rfl, (List.append_nil _).symm, rfl⟩

theorem emits_sendCmd (s : State) (k p : Nat) : Emits s (s.sendCmd k p) (sendCmdEvents s.cfg k p) := by
  rw [State.sendCmd_eq]
  exact ⟨rfl, rfl, rfl, rfl, rfl⟩

theorem emits_commitBody {s : State} (hw : s.cfg.wf = true) (hm : Memory.wf s.fb) :
    Emits s s.commitBody (commitEvents s) := by
  rw [commitBody_eq_emit hw hm]
  exact ⟨rfl, rfl, rfl, rfl, rfl⟩

/-- Operations done one after another emit their events one after another. -/
theorem Emits.foldl {α : Type} {f : State → α → State} {g : Config → α → List Event}
    (hf : ∀ s x, Emits s (f s x) (g s.cfg x)) (l : List α) (s : State) :
    Emits s (l.foldl f s) (l.flatMap (g s.cfg)) := by
  induction l generalizing s with
  | nil => exact .refl s
  | cons x l ih =>
    have hx := hf s x
    have hrest := hx.trans (ih (f s x))
    rwa [hx.cfg] at hrest

/-- The configuration commands of INIT in order, each with the select number it goes to (R110). -/
def initCommands (c : Config) : List (Nat × Nat) :=
  (List.range c.chips).flatMap fun i => c.initPayloads.map fun p => (i + 1, p)

theorem configureChips_eq_foldl (s : State) :
    s.configureChips = (initCommands s.cfg).foldl (fun t q => t.sendCmd q.1 q.2) s := by
  have hloop (c : Config) (l : List Nat) {t : State} (ht : t.cfg = c) :
      l.foldl (fun t i => t.configureChip (i + 1)) t
        = l.foldl (fun t i => c.initPayloads.foldl (fun t p => t.sendCmd (i + 1) p) t) t := by
    induction l generalizing t with
    | nil => rw [List.foldl_nil, List.foldl_nil]
    | cons i l ih =>
      have hchip : t.configureChip (i + 1) = c.initPayloads.foldl (fun t p => t.sendCmd (i + 1) p) t := by
        rw [State.configureChip, ht]
      rw [List.foldl_cons, List.foldl_cons, hchip]
      exact ih ((foldl_sendCmd_cfg_fb (i + 1) _ t).1.trans ht)
  simp only [initCommands, List.foldl_flatMap, List.foldl_map]
  exact hloop s.cfg _ rfl

/-- The events of INIT's configuration commands (R110). -/
def configEvents (c : Config) : List Event := (initCommands c).flatMap fun q => sendCmdEvents c q.1 q.2

/-- The events of INIT's COMMIT: a write of 0 to every cell (R111). -/
def blankingEvents (c : Config) : List Event := (scanOrder c).flatMap fun p => sendDataEvents c (p.2 + 1) p.1 0

theorem initEvents_eq (c : Config) : initEvents c = idleEvents ++ configEvents c ++ blankingEvents c := by
  simp only [initEvents, configEvents, blankingEvents, initCommands, List.flatMap_assoc, List.flatMap_map]

theorem emits_configureChips (s : State) : Emits s s.configureChips (configEvents s.cfg) := by
  rw [configureChips_eq_foldl]
  exact .foldl (g := fun c (q : Nat × Nat) => sendCmdEvents c q.1 q.2) (fun t q => emits_sendCmd t q.1 q.2) _ s

/-- Up to its COMMIT, INIT emits the idle levels and the configuration commands (R108 to R111). -/
theorem emits_blankBody (s : State) : Emits s s.blankBody (idleEvents ++ configEvents s.cfg) := by
  have hfill := (emits_idleLines s).trans (emits_fillBody _)
  have hconfig := emits_configureChips ({ s with inited := false } : State).idleLines.fillBody
  rw [hfill.cfg] at hconfig
  have h := (hfill.trans hconfig).trans (emits_clearBody _)
  rwa [List.append_nil, List.append_nil] at h

/-! ### INIT's COMMIT (R111) -/

section BlankBody

variable {s : State} (hw : s.cfg.wf = true) (hm : Memory.wf s.fb)

include hw hm

/-- Every cell counts as changed, whatever SENTINEL is (R109). -/
theorem dirtyCells_blankBody : dirtyCells s.blankBody = scanOrder s.cfg := by
  rw [dirtyCells, State.blankBody_cfg]
  refine List.filter_eq_self.2 fun p hp => ?_
  obtain ⟨ha, hchip⟩ := (mem_scanOrder hw).1 hp
  rw [State.cell, State.blankBody_cfg]
  exact modified_blankBody hw hm (cellKey_lt_size ha hchip)

/-- CLEAR has left every cell's data 0 (R111). -/
theorem cellData_blankBody {p : Nat × Nat} (hp : p ∈ scanOrder s.cfg) :
    cellData s.cfg (s.blankBody.cell p.1 p.2) = 0#8 := by
  obtain ⟨ha, hchip⟩ := (mem_scanOrder hw).1 hp
  rw [State.cell, State.blankBody_cfg, State.blankBody_fb]
  exact cellData_clearBuffer hw (filledBuffer_wf hm) (cellKey_lt_size ha hchip)

theorem commitEvents_blankBody : commitEvents s.blankBody = blankingEvents s.cfg := by
  rw [commitEvents_eq, dirtyCells_blankBody hw hm, blankingEvents]
  refine List.flatMap_congr fun p hp => ?_
  rw [cellEvents, State.blankBody_cfg, cellData_blankBody hw hm hp]
  rfl

end BlankBody

/-- The scan ends at a cell of the last chip (R88). -/
theorem getLast?_scanOrder {c : Config} (hw : c.wf = true) :
    ∃ p, (scanOrder c).getLast? = some p ∧ p ∈ scanOrder c ∧ p.2 + 1 = c.chips := by
  have hchips := Config.chips_pos hw
  have hcells : 0 < c.cells := by
    obtain ⟨-, -, -, -, hcolors, -⟩ := Config.wf_positive hw
    rw [Config.cells_eq_colors_band hw]
    exact Nat.mul_pos hcolors (Config.band_pos hw)
  have hmem : (0, c.chips - 1) ∈ scanOrder c := (mem_scanOrder hw).2 ⟨hcells, by omega⟩
  obtain ⟨front, p, hsplit⟩ := (List.eq_nil_or_concat' _).resolve_left (List.ne_nil_of_mem hmem)
  have hp : p ∈ scanOrder c := by simp [hsplit]
  obtain ⟨-, hlt⟩ := (mem_scanOrder hw).1 hp
  refine ⟨p, by rw [hsplit, List.getLast?_concat], hp, ?_⟩
  rw [hsplit, List.mem_append, List.mem_singleton] at hmem
  rcases hmem with hmem | rfl
  · have hpairs := pairwise_scanOrder c
    rw [hsplit, List.pairwise_append] at hpairs
    obtain ⟨-, -, hbefore⟩ := hpairs
    have hbefore := hbefore _ hmem p List.mem_cons_self
    simp only [ScannedBefore] at hbefore
    omega
  · exact Nat.sub_add_cancel hchips

/-! ### The state INIT leaves (R112, R113) -/

theorem initBody_eq_commitBody (s : State) : s.initBody = { s.blankBody.commitBody with inited := true } := rfl

section InitBody

variable {s : State} (hs : s.wf)

include hs

theorem emits_initBody : Emits s s.initBody (initEvents s.cfg) := by
  obtain ⟨hw, hm, -⟩ := hs
  have hcommit := emits_commitBody (s := s.blankBody) (by rwa [State.blankBody_cfg]) (State.blankBody_fb_wf hm)
  rw [commitEvents_blankBody hw hm] at hcommit
  rw [initEvents_eq, initBody_eq_commitBody]
  obtain ⟨hcfg, hpending, hresets, htrace, hbus⟩ := (emits_blankBody s).trans hcommit
  exact ⟨hcfg, hpending, hresets, htrace, hbus⟩

/-- The last write is of 0 to the last chip. -/
theorem initBody_sel_levels :
    s.initBody.sel = some s.cfg.chips ∧ s.initBody.levels = ⟨.low, .low, .high, .high⟩ := by
  obtain ⟨hw, hm, -⟩ := hs
  obtain ⟨p, hlast, hp, hchip⟩ := getLast?_scanOrder hw
  have h := bus_commitBody_of_dirty (s := s.blankBody) (p := p) (by rwa [State.blankBody_cfg])
    (State.blankBody_fb_wf hm) (by rw [dirtyCells_blankBody hw hm, hlast])
  rw [State.blankBody_cfg, cellData_blankBody hw hm hp, hchip] at h
  rw [initBody_eq_commitBody]
  exact h

/-- INIT is the emission of its events, and leaves the blank state (R112, R113). -/
theorem initBody_eq_emit :
    s.initBody = { s.emit (initEvents s.cfg) with
      fb := [], configured := allLines true, inited := true, sel := some s.cfg.chips } := by
  have h := (emits_initBody hs).eq_emit
  rwa [initBody_fb hs, (initBody_emits s).1, (initBody_sel_levels hs).1] at h

theorem exec_init : exec .init s = .next s.initBody := Guard.config_of_wf hs.1

end InitBody

/-- Settles O38: INIT is the emission of its events, and the blank state's fields are those of `initBody_eq_emit`. -/
theorem initReachesTheBlankState : Obligations.InitReachesTheBlankState := by
  intro s hs
  have hfb := initBody_fb hs
  refine ⟨s.initBody, exec_init hs, ?_, fun a c => ?_, hfb⟩
  · rw [← (initBody_sel_levels hs).2, initBody_eq_emit hs]
    rfl
  · rw [State.cell, hfb]
    rfl

/-- Settles O41: the events of INIT and the fields it leaves are the configuration's alone. -/
theorem initForgetsTheController : Obligations.InitForgetsTheController := by
  intro s₁ s₂ h₁ h₂ hcfg
  refine ⟨s₁.initBody, s₂.initBody, initEvents s₁.cfg, exec_init h₁, exec_init h₂, (emits_initBody h₁).trace,
    hcfg ▸ (emits_initBody h₂).trace, ?_, ?_, ?_, rfl, ?_⟩
  · rw [initBody_fb h₁, initBody_fb h₂]
  · rw [(initBody_sel_levels h₁).2, (initBody_sel_levels h₂).2]
  · rw [(initBody_emits s₁).1, (initBody_emits s₂).1]
  · rw [(initBody_sel_levels h₁).1, (initBody_sel_levels h₂).1, hcfg]

/-! ### SENTINEL (R109) -/

/-- The state with another SENTINEL. -/
def State.withSentinel (s : State) (v : Byte) : State := { s with cfg := { s.cfg with sentinel := v } }

theorem latchChips_withSentinel (c : Config) (v : Byte) (n : Nat) (d : Level) (k : Nat) (cs : List Chip) :
    latchChips { c with sentinel := v } n d k cs = latchChips c n d k cs := by
  induction cs generalizing k with
  | nil => rfl
  | cons ch cs ih =>
    rw [latchChips, latchChips, ih]
    rfl

/-- No event's effect on the chips depends on SENTINEL. -/
theorem take_withSentinel (c : Config) (v : Byte) (lv : Lines Level) (r : Receiver) (e : Event) :
    r.take { c with sentinel := v } lv e = r.take c lv e := by
  by_cases hwr : e = .set .wr true
  · subst hwr
    simp only [Receiver.take, Receiver.wrHigh, latchChips_withSentinel]
    rfl
  · by_cases hclk : e = .set .clk true
    · subst hclk
      rfl
    · rw [Receiver.take_other hclk hwr, Receiver.take_other hclk hwr]

theorem State.withSentinel_emit (s : State) (v : Byte) (es : List Event) :
    (s.withSentinel v).emit es = (s.emit es).withSentinel v := by
  have hstep : busStep { s.cfg with sentinel := v } = busStep s.cfg :=
    funext fun b => funext fun e => congrArg (Prod.mk _) (take_withSentinel s.cfg v b.1 b.2 e)
  simp only [State.emit, State.withSentinel, busRun, hstep]

/-- No check of a state but the configuration's own reads SENTINEL. -/
theorem State.withSentinel_wf {s : State} {v : Byte} (hs : s.wf) (hv : (s.withSentinel v).cfg.wf = true) :
    (s.withSentinel v).wf := ⟨hv, hs.2⟩

theorem initBody_withSentinel {s : State} {v : Byte} (hs : s.wf) (hv : (s.withSentinel v).cfg.wf = true) :
    (s.withSentinel v).initBody = s.initBody.withSentinel v := by
  rw [initBody_eq_emit (State.withSentinel_wf hs hv), initBody_eq_emit hs, State.withSentinel_emit]
  rfl

/-- Settles O42: in `initBody_eq_emit` nothing but the configuration itself depends on SENTINEL. -/
theorem sentinelIsNotObservable : Obligations.SentinelIsNotObservable := by
  intro s v hs hv
  refine ⟨s.initBody, exec_init hs, (exec_init (State.withSentinel_wf hs hv)).trans ?_⟩
  rw [initBody_withSentinel hs hv, State.withSentinel, (emits_initBody hs).cfg]

/-! ### The number of INIT's events (R105, R112) -/

theorem Traffic.flatMap {α : Type} {f : α → List Event} (hf : ∀ x, Traffic (f x)) (l : List α) :
    Traffic (l.flatMap f) := by
  induction l with
  | nil => exact .nil
  | cons x l ih => exact (hf x).append ih

theorem Traffic.countP_isSetEvent {es : List Event} (h : Traffic es) : es.countP isSetEvent = es.length :=
  List.countP_eq_length.2 h.sets

theorem Traffic.countP_isCfgEvent {es : List Event} (h : Traffic es) : es.countP isCfgEvent = 0 := by
  refine List.countP_eq_zero.2 fun e he => ?_
  cases e with
  | cfg l => exact absurd (h.sets _ he) nofun
  | set l b => exact nofun

theorem traffic_configEvents (c : Config) : Traffic (configEvents c) := .flatMap (fun _ => traffic_sendCmdEvents ..) _

theorem traffic_blankingEvents (c : Config) : Traffic (blankingEvents c) :=
  .flatMap (fun _ => traffic_sendDataEvents ..) _

theorem length_configEvents (c : Config) : (configEvents c).length
    = 5 * ((List.range c.chips).map fun i =>
        (2 * c.chips + 5 + 2 * i) + 3 * (c.idBits + c.cmdPayloadBits + c.cmdPadBits) + (2 * c.chips + 1)).sum := by
  rw [configEvents, initCommands, List.flatMap_assoc, List.length_flatMap, ← List.sum_map_mul_left]
  refine congrArg List.sum (List.map_congr_left fun i _ => ?_)
  have hcmd (p : Nat) := length_sendCmdEvents_of_pos (Nat.le_add_left 1 i) c p
  simp only [List.flatMap_map, List.length_flatMap, hcmd, List.map_const', List.sum_replicate, smul_eq_mul,
    Nat.add_sub_cancel]
  rfl

theorem length_blankingEvents {c : Config} (hw : c.wf = true) : (blankingEvents c).length
    = c.cells * ((List.range c.chips).map fun i =>
        (2 * c.chips + 5 + 2 * i) + 3 * (c.idBits + c.addrBits + c.ledsPerCell)).sum := by
  rw [blankingEvents, scanOrder, List.flatMap_assoc, List.length_flatMap, ← List.sum_map_mul_left]
  refine congrArg List.sum (List.map_congr_left fun i _ => ?_)
  simp only [List.flatMap_assoc, List.flatMap_map, List.length_flatMap, length_sendDataEvents_succ, List.map_const',
    List.length_range, List.sum_replicate, smul_eq_mul]
  rw [Config.cells_eq_colors_band hw]
  ring

/-- Settles O40: the idle levels are 4 Cfg and 4 Set events, and the transactions are Set events, counted by R105. -/
theorem initEventCount : Obligations.InitEventCount := by
  have hgeneral (c : Config) (hw : c.wf = true) :
      (initEvents c).countP isCfgEvent = 4
        ∧ (initEvents c).countP isSetEvent = 4 + (configEvents c).length + (blankingEvents c).length := by
    rw [initEvents_eq, List.countP_append, List.countP_append, List.countP_append, List.countP_append,
      (traffic_configEvents c).countP_isCfgEvent, (traffic_blankingEvents c).countP_isCfgEvent,
      (traffic_configEvents c).countP_isSetEvent, (traffic_blankingEvents c).countP_isSetEvent]
    exact ⟨rfl, rfl⟩
  have hstandard : Config.standard.wf = true := by decide
  refine ⟨fun c hw => ?_, (hgeneral _ hstandard).1, ?_⟩
  · rw [← length_configEvents, ← length_blankingEvents hw]
    exact hgeneral c hw
  · rw [(hgeneral _ hstandard).2, length_configEvents, length_blankingEvents hstandard]
    decide

end Sys2Proof.Machine
end

