-- ==== Sys2Proof/Proofs/InitChips.lean ====
section
/-! PROOFS. INIT at the reference receiver (43_init.md R113): the command logs grow by the five payloads, every display
RAM cell is 0, and the last chip is selected. -/

namespace Sys2Proof.Machine

open Sys2Proof

/-! ### The command logs under the configuration commands (R110) -/

theorem State.cmdlog_of_rx_eq {s t : State} (h : t.rx = s.rx) (i : Nat) : t.cmdlog i = s.cmdlog i := by
  rw [State.cmdlog, h, State.cmdlog]

/-- Each chip's log grows by the payloads of the commands to it, in order (R50, R100). -/
theorem cmdlog_foldl_sendCmd {s : State} (hw : s.cfg.wf = true) (hlen : s.rx.chips.length = s.cfg.chips)
    (hclk : s.levels.clk = .low) {l : List (Nat × Nat)} (hl : ∀ q ∈ l, q.2 < 2 ^ s.cfg.cmdPayloadBits) {i : Nat}
    (hi : i < s.cfg.chips) :
    (l.foldl (fun t q => t.sendCmd q.1 q.2) s).cmdlog i
      = s.cmdlog i ++ l.flatMap fun q => if i + 1 = q.1 then [q.2] else [] := by
  induction l generalizing s with
  | nil => exact (List.append_nil _).symm
  | cons q l ih =>
    obtain ⟨hq, hl⟩ := List.forall_mem_cons.1 hl
    have hlen' : (s.sendCmd q.1 q.2).rx.chips.length = s.cfg.chips := by
      rw [(emits_sendCmd s q.1 q.2).rx, length_busRun, hlen]
    obtain ⟨hclk', -⟩ := levels_sendCmd hw q.1 q.2
    rw [List.foldl_cons, ih (s := s.sendCmd q.1 q.2) hw hlen' hclk' hl hi, State.cmdlog_sendCmd hlen hclk hq hi,
      List.flatMap_cons, List.append_assoc]

/-- The commands to one chip are the five payloads. -/
theorem initCommands_to_chip {c : Config} {i : Nat} (hi : i < c.chips) :
    ((initCommands c).flatMap fun q => if i + 1 = q.1 then [q.2] else []) = c.initPayloads := by
  have hloop (n : Nat) : ((List.range n).flatMap fun j => if i = j then c.initPayloads else [])
      = if i < n then c.initPayloads else [] := by
    induction n with
    | zero => rfl
    | succ n ih =>
      rw [List.range_succ, List.flatMap_append, ih, List.flatMap_singleton]
      rcases Nat.lt_trichotomy i n with h | h | h
      · rw [if_pos h, if_neg h.ne, if_pos (by omega), List.append_nil]
      · rw [if_neg (by omega), if_pos h, if_pos (by omega), List.nil_append]
      · rw [if_neg (by omega), if_neg h.ne', if_neg (by omega), List.nil_append]
  rw [initCommands, List.flatMap_assoc]
  refine (List.flatMap_congr fun j _ => ?_).trans ((hloop c.chips).trans (if_pos hi))
  rw [List.flatMap_map]
  simp only [Nat.add_right_cancel_iff]
  split
  · exact List.flatMap_singleton' _
  · simp

theorem initCommands_fit {c : Config} {q : Nat × Nat} (hq : q ∈ initCommands c) : q.2 < 2 ^ c.cmdPayloadBits := by
  obtain ⟨i, -, hq⟩ := List.mem_flatMap.1 hq
  obtain ⟨p, hp, rfl⟩ := List.mem_map.1 hq
  simp only [Config.initPayloads, List.mem_cons, List.not_mem_nil, or_false] at hp
  rcases hp with rfl | rfl | rfl | rfl | rfl <;> exact BitVec.isLt _

/-- The configuration commands make each log grow by the five payloads (R110). -/
theorem cmdlog_configureChips {s : State} (hw : s.cfg.wf = true) (hlen : s.rx.chips.length = s.cfg.chips)
    (hclk : s.levels.clk = .low) {i : Nat} (hi : i < s.cfg.chips) :
    s.configureChips.cmdlog i = s.cmdlog i ++ s.cfg.initPayloads := by
  rw [configureChips_eq_foldl, cmdlog_foldl_sendCmd hw hlen hclk (fun _ => initCommands_fit) hi,
    initCommands_to_chip hi]

/-! ### The command logs under the idle levels (R48 to R50, R136) -/

/-- The one event among the idle levels that can reach a chip is the Set(WR, 1) (R108). -/
theorem rx_idleLines (s : State) : s.idleLines.rx = s.rx.wrHigh s.cfg { s.levels with cs := .high } := rfl

/-- A bit that does not complete an id has no effect (R49, R50). -/
theorem map_log_latchChips_of_short {c : Config} (n : Nat) (d : Level) (k : Nat) {cs : List Chip}
    (h : ∀ ch ∈ cs, ch.acc.length + 1 < c.idBits) : (latchChips c n d k cs).map (·.log) = cs.map (·.log) := by
  have hlatch {ch : Chip} {k : Nat} (hch : ch.acc.length + 1 < c.idBits) : (ch.latch c n k d).log = ch.log := by
    have hquiet : frameEffect c (ch.acc ++ [d]) = .nothing := if_pos (by simpa using hch)
    by_cases hstage : ch.stage = .low
    · rw [Chip.latch_selected hstage, hquiet]
      rfl
    · rw [Chip.latch_unselected hstage]
  induction cs generalizing k with
  | nil => rfl
  | cons ch cs ih =>
    obtain ⟨hch, hcs⟩ := List.forall_mem_cons.1 h
    rw [latchChips, List.map_cons, List.map_cons, ih _ hcs, hlatch hch]

/-- The idle levels change no log where WR does not rise from 0, or where no id can be completed (R136, log
entry 8). -/
theorem cmdlog_idleLines {s : State}
    (h : s.levels.wr ≠ .low ∨ ∀ ch ∈ s.rx.chips, ch.acc.length + 1 < s.cfg.idBits) (i : Nat) :
    s.idleLines.cmdlog i = s.cmdlog i := by
  refine State.cmdlog_congr ?_ i
  rw [rx_idleLines]
  unfold Receiver.wrHigh
  split
  case h_1 hlow => exact map_log_latchChips_of_short _ _ _ (h.resolve_left (not_not_intro hlow))
  case h_2 => rfl
  case h_3 => exact map_log_strayChips _ _ _ _

/-! ### After INIT -/

/-- From a state that the idle levels alone have led to, each log grows by the five payloads (R108, R110). -/
theorem cmdlog_configureChips_of_idle {s u : State} (hs : s.wf) (hu : Emits s u idleEvents) {i : Nat}
    (hi : i < s.cfg.chips) : u.configureChips.cmdlog i = s.idleLines.cmdlog i ++ s.cfg.initPayloads := by
  obtain ⟨hw, -, -, hlen, -⟩ := hs
  have hclk : u.levels.clk = .low := by rw [hu.levels, foldl_levelsAfter_idleEvents]
  have hrx : u.rx = s.idleLines.rx := by
    rw [hu.rx, State.idleLines_eq]
    rfl
  rw [cmdlog_configureChips (by rwa [hu.cfg]) (by rw [hu.rx, length_busRun, hlen, hu.cfg]) hclk (by rwa [hu.cfg]),
    hu.cfg, State.cmdlog_of_rx_eq hrx]

theorem State.rx_initBody (s : State) : s.initBody.rx = s.blankBody.commitBody.rx := by rw [initBody_eq_commitBody]

/-- INIT makes each log grow by the five payloads, on from the idle levels: its COMMIT changes none (R111, R113). -/
theorem cmdlog_initBody {s : State} (hs : s.wf) {i : Nat} (hi : i < s.cfg.chips) :
    s.initBody.cmdlog i = s.idleLines.cmdlog i ++ s.cfg.initPayloads := by
  obtain ⟨hwf, ⟨hclk, -⟩, -⟩ := committing_blankBody hs
  have hfill := (emits_idleLines s).trans (emits_fillBody _)
  rw [List.append_nil] at hfill
  rw [State.cmdlog_of_rx_eq s.rx_initBody, (visited_commitBody hwf hclk).logs,
    ← cmdlog_configureChips_of_idle hs hfill hi, State.blankBody]
  exact State.cmdlog_of_rx_eq (State.clearBody_rx _) i

/-- INIT's COMMIT sends the last chip's last cell last (R88, R113). -/
theorem stages_initBody {s : State} (hs : s.wf) : s.initBody.rx.stages = selectedOnly s.cfg.chips s.cfg.chips := by
  obtain ⟨hw, hm, -⟩ := id hs
  obtain ⟨hwf, ⟨hclk, -⟩, -⟩ := committing_blankBody hs
  obtain ⟨p, hlast, -, hchip⟩ := getLast?_scanOrder hw
  rw [← dirtyCells_blankBody hw hm] at hlast
  have hstages := (visited_commitBody hwf hclk).stages p hlast
  rwa [State.blankBody_cfg, hchip, ← s.rx_initBody] at hstages

/-- INIT leaves every cell clean and 0, and a clean cell is what its chip holds (R16 (b), R113). -/
theorem ram_initBody {s : State} (hs : s.wf) {a chip : Nat} (ha : a < s.cfg.cells) (hchip : chip < s.cfg.chips) :
    s.initBody.ram (chip + 1) a = 0#8 := by
  have hcell : s.initBody.cell a chip = 0#8 := by
    rw [State.cell, initBody_fb hs]
    rfl
  have hcfg := (emits_initBody hs).cfg
  have hmatch := initBody_cleanCellsMatch hs a (hcfg ▸ ha) chip (hcfg ▸ hchip)
  rw [hcell] at hmatch
  exact (hmatch rfl).trans BitVec.zero_and

/-- Settles O39: the display RAMs, the stages and the logs after INIT, and the logs after the idle levels. -/
theorem initBlanksTheChips : Obligations.InitBlanksTheChips := by
  intro s hs
  refine ⟨s.initBody, exec_init hs, fun c hc a ha => ram_initBody hs ha hc, stages_initBody hs,
    fun c hc => cmdlog_initBody hs hc, fun h c hc => ?_⟩
  rw [cmdlog_initBody hs hc, cmdlog_idleLines h]

end Sys2Proof.Machine
end

