-- ==== Sys2Proof/Proofs/Exceptions.lean ====
section
/-! PROOFS. The two faults (60_exceptions.md R118, R119): in a well-formed configuration every operation completes or
raises the one fault of its case, in the order of the checks. -/

namespace Sys2Proof.Machine

open Sys2Proof

variable {s : State} {i : Instr} {f : Fault}

/-! ### Use before INIT (R118, code 1) -/

/-- The operations that stand behind the test of `inited` (R22, R118). -/
def NeedsInit (i : Instr) : Prop := (∃ x y color, i = .plot x y color) ∨ i = .clear ∨ i = .commit

theorem Guard.inited_of_not_inited {op : Instr} {k : Result} (h : s.inited = false) :
    Guard.inited op s k = .fault (.useBeforeInit op) := if_neg (by simp [h])

theorem exec_before_init (hw : s.cfg.wf = true) (hi : s.inited = false) (h : NeedsInit i) :
    exec i s = .fault (.useBeforeInit i) := by
  rcases h with ⟨x, y, color, rfl⟩ | rfl | rfl <;>
    exact (Guard.config_of_wf hw).trans (Guard.inited_of_not_inited hi)

/-- INIT and the frames have no guard but the configuration's. -/
theorem exec_completes_of_not_needsInit (hw : s.cfg.wf = true) (h : ¬ NeedsInit i) : ∃ t, exec i s = .next t := by
  cases i with
  | plot x y color => exact absurd (.inl ⟨x, y, color, rfl⟩) h
  | clear => exact absurd (.inr (.inl rfl)) h
  | commit => exact absurd (.inr (.inr rfl)) h
  | _ => exact ⟨_, Guard.config_of_wf hw⟩

/-! ### The chip index of y = H (R78, R118, code 2) -/

/-- The settings of Y_EQ_H under which PLOT x, H is a fault (R78). -/
def FaultsAtHeight (c : Config) (x : Nat) : Prop :=
  c.yEqH = .fault ∨ (c.yEqH = .aliasFlat ∧ c.size ≤ lastLinearIndex c x c.h)

theorem plotBeyond_height_fault {x color : Nat} (h : FaultsAtHeight s.cfg x) :
    plotBeyond x s.cfg.h color s = .fault (.chipIndexOutOfRange x s.cfg.h (chipIndex s.cfg x s.cfg.h)) :=
  h.elim plotBeyond_fault fun ⟨hy, hl⟩ => plotBeyond_alias_outside hy hl

theorem plotBeyond_height_completes {x color : Nat} (h : ¬ FaultsAtHeight s.cfg x) :
    ∃ t, plotBeyond x s.cfg.h color s = .next t := by
  cases hy : s.cfg.yEqH with
  | fault => exact absurd (.inl hy) h
  | aliasFlat => exact ⟨_, plotBeyond_alias hy (Nat.lt_of_not_le fun hl => h (.inr ⟨hy, hl⟩))⟩
  | ignore => exact ⟨_, plotBeyond_ignore hy⟩

/-- The range check leaves y = H as the only case in which PLOT can stop (R72, R119). -/
theorem exec_plot_completes_or_height (hw : s.cfg.wf = true) (hi : s.inited = true) (x y : Int) (color : Nat) :
    (∃ t, exec (.plot x y color) s = .next t) ∨ ∃ n : Nat, n < s.cfg.w ∧ x = n ∧ y = s.cfg.h := by
  by_cases hr : x < 0 ∨ (s.cfg.w : Int) ≤ x ∨ y < 0 ∨ (s.cfg.h : Int) < y
  · exact .inl ⟨s, exec_plot_rejected hw hi color hr⟩
  · lift x to Nat using by omega
    lift y to Nat using by omega
    rcases Nat.lt_or_ge y s.cfg.h with hy | hy
    · exact .inl ⟨_, exec_plot_inside hw hi color (by omega) hy⟩
    · exact .inr ⟨x, by omega, rfl, by omega⟩

/-! ### When an operation faults (R118, R119) -/

/-- Operation `i` raises fault `f`: the test of `inited` first, then PLOT's chip index at an x in range (R119). -/
def Raises (s : State) (i : Instr) (f : Fault) : Prop :=
  (s.inited = false ∧ NeedsInit i ∧ f = .useBeforeInit i)
  ∨ (s.inited = true ∧ ∃ x color : Nat, x < s.cfg.w ∧ i = .plot x s.cfg.h color
      ∧ f = .chipIndexOutOfRange x s.cfg.h (chipIndex s.cfg x s.cfg.h) ∧ FaultsAtHeight s.cfg x)

theorem exec_of_raises (hw : s.cfg.wf = true) (h : Raises s i f) : exec i s = .fault f := by
  rcases h with ⟨hi, hop, rfl⟩ | ⟨hi, x, color, hx, rfl, rfl, hfault⟩
  · exact exec_before_init hw hi hop
  · exact (exec_plot_height hw hi color hx).trans (plotBeyond_height_fault hfault)

/-- In a well-formed configuration an operation completes or raises a fault. -/
theorem exec_completes_or_raises (hw : s.cfg.wf = true) (i : Instr) :
    (∃ t, exec i s = .next t) ∨ ∃ f, Raises s i f := by
  by_cases hop : NeedsInit i
  case neg => exact .inl (exec_completes_of_not_needsInit hw hop)
  cases hi : s.inited with
  | false => exact .inr ⟨_, .inl ⟨hi, hop, rfl⟩⟩
  | true =>
    rcases hop with ⟨x, y, color, rfl⟩ | rfl | rfl
    · rcases exec_plot_completes_or_height hw hi x y color with hnext | ⟨n, hn, rfl, rfl⟩
      · exact .inl hnext
      by_cases hfault : FaultsAtHeight s.cfg n
      · exact .inr ⟨_, .inr ⟨hi, n, color, hn, rfl, rfl, hfault⟩⟩
      · rw [exec_plot_height hw hi color hn]
        exact .inl (plotBeyond_height_completes hfault)
    · exact .inl ⟨_, exec_clear_of_inited hw hi⟩
    · exact .inl ⟨_, exec_commit hw hi⟩

theorem exec_fault_iff_raises (hw : s.cfg.wf = true) : exec i s = .fault f ↔ Raises s i f := by
  refine ⟨fun h => ?_, exec_of_raises hw⟩
  rcases exec_completes_or_raises hw i with ⟨t, ht⟩ | ⟨g, hg⟩
  · simp [ht] at h
  · rwa [← Host.Outcome.fault.inj ((exec_of_raises hw hg).symm.trans h)]

theorem exec_ne_refused (hw : s.cfg.wf = true) (i : Instr) (r : Refusal) : exec i s ≠ .refused r := by
  rcases exec_completes_or_raises hw i with ⟨t, ht⟩ | ⟨f, hf⟩
  · simp [ht]
  · simp [exec_of_raises hw hf]

/-- Settles O11: `Raises` with its chip index and linear index at y = H written out. -/
theorem faultsAreExactlyTheTwo : Obligations.FaultsAreExactlyTheTwo := by
  refine ⟨fun s i hw => exec_of_not_wf hw i, fun s hw => ⟨fun i f => ?_, exec_ne_refused hw, fun _ => rfl,
    fun _ _ _ => rfl, fun x color hi hx => exec_plot_rejected hw hi color (by omega)⟩⟩
  rw [exec_fault_iff_raises hw, Raises]
  simp only [NeedsInit, FaultsAtHeight, chipIndex_height hw, lastLinearIndex_height hw, Config.size]

end Sys2Proof.Machine
end

