-- ==== Sys2Proof/Proofs/ResetEvent.lean ====
section
/-! PROOFS. What the reset event leaves (70_reset_and_hazards.md R127, R27): the values `State.resetEvent` gives the
controller, and that the initial state has them too (O12). -/

namespace Sys2Proof.Machine

open Sys2Proof

/-! ### The values of the initial state (R27) -/

@[simp] theorem State.reset_inited : State.reset.inited = false := rfl
@[simp] theorem State.reset_levels : State.reset.levels = allLines .unknown := rfl
@[simp] theorem State.reset_configured : State.reset.configured = allLines false := rfl
@[simp] theorem State.reset_trace : State.reset.trace = [] := rfl
@[simp] theorem State.reset_sel : State.reset.sel = none := rfl

/-! ### The statement of the family -/

/-- Settles O12: the step takes the reset event by `step_of_reset`, and the field lemmas of `State.resetEvent` read off
what it leaves; taking the request from `pending` touches neither the configuration nor the chips. -/
theorem resetEventLeavesTheResetValues : Obligations.ResetEventLeavesTheResetValues := by
  refine ⟨fun s rest hw hp => ⟨_, step_of_reset hw hp, ?_⟩, ?_⟩
  · simp only [State.resetEvent_inited, State.resetEvent_levels, State.resetEvent_configured,
      State.resetEvent_trace, State.resetEvent_sel, State.resetEvent_cfg, State.resetEvent_rx, and_self]
  · exact ⟨State.reset_inited, State.reset_levels, State.reset_configured, State.reset_trace, State.reset_sel⟩

end Sys2Proof.Machine
end

