-- ==== Sys2Proof/Proofs/RoundTrip.lean ====
section
/-! PROOFS. Decode and encode agree: a coordinate survives its two's-complement field (R10), a frame's bits survive
their fields (R57 to R59), and so a request survives its instruction and an instruction its request, up to the naming
of command frames (R62, log entry 4). -/

namespace Sys2Proof.Machine

open Sys2Proof

/-! ### The inverses of the field codings (R10, R57) -/

/-- A signed COORD_BITS-bit value is read back from its two's-complement field. -/
theorem sext_unsext {c : Config} (hn : 0 < c.coordBits) {v : Int} (hv : coordInRange c v = true) :
    sext c.coordBits (unsext c.coordBits v) = v := by
  obtain ⟨n, hn'⟩ := Nat.exists_eq_add_of_lt hn
  have hpow : ((2 ^ n : Nat) : Int) = (2 : Int) ^ n := by push_cast; rfl
  simp only [coordInRange, sext, unsext, hn', Nat.zero_add, Nat.add_sub_cancel, pow_succ, ← hpow, Bool.and_eq_true,
    decide_eq_true_eq] at hv ⊢
  obtain ⟨hlow, hhigh⟩ := hv
  rcases le_or_gt 0 v with hsign | hsign
  · rw [Int.emod_eq_of_lt hsign (by omega)]
    split <;> omega
  · rw [← Int.add_emod_right, Int.emod_eq_of_lt (by omega) (by omega)]
    split <;> omega

/-- The bits read first stand above the bits read later. -/
theorem testBit_natOfBitsFrom (acc : Nat) (bs : List Bool) (i : Nat) :
    (natOfBitsFrom acc bs).testBit (bs.length + i) = acc.testBit i := by
  induction bs generalizing acc i with
  | nil => rw [natOfBitsFrom, List.length_nil, Nat.zero_add]
  | cons b bs ih =>
    have hb : b.toNat < 2 := Bool.toNat_lt b
    have hhalf : (2 * acc + b.toNat) / 2 = acc := by omega
    rw [natOfBitsFrom, List.length_cons, Nat.add_assoc, ih, Nat.add_comm 1, Nat.testBit_succ, hhalf]

theorem bitsMsb_natOfBitsFrom (acc : Nat) (bs : List Bool) : bitsMsb (natOfBitsFrom acc bs) bs.length = bs := by
  induction bs generalizing acc with
  | nil => rfl
  | cons b bs ih =>
    have hfirst : (natOfBitsFrom (2 * acc + b.toNat) bs).testBit bs.length = b := by
      rw [← Nat.add_zero bs.length, testBit_natOfBitsFrom]
      cases b <;> simp
    rw [natOfBitsFrom, List.length_cons, bitsMsb, hfirst, ih]

/-- The number read from `n` bits is sent as those bits. -/
theorem bitsMsb_natOfBits {bs : List Bool} {n : Nat} (hlen : bs.length = n) : bitsMsb (natOfBits bs) n = bs :=
  hlen ▸ bitsMsb_natOfBitsFrom 0 bs

/-! ### Decoding what was encoded -/

/-- An operation's canonical word decodes to the operation (R54, R55). -/
theorem decodeRequest_packHost {c : Config} {op color y x : Nat} (hop : op < 4) (hcolor : color < 2 ^ c.colors)
    (hy : y < 2 ^ c.coordBits) (hx : x < 2 ^ c.coordBits) :
    decodeRequest c (.host (packHost c op color y x)) = .ok (some (hostInstr c op color y x)) :=
  congrArg (Except.map some) (decodeHost_packHost hop hcolor hy hx)

theorem decodeRequest_plain (c : Config) {op : Nat} (hop : op < 4) :
    decodeRequest c (.host (packHost c op 0 0 0)) = .ok (some (hostInstr c op 0 0 0)) :=
  decodeRequest_packHost hop (Nat.two_pow_pos _) (Nat.two_pow_pos _) (Nat.two_pow_pos _)

/-- A frame request decodes as its frame does. -/
theorem decodeRequest_frame_iff {c : Config} {k : Nat} {bits : List Bool} {i : Instr} :
    decodeRequest c (.frame k bits) = .ok (some i) ↔ decodeFrame c k bits = .ok i := by
  rw [decodeRequest]
  cases decodeFrame c k bits <;> simp [Except.map]

/-- A command frame to a chip decodes to the first name of its payload (R58, R62). -/
theorem decodeRequest_commandBits {c : Config} {k p : Nat} (hk : selectInRange c k = true)
    (hp : p < 2 ^ c.cmdPayloadBits) :
    decodeRequest c (.frame k (commandBits c p)) = .ok (some (commandInstr c k p)) := by
  simp [decodeRequest_frame_iff, decodeFrame, hk, frameFields_commandBits c hp]

/-- A write frame to a cell of a chip decodes to that write (R59). -/
theorem decodeRequest_writeBits {c : Config} {k a d : Nat} (hw : c.wf = true) (hk : selectInRange c k = true)
    (ha : a < c.cells) (hd : d < 2 ^ c.ledsPerCell) :
    decodeRequest c (.frame k (writeBits c a d)) = .ok (some (.write k a d)) := by
  have haddr : a < 2 ^ c.addrBits := ha.trans_le (Config.cells_le_two_pow hw)
  simp [decodeRequest_frame_iff, decodeFrame, hk, ha, frameFields_writeBits c haddr hd]

/-- Settles O5: each row's request is a host word or one of the two frames, and decodes by that form's lemma, a command
frame to the first name of its payload (log entry 4). -/
theorem decodeEncodeRoundTrip : Obligations.DecodeEncodeRoundTrip := by
  intro c i hw hi
  cases i with
  | init | clear | commit => exact decodeRequest_plain c (by decide)
  | plot x y color =>
    simp only [Instr.wf, Bool.and_eq_true, decide_eq_true_eq] at hi
    obtain ⟨⟨hx, hy⟩, hcolor⟩ := hi
    have hn := Config.coordBits_pos hw
    rw [encode, decodeRequest_packHost (by decide) hcolor (unsext_lt ..) (unsext_lt ..), hostInstr, if_neg one_ne_zero,
      if_pos rfl, sext_unsext hn hx, sext_unsext hn hy, Instr.canonical]
  | cmd k p =>
    simp only [Instr.wf, Bool.and_eq_true, decide_eq_true_eq] at hi
    exact decodeRequest_commandBits hi.1 hi.2
  | sysdis | panelcfg | master | sysen | ledon => exact decodeRequest_commandBits hi (BitVec.isLt _)
  | write k a d =>
    simp only [Instr.wf, Bool.and_eq_true, decide_eq_true_eq] at hi
    obtain ⟨⟨hk, ha⟩, hd⟩ := hi
    exact decodeRequest_writeBits hw hk ha hd

/-! ### Five distinct payloads (R62) -/

/-- A command frame whose payload is none of the five has no other name. -/
theorem commandInstr_of_notMem {c : Config} {p : Nat} (k : Nat) (hp : p ∉ c.initPayloads) :
    commandInstr c k p = .cmd k p := by
  simp only [Config.initPayloads, List.mem_cons, List.not_mem_nil, or_false, not_or] at hp
  simp [commandInstr, hp]

/-- With five distinct payloads an instruction whose payload is not another row's is its own first name. -/
theorem canonical_eq_self {c : Config} {i : Instr} (hnodup : c.initPayloads.Nodup)
    (hunnamed : ∀ k p : Nat, i = .cmd k p → p ∉ c.initPayloads) : i.canonical c = i := by
  cases i with
  | init | plot | clear | commit | write => rfl
  | cmd k p => exact commandInstr_of_notMem k (hunnamed k p rfl)
  | sysdis | panelcfg | master | sysen | ledon =>
    simp only [Config.initPayloads, List.nodup_cons, List.mem_cons, List.not_mem_nil, or_false, not_or] at hnodup
    simp [Instr.canonical, commandInstr, hnodup, Ne.symm]

/-- Settles O6: O5's round trip, in which the first name (log entry 4) is the instruction itself. -/
theorem distinctCommandsRoundTripExactly : Obligations.DistinctCommandsRoundTripExactly := by
  intro c i hw hi hnodup hunnamed
  rw [decodeEncodeRoundTrip c i hw hi, canonical_eq_self hnodup hunnamed]

/-! ### Encoding what was decoded -/

/-- Whatever name a payload has, its frame is the command frame of that payload. -/
theorem encode_commandInstr (c : Config) (k p : Nat) : encode c (commandInstr c k p) = .frame k (commandBits c p) := by
  unfold commandInstr
  split_ifs <;> simp [encode, *]

/-- Bits that have fields are a frame of one of the two ids, with that frame's length (R67). -/
theorem frameFields_ok {c : Config} {bits : List Bool} {f : FrameFields} (h : frameFields c bits = .ok f) :
    (natOfBits (bits.take c.idBits) = c.opCommand.toNat ∧ bits.length = c.cmdFrameBits
        ∧ f = .command (natOfBits ((bits.drop c.idBits).take c.cmdPayloadBits))
          (natOfBits ((bits.drop c.idBits).drop c.cmdPayloadBits)))
      ∨ (natOfBits (bits.take c.idBits) = c.opWrite.toNat ∧ bits.length = c.writeFrameBits
        ∧ f = .write (natOfBits ((bits.drop c.idBits).take c.addrBits))
          (natOfBits ((bits.drop c.idBits).drop c.addrBits))) := by
  simp only [frameFields] at h
  split_ifs at h with hshort hcmd hlen hwrite hlen
  · exact .inl ⟨hcmd, hlen, (Except.ok.inj h).symm⟩
  · exact .inr ⟨hwrite, hlen, (Except.ok.inj h).symm⟩

/-- Three fields one after another are the bits they were read from. -/
theorem bitsMsb_fields (bits : List Bool) {l m n : Nat} (hlen : bits.length = l + m + n) :
    bitsMsb (natOfBits (bits.take l)) l ++ bitsMsb (natOfBits ((bits.drop l).take m)) m
      ++ bitsMsb (natOfBits ((bits.drop l).drop m)) n = bits := by
  rw [bitsMsb_natOfBits (by simp; omega), bitsMsb_natOfBits (by simp; omega), bitsMsb_natOfBits (by simp; omega),
    List.append_assoc, List.take_append_drop, List.take_append_drop]

/-- Bits read as a command frame with the pad as sent are the frame of the payload read (R58). -/
theorem commandBits_of_frameFields {c : Config} {bits : List Bool} {p : Nat}
    (h : frameFields c bits = .ok (.command p (padField c))) : commandBits c p = bits := by
  obtain ⟨hid, hlen, hf⟩ | ⟨-, -, hf⟩ := frameFields_ok h
  · obtain ⟨hp, hpad⟩ := FrameFields.command.inj hf
    rw [commandBits, ← bitsMsb_mod c.padValue.toNat, ← padField, ← hid, hp, hpad]
    exact bitsMsb_fields bits hlen
  · cases hf

/-- Bits read as a write frame are the frame of the address and data read (R59). -/
theorem writeBits_of_frameFields {c : Config} {bits : List Bool} {a d : Nat}
    (h : frameFields c bits = .ok (.write a d)) : writeBits c a d = bits := by
  obtain ⟨-, -, hf⟩ | ⟨hid, hlen, hf⟩ := frameFields_ok h
  · cases hf
  · obtain ⟨ha, hd⟩ := FrameFields.write.inj hf
    rw [writeBits, ← hid, ha, hd]
    exact bitsMsb_fields bits hlen

/-- What a frame that decodes was read as. -/
theorem decodeFrame_ok {c : Config} {k : Nat} {bits : List Bool} {i : Instr} (h : decodeFrame c k bits = .ok i) :
    (∃ p, frameFields c bits = .ok (.command p (padField c)) ∧ i = commandInstr c k p)
      ∨ (∃ a d, frameFields c bits = .ok (.write a d) ∧ i = .write k a d) := by
  rw [decodeFrame] at h
  split_ifs at h
  split at h
  · cases h
  next p pad hf =>
    split_ifs at h with hpad
    exact .inl ⟨p, hpad ▸ hf, (Except.ok.inj h).symm⟩
  next a d hf =>
    split_ifs at h
    exact .inr ⟨a, d, hf, (Except.ok.inj h).symm⟩

/-- Settles O7: the frame's fields, sent one after another, are the bits they were read from. -/
theorem decodedFramesAreCanonical : Obligations.DecodedFramesAreCanonical := by
  intro c k bits i h
  obtain ⟨p, hf, rfl⟩ | ⟨a, d, hf, rfl⟩ := decodeFrame_ok (decodeRequest_frame_iff.1 h)
  · rw [encode_commandInstr, commandBits_of_frameFields hf]
    exact ⟨rfl, select?_commandInstr c k p⟩
  · rw [encode, writeBits_of_frameFields hf]
    exact ⟨rfl, rfl⟩

/-! ### The words of the test vectors (V1 of 95_test_vectors.md) -/

/-- Settles O3: the decoding of a host word at the default parameters uses no OPEN one, so the kernel evaluates it. -/
theorem tableWordsDecode : Obligations.TableWordsDecode := by
  unfold Obligations.TableWordsDecode
  decide

end Sys2Proof.Machine
end
